-- ==== Sys2Proof/Word.lean ====
section
/-! DEFINITION. The word types of the codec block: bytes, byte strings (00_scope.md R11) and the 64-bit words of the
host-visible registers (10_state.md R21). -/

namespace Sys2Proof

/-- A byte, a natural number 0 to 255 (R11). -/
abbrev Byte := BitVec 8

/-- A register as the host sees it: 64 bits (R21). -/
abbrev Word := BitVec 64

/-- A byte string, indexed from 0 (R11). A bit string is a byte string of `'0'` and `'1'` bytes only. -/
abbrev ByteString := List Byte

end Sys2Proof
end

