-- ==== Sys2Proof/Syntax.lean ====
section
/-! DEFINITION. The commands of the codec block: one constructor per row of the opcode table (30_encoding.md R71). A
command word has no operand field and no immediate (R70), so no constructor has an argument. -/

namespace Sys2Proof

/-- The seven commands. -/
inductive Instr where
  /-- IWC.SER, 0x01: serialize VALUE into OUT. -/
  | iwcSer
  /-- IWC.DES, 0x02: deserialize IN into VALUE. -/
  | iwcDes
  /-- IWC.WIDTH, 0x03: the serialized width into VALUE. -/
  | iwcWidth
  /-- HUF.ENC, 0x04: Huffman encode IN into OUT. -/
  | hufEnc
  /-- HUF.DEC, 0x05: Huffman decode IN into OUT. -/
  | hufDec
  /-- LZW.ENC, 0x06: LZW encode IN into OUT. -/
  | lzwEnc
  /-- LZW.DEC, 0x07: LZW decode IN into OUT. -/
  | lzwDec
  deriving DecidableEq, Repr

end Sys2Proof
end

