-- ==== Sys2Proof/WellFormed.lean ====
section
/-! DEFINITION. Well-formedness. A command has no operands (30_encoding.md R70), so every term of `Instr` is well-formed; what
can be ill-formed is the value written to CMD, and its three checks are R90's row for CMD, each on its own. -/

namespace Sys2Proof

/-- A command is well-formed: the format CMD8 has no operand field that could be out of range (R70). -/
def Instr.wellFormed : Instr → Bool
  | .iwcSer => true
  | .iwcDes => true
  | .iwcWidth => true
  | .hufEnc => true
  | .hufDec => true
  | .lzwEnc => true
  | .lzwDec => true

/-- No bit of 63:8 of the value written to CMD is set (R90, 40_command_interface.md R102). -/
def CmdWord.narrow (v : Word) : Bool := v.extractLsb' 8 56 == 0#56

/-- Bits 7:3 of the command are 0 (R70). -/
def CmdWord.reservedClear (v : Word) : Bool := v.extractLsb' 3 5 == 0#5

/-- The field `op`, bits 2:0, names an operation: op 0 is illegal (R71). -/
def CmdWord.opNamed (v : Word) : Bool := v.extractLsb' 0 3 != 0#3

/-- The value written to CMD is a legal command word: all three checks. -/
def CmdWord.wellFormed (v : Word) : Bool :=
  CmdWord.narrow v && CmdWord.reservedClear v && CmdWord.opNamed v

end Sys2Proof
end

