-- ==== Sys2Proof/Decode.lean ====
section
/-! DEFINITION. The decoder, total on every 64-bit value written to CMD and rejecting by name, and after it the encoder.
Rules: 30_encoding.md R70, R71, R90; 40_command_interface.md R106, R108. -/

namespace Sys2Proof

/-- Why a value written to CMD is no command (R90). Each ends the command with IllegalCommand. -/
inductive Decode.Reject where
  /-- a bit of 63:8 is set (40_command_interface.md R102) -/
  | wideWrite
  /-- a bit of 7:3 is set (R70) -/
  | reservedBits
  /-- bits 2:0 are 0 (R71, op 0) -/
  | opZero
  deriving DecidableEq, Repr

/-- The opcode map of R71 on the field `op`, bits 2:0. -/
def decodeOp (op : BitVec 3) : Except Decode.Reject Instr :=
  match op.toNat with
  | 1 => .ok .iwcSer
  | 2 => .ok .iwcDes
  | 3 => .ok .iwcWidth
  | 4 => .ok .hufEnc
  | 5 => .ok .hufDec
  | 6 => .ok .lzwEnc
  | 7 => .ok .lzwDec
  | _ => .error .opZero

/-- The decoder: the checks of `Exec` (40_command_interface.md R106) on the latched 64-bit value, then the opcode map. -/
def decodeCommand (v : Word) : Except Decode.Reject Instr :=
  if CmdWord.narrow v = false then .error .wideWrite
  else if CmdWord.reservedClear v = false then .error .reservedBits
  else decodeOp (v.extractLsb' 0 3)

/-- The value on CMD that stands for an opcode-table word of `nbits` bits: every bit above them is 0. -/
def tableLatch (nbits w : Nat) : Word := BitVec.ofNat 64 (w % 2 ^ nbits)

/-- The instruction the decoder reads from an opcode-table word; `none` where it rejects. -/
def decodeTableWord (nbits w : Nat) : Option Instr :=
  match decodeCommand (tableLatch nbits w) with
  | .ok i => some i
  | .error _ => none

/-- The encoder: the CMD value of each mnemonic (R71). -/
def encode : Instr → BitVec 8
  | .iwcSer => 0x01#8
  | .iwcDes => 0x02#8
  | .iwcWidth => 0x03#8
  | .hufEnc => 0x04#8
  | .hufDec => 0x05#8
  | .lzwEnc => 0x06#8
  | .lzwDec => 0x07#8

/-- The 64-bit value a host writes to register 1 to issue a command. -/
def encodeWrite (i : Instr) : Word := (encode i).setWidth 64

end Sys2Proof
end

