-- ==== Sys2Proof/Machine/Memory.lean ====
section
/-! DEFINITION. The byte memories IN and OUT (10_state.md R29, 20_memory.md R50, R56): lists of (index, byte) pairs with
strictly rising indices. An unlisted index holds no specified byte; what a read of one gives is in Operands.lean. -/

namespace Sys2Proof.Machine

/-- The canonical form: indices strictly rise. No listed byte can equal what an unlisted index holds, which is no byte. -/
abbrev Memory.wf (m : List Host.Cell) : Prop := (m.map Prod.fst).Pairwise (· < ·)

/-- Every listed index exists in a buffer of the given capacity (20_memory.md R50). -/
abbrev Memory.within (cap : Option Nat) (m : List Host.Cell) : Prop :=
  ∀ c ∈ m, ∀ k ∈ cap, c.1 < k

/-- The byte written at an index, if any. -/
def Memory.read (m : List Host.Cell) (a : Nat) : Option Byte := m.lookup a

/-- Write one byte. The canonical form is kept. -/
def Memory.write : List Host.Cell → Nat → Byte → List Host.Cell
  | [], a, b => [(a, b)]
  | (a', b') :: m, a, b =>
    if a < a' then (a, b) :: (a', b') :: m
    else if a = a' then (a, b) :: m
    else (a', b') :: Memory.write m a b

/-- `MemWrite(buf, a, n, s)` with `n = len(s)` (00_scope.md R12): store the bytes of `s` at `[a .. a+n)`. -/
def Memory.writeBytes : List Host.Cell → Nat → ByteString → List Host.Cell
  | m, _, [] => m
  | m, a, b :: bs => Memory.writeBytes (Memory.write m a b) (a + 1) bs

end Sys2Proof.Machine
end

