-- ==== Sys2Proof/Config.lean ====
section
/-! DEFINITION. What an implementation fixes (00_scope.md R9, 92_eei_decisions.md "Open parameters") and the free values,
which the spec leaves unspecified. -/

namespace Sys2Proof

/-- The implementation parameters of R9. `none` is the spec's default "unbounded". They are no state of the block (10_state.md
R41); the model carries them beside the state, unchanged by every step, so that each claim about all states is a claim
about all parameter values. DESIGN CHOICE (log entry 1), safe. -/
structure Params where
  /-- `CAP_IN`, bytes of the IN buffer (20_memory.md R61). -/
  capIn : Option Nat
  /-- `CAP_OUT`, bytes of the OUT buffer (20_memory.md R61). -/
  capOut : Option Nat
  /-- `FREQ_BITS`: a frequency that reaches `2 ^ FREQ_BITS` ends HUF.ENC with CapacityExceeded. -/
  freqBits : Option Nat
  /-- `CODE_BITS`: a code of more bits ends HUF.ENC or HUF.DEC with CapacityExceeded. -/
  codeBits : Option Nat
  /-- `NODE_CAP`: a tree of more nodes ends the command with CapacityExceeded. -/
  nodeCap : Option Nat
  /-- `DICT_CAP`: an insertion past this many entries ends an LZW command with CapacityExceeded. -/
  dictCap : Option Nat
  /-- `HEX_UPPER`: whether the serializer emits the letter digits in upper case (30_encoding.md R75). -/
  hexUpper : Bool
  deriving DecidableEq, Repr

/-- The spec's defaults: unbounded, lower case. -/
def Params.default : Params :=
  { capIn := none, capOut := none, freqBits := none, codeBits := none, nodeCap := none, dictCap := none, hexUpper := false }

/-- The unspecified byte of IN at an index the host has not written since reset (93_implementation_defined.md U12: any
value). A free value: applied to the reset count and the index. Log entry 7. -/
opaque Config.unwrittenIn : Nat → Nat → Byte

/-- The unspecified byte of OUT at an index at or beyond OUT_LEN (40_command_interface.md R104, U11: any value). A free
value: applied to the count of times OUT lost its content and the index. Log entry 6. -/
opaque Config.beyondOut : Nat → Nat → Byte

/-- OUT_LEN after an output of `2 ^ 64` bytes or more, which its 64 bits cannot hold and for which the spec states no value.
A free value: applied to the count of times OUT lost its content. DESIGN CHOICE (log entry 9), safe. -/
opaque Config.outLenBeyondWord : Nat → Word

end Sys2Proof
end

