-- ==== Sys2Proof/Machine/State.lean ====
section
/-! DEFINITION. The state of the codec block, all of it and as plain data (10_state.md R20 to R42), the reasons a step can
stop, and the state after reset (R42). -/

namespace Sys2Proof.Machine

/-- The error kinds of 60_exceptions.md R230 (ERRCODE 1 to 4). They are results of a command, not faults of the model. -/
inductive ErrKind where
  | lengthMismatch
  | malformedInput
  | capacityExceeded
  | illegalCommand
  deriving DecidableEq, Repr

/-- The two output forms of IWC (R22, field MODE). -/
inductive Mode where
  | raw
  | hex
  deriving DecidableEq, Repr

/-- PHASE (R30): `idle` when no command runs, else the step being executed, by the names of 40_command_interface.md
R109. -/
inductive Phase where
  | idle | dispatch
  | sSer | sLen | sDigits | sWidth
  | h1Empty | h2Count | h3Queue | h4Merge | h5Codes | h6TreeText | h7Frame
  | d0Empty | d1Prefix | d2TreeLen | d3TreeSlice | d4BitSlice | d5Rebuild | d6Walk | d7Return
  | l1Empty | l2Seed | l3Scan | l4Flush | l5Output
  | m1Empty | m2Split | m3Seed | m4First | m5Step | m6Return
  deriving DecidableEq, Repr

/-- A tree (R33). `absent` is a missing child, and the root of a tree with no entries. -/
inductive Tree where
  | absent
  | leaf (sym : Byte)
  | node (left right : Tree)
  deriving DecidableEq, Repr

/-- An entry of PQ (R32): keyed by `(freq, seq)`. -/
structure QEntry where
  freq : Nat
  seq : Nat
  tree : Tree
  deriving DecidableEq, Repr

/-- NODEPTR (R36) as the pair of 43_huffman_decoder.md R177: the node the bit walk stands at, and whether it is the root. -/
structure NodePtr where
  node : Tree
  atRoot : Bool
  deriving DecidableEq, Repr

/-- The working state of HENC and HDEC (R31 to R36, but OUTACC). -/
structure HufState where
  /-- FREQ (R31) -/
  freq : Vector Nat 256
  /-- PQ (R32): the set of entries, held sorted by `(freq, seq)`, least first (log entry 16) -/
  pq : List QEntry
  /-- MERGES (R32) -/
  merges : Nat
  /-- TREE (R33) -/
  tree : Tree
  /-- CODETAB (R34) -/
  codeTab : Vector (Option ByteString) 256
  /-- TBUF (R35) -/
  tbuf : ByteString
  /-- TREELEN (R35) -/
  treeLen : Nat
  /-- BITS (R36) -/
  bits : ByteString
  /-- NODEPTR (R36) -/
  nodePtr : NodePtr
  deriving DecidableEq, Repr

/-- The working state of LZW (R37, R38, but OUTACC). Maps are lists of pairs in insertion order (log entry 16). -/
structure LzwState where
  /-- DICT (R37) -/
  dict : List (ByteString × Nat)
  /-- INV (R38) -/
  inv : List (Nat × ByteString)
  /-- NEXTCODE (R37, R38) -/
  nextCode : Nat
  /-- CURRENT (R37, R38) -/
  current : ByteString
  /-- CODES (R37, R38) -/
  codes : List Nat
  deriving DecidableEq, Repr

/-- The host's four accesses (40_command_interface.md R101 to R104). -/
inductive HostAccess where
  /-- `RD n`: read register number `n` -/
  | rd (n : Nat)
  /-- `WR n, v`: write `v` to register number `n` -/
  | wr (n : Nat) (v : Word)
  /-- `WRB i, b`: write byte `b` to `IN[i]` -/
  | wrb (i : Nat) (b : Byte)
  /-- `RDB i`: read byte `OUT[i]` -/
  | rdb (i : Nat)
  deriving DecidableEq, Repr

/-- One step of a run of the system (R100): the agent that takes it, and what it does. -/
inductive Turn where
  /-- the host takes an access step -/
  | host (a : HostAccess)
  /-- the sequencer may take its step `Exec`, enabled when BUSY = 1 (R106) -/
  | sequencer
  /-- the platform asserts reset (70_reset_and_hazards.md R260) -/
  | reset
  deriving DecidableEq, Repr

/-- What a read returned to the host. -/
inductive HostRead where
  | reg (n : Nat) (v : Word)
  | byte (i : Nat) (b : Byte)
  deriving DecidableEq, Repr

/-- The state. The first five groups are the spec's (R20); the last is the model's own (log entries 1, 2, 3, 7, 8). -/
structure State where
  /-- CFG (R22): bit 0 MODE, bits 2:1 WSEL -/
  cfg : BitVec 3
  /-- STATUS (R24): bit 0 BUSY, bit 1 DONE, bit 2 ERR, bit 3 OVF -/
  status : BitVec 4
  /-- ERRCODE (R25) -/
  errCode : BitVec 3
  /-- IN_LEN (R26) -/
  inLen : Word
  /-- OUT_LEN (R27) -/
  outLen : Word
  /-- VALUE (R28) -/
  value : Word
  /-- IN (R29): the bytes the host has written since reset, by index, rising -/
  inBuf : List Host.Cell
  /-- OUT (R29): the bytes the block has written since reset, by index, rising -/
  outBuf : List Host.Cell
  /-- PHASE (R30) -/
  phase : Phase
  /-- IPOS (R30) -/
  ipos : Nat
  /-- LATCH (R30) -/
  latch : Word
  /-- FREQ, PQ, MERGES, TREE, CODETAB, TBUF, TREELEN, BITS, NODEPTR (R31 to R36) -/
  huf : HufState
  /-- DICT, INV, NEXTCODE, CURRENT, CODES (R37, R38) -/
  lzw : LzwState
  /-- OUTACC (R36), used by HUF.DEC and LZW.DEC -/
  outAcc : ByteString
  /-- MODEL: the implementation parameters (00_scope.md R9), which no step changes -/
  params : Params
  /-- MODEL: the turns still to come, in order -/
  pending : List Turn
  /-- MODEL: what the host's reads returned, newest first -/
  readLog : List HostRead
  /-- MODEL: how often a reset has left IN unspecified; the free bytes of IN are applied to it -/
  inEpoch : Nat
  /-- MODEL: how often a command start or a reset has left OUT unspecified; the free values of OUT are applied to it -/
  outEpoch : Nat
  deriving DecidableEq, Repr

/-- Why the machine stops with a fault. -/
inductive Fault where
  /-- A pseudocode operation is applied outside the domain 00_scope.md R11 to R13 give it (`M[k]` with `k` not in `M`,
  `s[0]` of the empty string). Raised by the meanings of HUF.ENC, LZW.ENC and LZW.DEC where their pseudocode reads a table;
  no command reaches it from any state (R149, 44_lzw.md R203, R209), so it never stops a run. Safe. Log entry 17. -/
  | undefinedOperation
  deriving DecidableEq, Repr

/-- Why a step has no meaning. -/
inductive Refusal where
  /-- An instruction whose meaning is not written yet; raised by `exec`'s arms only. Safe. -/
  | notModelled (mnemonic : String)
  /-- A host access other than `RD 2` while STATUS.BUSY = 1, to which the spec gives no behaviour and which it tells a model
  to refuse (40_command_interface.md R113, 93_implementation_defined.md U13). Raised by `step` at a host turn. Safe. -/
  | hostAccessWhileBusy
  deriving DecidableEq, Repr

/-- `Seed()` (44_lzw.md R200): `[b] -> b` for the 256 bytes. -/
def seedDict : List (ByteString × Nat) := (List.range 256).map fun b => ([BitVec.ofNat 8 b], b)

/-- `SeedInv()` (44_lzw.md R200): `b -> [b]` for the 256 bytes. -/
def seedInv : List (Nat × ByteString) := (List.range 256).map fun b => (b, [BitVec.ofNat 8 b])

/-- The Huffman working state after reset (R42). -/
def HufState.reset : HufState where
  freq := Vector.replicate 256 0
  pq := []
  merges := 0
  tree := .absent
  codeTab := Vector.replicate 256 none
  tbuf := []
  treeLen := 0
  bits := []
  nodePtr := ⟨.absent, true⟩

/-- The LZW working state after reset (R42). -/
def LzwState.reset : LzwState where
  dict := seedDict
  inv := seedInv
  nextCode := 256
  current := []
  codes := []

/-- The machine right after reset (R42, 70_reset_and_hazards.md R260): every value is R42's, the model's own fields are at
the defaults of log entries 1, 2, 3, 7 and 8. -/
def State.reset : State where
  cfg := 5#3
  status := 0#4
  errCode := 0#3
  inLen := 0#64
  outLen := 0#64
  value := 0#64
  inBuf := []
  outBuf := []
  phase := .idle
  ipos := 0
  latch := 0#64
  huf := HufState.reset
  lzw := LzwState.reset
  outAcc := []
  params := Params.default
  pending := []
  readLog := []
  inEpoch := 0
  outEpoch := 0

end Sys2Proof.Machine
end

