-- ==== Sys2Proof/Machine/Operands.lean ====
section
/-! DEFINITION. Operands. A command takes every operand from CFG, IN_LEN, IN and VALUE (30_encoding.md R70): the fields of
CFG, the serialized width, the input byte string, the integer operand. Also the ASCII bytes and the slice of
00_scope.md R11. -/

namespace Sys2Proof.Machine

/-- The byte `'\n'` (R11). -/
def chNewline : Byte := 0x0A#8
/-- The byte `' '` (R11). -/
def chSpace : Byte := 0x20#8
/-- The byte `'0'` (R11). -/
def chZero : Byte := 0x30#8
/-- The byte `'1'` (R11). -/
def chOne : Byte := 0x31#8

/-- `s[a..b)`, the slice of R11, for `a <= b <= len(s)`. -/
def slice (s : ByteString) (a b : Nat) : ByteString := (s.drop a).take (b - a)

/-- `mode(CFG)`, bit 0 of CFG: 0 raw, 1 hex (10_state.md R22). -/
def modeOf (cfg : BitVec 3) : Mode := if cfg.getLsbD 0 then .hex else .raw

/-- `W(CFG)` in bits: WSEL, bits 2:1 of CFG, selects 8, 16, 32, 64 (10_state.md R22). -/
def widthOf (cfg : BitVec 3) : Nat :=
  match (cfg.extractLsb' 1 2).toNat with
  | 0 => 8
  | 1 => 16
  | 2 => 32
  | _ => 64

/-- `SW(W, mode)`, the serialized width (41_integer_word_codec.md R120). -/
def serWidth (w : Nat) : Mode → Nat
  | .raw => w / 8
  | .hex => w / 4

/-- `W` as the running command reads it. -/
def State.wordBits (s : State) : Nat := widthOf s.cfg

/-- `mode` as the running command reads it. -/
def State.mode (s : State) : Mode := modeOf s.cfg

/-- `sw` as the running command reads it. -/
def State.sw (s : State) : Nat := serWidth s.wordBits s.mode

/-- The byte `IN[i]`: what the host wrote, and a free byte where it wrote none since reset (10_state.md R29, R266, U12). -/
def State.inByte (s : State) (i : Nat) : Byte :=
  match Memory.read s.inBuf i with
  | some b => b
  | none => Config.unwrittenIn s.inEpoch i

/-- `input`, `MemRead(IN, 0, IN_LEN)` (40_command_interface.md R106). -/
def State.input (s : State) : ByteString := (List.range s.inLen.toNat).map s.inByte

/-- The byte `OUT[i]`: for `i < OUT_LEN` the byte the block wrote; beyond, a free byte (40_command_interface.md R104, U11). -/
def State.outByte (s : State) (i : Nat) : Byte :=
  if i < s.outLen.toNat then
    match Memory.read s.outBuf i with
    | some b => b
    | none => Config.beyondOut s.outEpoch i
  else Config.beyondOut s.outEpoch i

/-- The output byte string `OUT[0..OUT_LEN)` (10_state.md R27). -/
def State.output (s : State) : ByteString := (List.range s.outLen.toNat).map s.outByte

/-- All byte values in ascending order, the range of the 256-step loops. -/
def allBytes : List Byte := (List.range 256).map (BitVec.ofNat 8)

end Sys2Proof.Machine
end

