-- ==== Sys2Proof/Machine/Flags.lean ====
section
/-! DEFINITION. STATUS and its four flags (10_state.md R24), ERRCODE's values (60_exceptions.md R230), and the limits whose
passing is CapacityExceeded (00_scope.md R9, 60_exceptions.md R233). -/

namespace Sys2Proof.Machine

/-- STATUS.BUSY, bit 0. -/
def State.busy (s : State) : Bool := s.status.getLsbD 0
/-- STATUS.DONE, bit 1. -/
def State.done (s : State) : Bool := s.status.getLsbD 1
/-- STATUS.ERR, bit 2. -/
def State.err (s : State) : Bool := s.status.getLsbD 2
/-- STATUS.OVF, bit 3. -/
def State.ovf (s : State) : Bool := s.status.getLsbD 3

/-- STATUS with its four flags. Every write of STATUS by the block (R105, R107, R236) writes all four. -/
def packStatus (busy done err ovf : Bool) : BitVec 4 :=
  BitVec.ofBool ovf ++ BitVec.ofBool err ++ BitVec.ofBool done ++ BitVec.ofBool busy

/-- `code(E)`, ERRCODE's value for an error kind (R230). -/
def ErrKind.code : ErrKind → BitVec 3
  | .lengthMismatch => 1#3
  | .malformedInput => 2#3
  | .capacityExceeded => 3#3
  | .illegalCommand => 4#3

/-- A count passes a capacity (R233); `none` is unbounded. -/
def beyond (cap : Option Nat) (n : Nat) : Bool :=
  match cap with
  | none => false
  | some c => decide (c < n)

/-- A frequency reaches `2 ^ FREQ_BITS` (92_eei_decisions.md, open parameters). -/
def freqBeyond (p : Params) (f : Nat) : Bool :=
  match p.freqBits with
  | none => false
  | some k => decide (2 ^ k ≤ f)

/-- A code of `n` bits is longer than `CODE_BITS`. -/
def codeBeyond (p : Params) (n : Nat) : Bool := beyond p.codeBits n

/-- A tree, or the trees being built, of `n` nodes pass `NODE_CAP`. -/
def nodesBeyond (p : Params) (n : Nat) : Bool := beyond p.nodeCap n

/-- A dictionary of `n` entries, the seed counted, passes `DICT_CAP` (log entry 15). -/
def dictBeyond (p : Params) (n : Nat) : Bool := beyond p.dictCap n

end Sys2Proof.Machine
end

