-- ==== Sys2Proof/Machine/Ops.lean ====
section
/-! DEFINITION. The shared operations: a command's start (40_command_interface.md R105), its normal end `Finish` (R107), its
error exit `raise` (60_exceptions.md R236), the sequencing of phases (R109), and the input a command reads (R106). There is
no return from an error exit (60_exceptions.md R239): the next start clears the report. -/

namespace Sys2Proof.Machine

/-- `Start(v)` (R105). The command-local flag `ovf` is local to the meanings (log entry 10). OUT's content becomes
unspecified, since OUT_LEN is 0. -/
def State.start (s : State) (v : Word) : State :=
  { s with
    latch := v
    status := packStatus true false false false
    errCode := 0#3
    outLen := 0#64
    phase := .dispatch
    outEpoch := s.outEpoch + 1 }

/-- `raise E` (R236), the error exit: these fields and nothing more. -/
def State.raiseError (s : State) (e : ErrKind) : State :=
  { s with
    outLen := 0#64
    status := packStatus false true true false
    errCode := e.code
    phase := .idle }

/-- The value of OUT_LEN for an output of `n` bytes: `n`, and a free value where 64 bits cannot hold `n` (log entry 9). -/
def outLenOf (epoch n : Nat) : Word :=
  if n < 2 ^ 64 then BitVec.ofNat 64 n else Config.outLenBeyondWord epoch

/-- The writes of `Finish(out)` (R107) after its capacity check. -/
def State.complete (s : State) (out : ByteString) (ovf : Bool) : State :=
  { s with
    outBuf := Memory.writeBytes s.outBuf 0 out
    outLen := outLenOf s.outEpoch out.length
    status := packStatus false true false ovf
    errCode := 0#3
    phase := .idle }

/-- `Finish(out)` (R107): CapacityExceeded when the output does not fit, else the normal end. -/
def State.finish (s : State) (out : ByteString) (ovf : Bool) : State :=
  if beyond s.params.capOut out.length then s.raiseError .capacityExceeded else s.complete out ovf

/-- How one phase of a command ends. -/
inductive Ctl where
  /-- control moves forward to the next phase -/
  | go (s : State)
  /-- `Finish(out)`, with the command-local flag `ovf` -/
  | finish (s : State) (out : ByteString) (ovf : Bool)
  /-- `raise E` -/
  | raise (s : State) (e : ErrKind)
  /-- a pseudocode operation outside its domain (00_scope.md R11 to R13) -/
  | undefined
  deriving DecidableEq, Repr

/-- The sequencer enters a phase: PHASE names it and IPOS is at the start of the phase's input (R30, log entry 11). -/
def State.enter (s : State) (ph : Phase) : State := { s with phase := ph, ipos := 0 }

/-- The sequencer has consumed `n` more bytes of the phase's input (R30). -/
def State.consume (s : State) (n : Nat) : State := { s with ipos := s.ipos + n }

/-- The phases of a command in order (R109): control only moves forward, and leaves the list by `Finish` or `raise`. -/
def runPhases : List (Phase × (State → Ctl)) → State → Ctl
  | [], _ => .undefined
  | (ph, f) :: rest, s =>
    match f (s.enter ph) with
    | .go s' => runPhases rest s'
    | .finish s' out ovf => .finish s' out ovf
    | .raise s' e => .raise s' e
    | .undefined => .undefined

/-- The end of a command as the outcome of `Exec`. -/
def conclude : Ctl → Host.Outcome State Fault Refusal
  | .finish s out ovf => .next (s.finish out ovf)
  | .raise s e => .next (s.raiseError e)
  | .go _ => .fault .undefinedOperation
  | .undefined => .fault .undefinedOperation

/-- A command that reads IN: CapacityExceeded when `IN_LEN > CAP_IN`, before anything else of the command (R106, R238). -/
def withInput (s : State) (body : ByteString → Host.Outcome State Fault Refusal) :
    Host.Outcome State Fault Refusal :=
  if beyond s.params.capIn s.inLen.toNat then .next (s.raiseError .capacityExceeded) else body s.input

end Sys2Proof.Machine
end

