-- ==== Sys2Proof/Machine/Serializer.lean ====
section
/-! DEFINITION. The pure functions of IWC: `Ser`, `Des`, `SerW` (41_integer_word_codec.md R121 to R123) over the digit forms
of 30_encoding.md R73 to R76. Words are natural numbers; nothing wraps but `trunc_W`. -/

namespace Sys2Proof.Machine

/-- The `n` digits of `v` in base `base`, most significant first: digit `i` is `(v div base^(n-1-i)) mod base` (R73, R74). -/
def digits (base : Nat) : Nat → Nat → List Nat
  | 0, _ => []
  | n + 1, v => v / base ^ n % base :: digits base n v

/-- The value of a digit string, most significant first: the sum of `d[i] * base^(n-1-i)` (R73, R74). -/
def undigits (base : Nat) : List Nat → Nat
  | [] => 0
  | d :: ds => d * base ^ ds.length + undigits base ds

/-- `HexDigit(n)` for `0 <= n <= 15` (R75); upper-case letters when the parameter `HEX_UPPER` says so. -/
def hexDigit (upper : Bool) (n : Nat) : Byte :=
  if n ≤ 9 then BitVec.ofNat 8 (0x30 + n)
  else if upper then BitVec.ofNat 8 (0x41 + (n - 10))
  else BitVec.ofNat 8 (0x61 + (n - 10))

/-- `HexVal(c)` (R76): both cases of letter, and failure on any other byte. -/
def hexVal (c : Byte) : Option Nat :=
  let n := c.toNat
  if 0x30 ≤ n ∧ n ≤ 0x39 then some (n - 0x30)
  else if 0x61 ≤ n ∧ n ≤ 0x66 then some (n - 0x61 + 10)
  else if 0x41 ≤ n ∧ n ≤ 0x46 then some (n - 0x41 + 10)
  else none

/-- `Ser(W, mode, v)` (R121). -/
def ser (upper : Bool) (w : Nat) (mode : Mode) (v : Nat) : ByteString :=
  match mode with
  | .raw => (digits 256 (serWidth w .raw) v).map (BitVec.ofNat 8)
  | .hex => (digits 16 (serWidth w .hex) v).map (hexDigit upper)

/-- All the hexadecimal digits of a byte string, or failure at the first byte that is none. -/
def hexVals : ByteString → Option (List Nat)
  | [] => some []
  | c :: cs =>
    match hexVal c with
    | none => none
    | some d =>
      match hexVals cs with
      | none => none
      | some ds => some (d :: ds)

/-- `Des` after its length check (R122). -/
def desDigits (mode : Mode) (s : ByteString) : Except ErrKind Nat :=
  match mode with
  | .raw => .ok (undigits 256 (s.map BitVec.toNat))
  | .hex =>
    match hexVals s with
    | none => .error .malformedInput
    | some ds => .ok (undigits 16 ds)

/-- `Des(W, mode, s)` (R122): the length is checked first. -/
def des (w : Nat) (mode : Mode) (s : ByteString) : Except ErrKind Nat :=
  if s.length ≠ serWidth w mode then .error .lengthMismatch else desDigits mode s

/-- How many bytes `Des` consumes: all, or up to and with the first byte that is no digit (R30, log entry 11). -/
def desConsumed (mode : Mode) (s : ByteString) : Nat :=
  match mode with
  | .raw => s.length
  | .hex => min s.length ((s.takeWhile fun c => (hexVal c).isSome).length + 1)

/-- The bytes of `SerW(v)` (R123) in a state: `v` reduced modulo `2^W`, then serialized. -/
def State.serWord (s : State) (v : Nat) : ByteString :=
  ser s.params.hexUpper s.wordBits s.mode (v % 2 ^ s.wordBits)

/-- The flag of `SerW(v)` (R123): whether `v` loses high bits. -/
def State.serOverflows (s : State) (v : Nat) : Bool := decide (2 ^ s.wordBits ≤ v)

end Sys2Proof.Machine
end

