-- ==== Sys2Proof/Machine/Henc.lean ====
section
/-! DEFINITION. HUF.ENC (42_huffman_encoder.md R140 to R149), phase by phase (40_command_interface.md R109). -/

namespace Sys2Proof.Machine

/-- `T[b]` for a table indexed by a byte, FREQ or CODETAB (10_state.md R31, R34). -/
def tabGet {α : Type} (v : Vector α 256) (b : Byte) : α := v[b.toNat]'b.isLt

/-- `T[b] <- x` for a table indexed by a byte. -/
def tabSet {α : Type} (v : Vector α 256) (b : Byte) (x : α) : Vector α 256 := v.set b.toNat x b.isLt

/-- The number of nodes of a tree, what `NODE_CAP` bounds. -/
def Tree.nodes : Tree → Nat
  | .absent => 0
  | .leaf _ => 1
  | .node l r => l.nodes + r.nodes + 1

/-- The nodes of all the trees in a queue. -/
def queueNodes (q : List QEntry) : Nat := (q.map fun e => e.tree.nodes).sum

/-- The order of R143: smaller `freq` first and, among equal `freq`, smaller `seq` first. -/
def QEntry.before (a b : QEntry) : Bool := decide (a.freq < b.freq ∨ (a.freq = b.freq ∧ a.seq < b.seq))

/-- Insert an entry into PQ, keeping it sorted by R143's order, so that `PopMin` is the head. -/
def insertEntry (e : QEntry) : List QEntry → List QEntry
  | [] => [e]
  | a :: q => if e.before a then e :: a :: q else a :: insertEntry e q

/-- H1_EMPTY (R141). -/
def hencEmpty (input : ByteString) (s : State) : Ctl :=
  if input = [] then .finish s [] false else .go s

/-- The counting loop of step 2 (R142). A frequency that reaches `2 ^ FREQ_BITS` ends the command (log entry 12). -/
def countBytes : ByteString → State → Ctl
  | [], s => .go s
  | b :: bs, s =>
    let s1 := s.consume 1
    let f := tabGet s1.huf.freq b + 1
    if freqBeyond s1.params f then .raise s1 .capacityExceeded
    else countBytes bs { s1 with huf := { s1.huf with freq := tabSet s1.huf.freq b f } }

/-- H2_COUNT (R142): all 256 counts to 0, then the loop. -/
def hencCount (input : ByteString) (s : State) : Ctl :=
  countBytes input { s with huf := { s.huf with freq := Vector.replicate 256 0 } }

/-- The loop of step 3 (R143) over the given byte values. A leaf that passes `NODE_CAP` ends the command (log entry 13). -/
def queueLeaves : List Byte → State → Ctl
  | [], s => .go s
  | b :: bs, s =>
    let f := tabGet s.huf.freq b
    if f = 0 then queueLeaves bs s
    else if nodesBeyond s.params (queueNodes s.huf.pq + 1) then .raise s .capacityExceeded
    else queueLeaves bs { s with huf := { s.huf with pq := insertEntry ⟨f, b.toNat, .leaf b⟩ s.huf.pq } }

/-- H3_QUEUE (R143): PQ empty and MERGES 0, then one leaf entry per symbol with a count, in ascending order. -/
def hencQueue (s : State) : Ctl :=
  queueLeaves allBytes { s with huf := { s.huf with pq := [], merges := 0 } }

/-- The merge loop of step 4 (R144): pop two, push their node back, until at most one entry is left. Each pass shortens PQ, so
`fuel` passes suffice when `fuel` is PQ's length. -/
def mergeLoop : Nat → State → Ctl
  | 0, s => .go s
  | fuel + 1, s =>
    match s.huf.pq with
    | e1 :: e2 :: rest =>
      let f := e1.freq + e2.freq
      let e : QEntry := ⟨f, 256 + s.huf.merges, .node e1.tree e2.tree⟩
      let popped := { s with huf := { s.huf with pq := rest } }
      if freqBeyond s.params f then .raise popped .capacityExceeded
      else if nodesBeyond s.params (queueNodes (e :: rest)) then .raise popped .capacityExceeded
      else mergeLoop fuel { s with huf := { s.huf with pq := insertEntry e rest, merges := s.huf.merges + 1 } }
    | [] => .go s
    | [_] => .go s

/-- `TREE <- root`, the one entry of PQ (R144, R145). -/
def takeRoot : Ctl → Ctl
  | .go s =>
    match s.huf.pq with
    | [e] => .go { s with huf := { s.huf with tree := e.tree } }
    | [] => .undefined
    | _ :: _ :: _ => .undefined
  | .finish s out ovf => .finish s out ovf
  | .raise s e => .raise s e
  | .undefined => .undefined

/-- H4_MERGE (R144, R145). -/
def hencMerge (s : State) : Ctl := takeRoot (mergeLoop s.huf.pq.length s)

/-- The leaves of a tree in pre-order with their paths: what `AssignCodes(t, p)` writes, in the order it writes it (R146). -/
def leafCodes : Tree → ByteString → List (Byte × ByteString)
  | .absent, _ => []
  | .leaf b, p => [(b, p)]
  | .node l r, p => leafCodes l (p ++ [chZero]) ++ leafCodes r (p ++ [chOne])

/-- The codes of a tree: the paths, and `"0"` for the single leaf (R146, R147). -/
def codesOf : Tree → List (Byte × ByteString)
  | .absent => []
  | .leaf b => [(b, [chZero])]
  | .node l r => leafCodes (.node l r) []

/-- Write codes into CODETAB. A code of more than `CODE_BITS` bits ends the command (log entry 14). -/
def fillCodes : List (Byte × ByteString) → State → Ctl
  | [], s => .go s
  | (b, c) :: rest, s =>
    if codeBeyond s.params c.length then .raise s .capacityExceeded
    else fillCodes rest { s with huf := { s.huf with codeTab := tabSet s.huf.codeTab b (some c) } }

/-- H5_CODES (R146, R147): all 256 entries to none, then the codes. -/
def hencCodes (s : State) : Ctl :=
  fillCodes (codesOf s.huf.tree) { s with huf := { s.huf with codeTab := Vector.replicate 256 none } }

/-- One entry of the tree text: `[s] ++ c ++ [' ']` (R148, 30_encoding.md R78). -/
def treeEntry (b : Byte) (c : ByteString) : ByteString := b :: (c ++ [chSpace])

/-- `TreeText(t)` (R148); `none` where a leaf has no code, where the pseudocode is undefined. -/
def treeText (tab : Vector (Option ByteString) 256) : Tree → Option ByteString
  | .absent => none
  | .leaf b =>
    match tabGet tab b with
    | some c => some (treeEntry b c)
    | none => none
  | .node l r =>
    match treeText tab l, treeText tab r with
    | some x, some y => some (x ++ y)
    | none, _ => none
    | some _, none => none

/-- H6_TREETEXT (R148): TBUF and TREELEN. -/
def hencTreeText (s : State) : Ctl :=
  match treeText s.huf.codeTab s.huf.tree with
  | some t => .go { s with huf := { s.huf with tbuf := t, treeLen := t.length } }
  | none => .undefined

/-- `B`, the concatenation of the codes of the input's symbols (R149, 30_encoding.md R81); `none` where a symbol has none. -/
def bitString (tab : Vector (Option ByteString) 256) : ByteString → Option ByteString
  | [] => some []
  | b :: bs =>
    match tabGet tab b, bitString tab bs with
    | some c, some rest => some (c ++ rest)
    | none, _ => none
    | some _, none => none

/-- The frame of 30_encoding.md R77 around a serialized tree length, a tree buffer and a bit string. -/
def frameOf (lenWord tbuf bits : ByteString) : ByteString :=
  lenWord ++ [chNewline] ++ tbuf ++ [chNewline] ++ bits ++ [chNewline]

/-- H7_FRAME (R149). -/
def hencFrame (input : ByteString) (s : State) : Ctl :=
  match bitString s.huf.codeTab input with
  | some b =>
    .finish (s.consume input.length) (frameOf (s.serWord s.huf.treeLen) s.huf.tbuf b) (s.serOverflows s.huf.treeLen)
  | none => .undefined

/-- The phases of HUF.ENC (R109). -/
def hencPhases (input : ByteString) : List (Phase × (State → Ctl)) :=
  [(.h1Empty, hencEmpty input), (.h2Count, hencCount input), (.h3Queue, hencQueue), (.h4Merge, hencMerge),
   (.h5Codes, hencCodes), (.h6TreeText, hencTreeText), (.h7Frame, hencFrame input)]

/-- HUF.ENC (R140). -/
def execHufEnc (s : State) : Host.Outcome State Fault Refusal :=
  withInput s fun input => conclude (runPhases (hencPhases input) s)

end Sys2Proof.Machine
end

