-- ==== Sys2Proof/Machine/Hdec.lean ====
section
/-! DEFINITION. HUF.DEC (43_huffman_decoder.md R170 to R179), phase by phase (40_command_interface.md R109). `raise` with no
name in the pseudocode is `raise MalformedInput`. -/

namespace Sys2Proof.Machine

/-- D0_EMPTY (R171). -/
def hdecEmpty (input : ByteString) (s : State) : Ctl :=
  if input = [] then .finish s [] false else .go s

/-- D1_PREFIX (R172): room for the length prefix and one more byte. -/
def hdecPrefix (input : ByteString) (s : State) : Ctl :=
  if input.length < s.sw + 1 then .raise s .malformedInput else .go s

/-- D2_TREELEN (R172): any failure of `Des` becomes MalformedInput (41_integer_word_codec.md R128). -/
def hdecTreeLen (input : ByteString) (s : State) : Ctl :=
  match des s.wordBits s.mode (input.take s.sw) with
  | .ok n => .go { s with huf := { s.huf with treeLen := n } }
  | .error _ => .raise s .malformedInput

/-- `tStart`, the offset of the tree buffer (R170). -/
def State.treeStart (s : State) : Nat := s.sw + 1

/-- `tEnd`, the offset after the tree buffer: exact, no wrap (R170, 20_memory.md R60). -/
def State.treeEnd (s : State) : Nat := s.treeStart + s.huf.treeLen

/-- D3_TREESLICE (R173). -/
def hdecTreeSlice (input : ByteString) (s : State) : Ctl :=
  if input[s.sw]? ≠ some chNewline then .raise s .malformedInput
  else if input.length ≤ s.treeEnd then .raise s .malformedInput
  else if input[s.treeEnd]? ≠ some chNewline then .raise s .malformedInput
  else .go { s with huf := { s.huf with tbuf := slice input s.treeStart s.treeEnd } }

/-- D4_BITSLICE (R173): `bStart = tEnd + 1`, `bEnd = L - 1`. -/
def hdecBitSlice (input : ByteString) (s : State) : Ctl :=
  if input.length - 1 < s.treeEnd + 1 then .raise s .malformedInput
  else if input[input.length - 1]? ≠ some chNewline then .raise s .malformedInput
  else .go { s with huf := { s.huf with bits := slice input (s.treeEnd + 1) (input.length - 1) } }

/-- `Insert(t, code, s)` (R175); `none` is its failure. -/
def insertCode (sym : Byte) : Tree → ByteString → Option Tree
  | .absent, [] => some (.leaf sym)
  | .leaf _, [] => none
  | .node _ _, [] => none
  | .leaf _, _ :: _ => none
  | .absent, c :: rest =>
    match insertCode sym .absent rest with
    | none => none
    | some t => if c = chZero then some (.node t .absent) else some (.node .absent t)
  | .node l r, c :: rest =>
    if c = chZero then
      match insertCode sym l rest with
      | none => none
      | some t => some (.node t r)
    else
      match insertCode sym r rest with
      | none => none
      | some t => some (.node l t)

/-- The loops of step 5 (R174) over the rest of TBUF: `none` before an entry's symbol, `some (s, code)` inside the entry of
symbol `s` with `code` read so far. Parameters `CODE_BITS` and `NODE_CAP`: log entries 13, 14. -/
def rebuildTree : ByteString → Option (Byte × ByteString) → State → Ctl
  | [], none, s => .go s
  | [], some _, s => .raise s .malformedInput
  | b :: rest, none, s => rebuildTree rest (some (b, [])) (s.consume 1)
  | c :: rest, some (sym, code), s =>
    let s1 := s.consume 1
    if c = chSpace then
      if code = [] then .raise s1 .malformedInput
      else
        match insertCode sym s1.huf.tree code with
        | none => .raise s1 .malformedInput
        | some t =>
          if nodesBeyond s1.params t.nodes then .raise s1 .capacityExceeded
          else rebuildTree rest none { s1 with huf := { s1.huf with tree := t } }
    else if c ≠ chZero ∧ c ≠ chOne then .raise s1 .malformedInput
    else if codeBeyond s1.params (code.length + 1) then .raise s1 .capacityExceeded
    else rebuildTree rest (some (sym, code ++ [c])) s1

/-- D5_REBUILD (R174, R175): from a fresh root. -/
def hdecRebuild (s : State) : Ctl :=
  rebuildTree s.huf.tbuf none { s with huf := { s.huf with tree := .absent } }

/-- The child a bit leads to (R177); a node without children, which only the absent root is, leads nowhere. -/
def Tree.child (t : Tree) (c : Byte) : Tree :=
  match t with
  | .node l r => if c = chZero then l else r
  | .leaf _ => .absent
  | .absent => .absent

/-- The loop of step 6 (R177), and the end of the bit string (R178). -/
def walkBits : ByteString → State → Ctl
  | [], s => if s.huf.nodePtr.atRoot then .go s else .raise s .malformedInput
  | c :: rest, s =>
    let s1 := s.consume 1
    if c ≠ chZero ∧ c ≠ chOne then .raise s1 .malformedInput
    else
      match s1.huf.nodePtr.node.child c with
      | .absent => .raise s1 .malformedInput
      | .leaf b =>
        walkBits rest
          { s1 with outAcc := s1.outAcc ++ [b], huf := { s1.huf with nodePtr := ⟨s1.huf.tree, true⟩ } }
      | .node l r => walkBits rest { s1 with huf := { s1.huf with nodePtr := ⟨.node l r, false⟩ } }

/-- D6_WALK (R177, R178): OUTACC empty, at the root. -/
def hdecWalk (s : State) : Ctl :=
  walkBits s.huf.bits { s with outAcc := [], huf := { s.huf with nodePtr := ⟨s.huf.tree, true⟩ } }

/-- D7_RETURN (R179). -/
def hdecReturn (s : State) : Ctl := .finish s s.outAcc false

/-- The phases of HUF.DEC (R109). -/
def hdecPhases (input : ByteString) : List (Phase × (State → Ctl)) :=
  [(.d0Empty, hdecEmpty input), (.d1Prefix, hdecPrefix input), (.d2TreeLen, hdecTreeLen input),
   (.d3TreeSlice, hdecTreeSlice input), (.d4BitSlice, hdecBitSlice input), (.d5Rebuild, hdecRebuild),
   (.d6Walk, hdecWalk), (.d7Return, hdecReturn)]

/-- HUF.DEC (R170). -/
def execHufDec (s : State) : Host.Outcome State Fault Refusal :=
  withInput s fun input => conclude (runPhases (hdecPhases input) s)

end Sys2Proof.Machine
end

