-- ==== Sys2Proof/Machine/Iwc.lean ====
section
/-! DEFINITION. The commands of IWC (41_integer_word_codec.md R124 to R126), phase by phase (40_command_interface.md R109). -/

namespace Sys2Proof.Machine

/-- S_SER: `Finish(SerW(VALUE))` (R124). -/
def iwcSerialize (s : State) : Ctl :=
  .finish s (s.serWord s.value.toNat) (s.serOverflows s.value.toNat)

/-- S_LEN: the length check of `Des` (R122, R125). -/
def iwcCheckLength (input : ByteString) (s : State) : Ctl :=
  if input.length ≠ s.sw then .raise s .lengthMismatch else .go s

/-- S_DIGITS: the digits of `Des`, then VALUE and the end of the command (R122, R125). -/
def iwcDigits (input : ByteString) (s : State) : Ctl :=
  let s1 := s.consume (desConsumed s.mode input)
  match desDigits s.mode input with
  | .error e => .raise s1 e
  | .ok v => .finish { s1 with value := BitVec.ofNat 64 v } [] false

/-- S_WIDTH: `VALUE <- SW(W, mode); Finish([])` (R126). -/
def iwcReportWidth (s : State) : Ctl :=
  .finish { s with value := BitVec.ofNat 64 s.sw } [] false

/-- IWC.SER (R124). It does not read IN, so a finite CAP_IN does not concern it (R106). -/
def execIwcSer (s : State) : Host.Outcome State Fault Refusal :=
  conclude (runPhases [(.sSer, iwcSerialize)] s)

/-- IWC.DES (R125). -/
def execIwcDes (s : State) : Host.Outcome State Fault Refusal :=
  withInput s fun input => conclude (runPhases [(.sLen, iwcCheckLength input), (.sDigits, iwcDigits input)] s)

/-- IWC.WIDTH (R126). -/
def execIwcWidth (s : State) : Host.Outcome State Fault Refusal :=
  conclude (runPhases [(.sWidth, iwcReportWidth)] s)

end Sys2Proof.Machine
end

