-- ==== Sys2Proof/Machine/Lzw.lean ====
section
/-! DEFINITION. LZW.ENC and LZW.DEC (44_lzw.md R200 to R211), phase by phase (40_command_interface.md R109). -/

namespace Sys2Proof.Machine

/-- L1_EMPTY (R202). -/
def lzwEncEmpty (input : ByteString) (s : State) : Ctl :=
  if input = [] then .finish s [] false else .go s

/-- L2_SEED (R202). A `DICT_CAP` below the seed's 256 entries ends the command (log entry 15). -/
def lzwEncSeed (s : State) : Ctl :=
  if dictBeyond s.params 256 then .raise s .capacityExceeded
  else .go { s with lzw := { s.lzw with dict := seedDict, nextCode := 256, current := [], codes := [] } }

/-- The scan of step 3 (R203). An insertion past `DICT_CAP` ends the command (log entry 15). -/
def lzwScan : ByteString → State → Ctl
  | [], s => .go s
  | c :: rest, s =>
    let s1 := s.consume 1
    let key := s1.lzw.current ++ [c]
    match s1.lzw.dict.lookup key with
    | some _ => lzwScan rest { s1 with lzw := { s1.lzw with current := key } }
    | none =>
      match s1.lzw.dict.lookup s1.lzw.current with
      | none => .undefined
      | some k =>
        let s2 := { s1 with lzw := { s1.lzw with codes := s1.lzw.codes ++ [k] } }
        if dictBeyond s2.params (s2.lzw.dict.length + 1) then .raise s2 .capacityExceeded
        else
          lzwScan rest
            { s2 with
              lzw :=
                { s2.lzw with
                  dict := s2.lzw.dict ++ [(key, s2.lzw.nextCode)]
                  nextCode := s2.lzw.nextCode + 1
                  current := [c] } }

/-- L3_SCAN (R203). -/
def lzwEncScan (input : ByteString) (s : State) : Ctl := lzwScan input s

/-- L4_FLUSH (R204). -/
def lzwEncFlush (s : State) : Ctl :=
  if s.lzw.current = [] then .go s
  else
    match s.lzw.dict.lookup s.lzw.current with
    | none => .undefined
    | some k => .go { s with lzw := { s.lzw with codes := s.lzw.codes ++ [k] } }

/-- L5_OUTPUT (R205): the concatenation of `SerW(k)`, and OVF when some code is truncated. -/
def lzwEncOutput (s : State) : Ctl :=
  .finish s (s.lzw.codes.flatMap s.serWord) (s.lzw.codes.any s.serOverflows)

/-- The phases of LZW.ENC (R109). -/
def lzwEncPhases (input : ByteString) : List (Phase × (State → Ctl)) :=
  [(.l1Empty, lzwEncEmpty input), (.l2Seed, lzwEncSeed), (.l3Scan, lzwEncScan input), (.l4Flush, lzwEncFlush),
   (.l5Output, lzwEncOutput)]

/-- LZW.ENC (R201). -/
def execLzwEnc (s : State) : Host.Outcome State Fault Refusal :=
  withInput s fun input => conclude (runPhases (lzwEncPhases input) s)

/-- M1_EMPTY (R207). -/
def lzwDecEmpty (input : ByteString) (s : State) : Ctl :=
  if input = [] then .finish s [] false else .go s

/-- The loop of step 2 (R207): `n` chunks of `sw` bytes, each through `Des`. -/
def splitChunks : Nat → ByteString → State → Ctl
  | 0, _, s => .go s
  | n + 1, bytes, s =>
    let s1 := s.consume s.sw
    match des s1.wordBits s1.mode (bytes.take s1.sw) with
    | .error _ => .raise s1 .malformedInput
    | .ok k => splitChunks n (bytes.drop s1.sw) { s1 with lzw := { s1.lzw with codes := s1.lzw.codes ++ [k] } }

/-- M2_SPLIT (R207). -/
def lzwDecSplit (input : ByteString) (s : State) : Ctl :=
  if input.length % s.sw ≠ 0 then .raise s .malformedInput
  else splitChunks (input.length / s.sw) input { s with lzw := { s.lzw with codes := [] } }

/-- M3_SEED (R208). -/
def lzwDecSeed (s : State) : Ctl :=
  if dictBeyond s.params 256 then .raise s .capacityExceeded
  else .go { s with lzw := { s.lzw with inv := seedInv, nextCode := 256 } }

/-- M4_FIRST (R208). -/
def lzwDecFirst (s : State) : Ctl :=
  match s.lzw.codes with
  | [] => .undefined
  | k :: _ =>
    if 255 < k then .raise s .malformedInput
    else
      match s.lzw.inv.lookup k with
      | none => .undefined
      | some e => .go { s with lzw := { s.lzw with current := e }, outAcc := e }

/-- What one code of step 5 stands for (R209, R210): its entry of INV; the self-reference when it is NEXTCODE; else nothing. -/
inductive EntryOf where
  | entry (e : ByteString)
  | unexpected
  | undefined
  deriving DecidableEq, Repr

/-- The entry of a code in the decoder's state (R209). -/
def lzwEntryOf (l : LzwState) (k : Nat) : EntryOf :=
  match l.inv.lookup k with
  | some e => .entry e
  | none =>
    if k = l.nextCode then
      match l.current with
      | [] => .undefined
      | c :: cs => .entry ((c :: cs) ++ [c])
    else .unexpected

/-- The loop of step 5 over the codes after the first (R209). -/
def lzwStep : List Nat → State → Ctl
  | [], s => .go s
  | k :: rest, s =>
    match lzwEntryOf s.lzw k with
    | .unexpected => .raise s .malformedInput
    | .undefined => .undefined
    | .entry [] => .undefined
    | .entry (e0 :: es) =>
      let s1 := { s with outAcc := s.outAcc ++ (e0 :: es) }
      if dictBeyond s1.params (s1.lzw.inv.length + 1) then .raise s1 .capacityExceeded
      else
        lzwStep rest
          { s1 with
            lzw :=
              { s1.lzw with
                inv := s1.lzw.inv ++ [(s1.lzw.nextCode, s1.lzw.current ++ [e0])]
                nextCode := s1.lzw.nextCode + 1
                current := e0 :: es } }

/-- M5_STEP (R209, R210). -/
def lzwDecStep (s : State) : Ctl := lzwStep (s.lzw.codes.drop 1) s

/-- M6_RETURN (R211). -/
def lzwDecReturn (s : State) : Ctl := .finish s s.outAcc false

/-- The phases of LZW.DEC (R109). -/
def lzwDecPhases (input : ByteString) : List (Phase × (State → Ctl)) :=
  [(.m1Empty, lzwDecEmpty input), (.m2Split, lzwDecSplit input), (.m3Seed, lzwDecSeed), (.m4First, lzwDecFirst),
   (.m5Step, lzwDecStep), (.m6Return, lzwDecReturn)]

/-- LZW.DEC (R206). -/
def execLzwDec (s : State) : Host.Outcome State Fault Refusal :=
  withInput s fun input => conclude (runPhases (lzwDecPhases input) s)

end Sys2Proof.Machine
end

