-- ==== Sys2Proof/Machine/Dispatch.lean ====
section
/-! DEFINITION. The dispatch of `Exec` (40_command_interface.md R106): one arm per command. -/

namespace Sys2Proof.Machine

def exec (i : Instr) (s : State) : Host.Outcome State Fault Refusal :=
  match i with
  | .iwcSer => Sys2Proof.Machine.execIwcSer s
  | .iwcDes => Sys2Proof.Machine.execIwcDes s
  | .iwcWidth => Sys2Proof.Machine.execIwcWidth s
  | .hufEnc => Sys2Proof.Machine.execHufEnc s
  | .hufDec => Sys2Proof.Machine.execHufDec s
  | .lzwEnc => Sys2Proof.Machine.execLzwEnc s
  | .lzwDec => Sys2Proof.Machine.execLzwDec s

end Sys2Proof.Machine
end

