-- ==== Sys2Proof/Machine/HostInterface.lean ====
section
/-! DEFINITION. The host's four accesses (40_command_interface.md R101 to R104, R113) and reset (70_reset_and_hazards.md R260,
R261). -/

namespace Sys2Proof.Machine

/-- The value `RD n` returns (R101, 10_state.md R21): CMD and the numbers from 7 up read 0. -/
def State.regValue (s : State) (n : Nat) : Word :=
  match n with
  | 0 => s.cfg.setWidth 64
  | 1 => 0#64
  | 2 => s.status.setWidth 64
  | 3 => s.errCode.setWidth 64
  | 4 => s.inLen
  | 5 => s.outLen
  | 6 => s.value
  | _ => 0#64

/-- `RD n` (R101): no side effect on the block; the value goes to the host. -/
def State.readReg (s : State) (n : Nat) : State :=
  { s with readLog := .reg n (s.regValue n) :: s.readLog }

/-- `WR n, v` (R102): the read-only registers and the numbers from 7 up ignore the write; register 1 starts a command. -/
def State.writeReg (s : State) (n : Nat) (v : Word) : State :=
  match n with
  | 0 => { s with cfg := v.extractLsb' 0 3 }
  | 1 => s.start v
  | 4 => { s with inLen := v }
  | 6 => { s with value := v }
  | _ => s

/-- `WRB i, b` (R103): with a finite CAP_IN a write at `i >= CAP_IN` has no effect. -/
def State.writeIn (s : State) (i : Nat) (b : Byte) : State :=
  if beyond s.params.capIn (i + 1) then s else { s with inBuf := Memory.write s.inBuf i b }

/-- `RDB i` (R104): the byte goes to the host. -/
def State.readOut (s : State) (i : Nat) : State :=
  { s with readLog := .byte i (s.outByte i) :: s.readLog }

/-- The effect of an access (R101 to R104). -/
def State.access (s : State) (a : HostAccess) : State :=
  match a with
  | .rd n => s.readReg n
  | .wr n v => s.writeReg n v
  | .wrb i b => s.writeIn i b
  | .rdb i => s.readOut i

/-- The one access that has a meaning while BUSY = 1: `RD 2` (R113). -/
def HostAccess.allowedWhileBusy : HostAccess → Bool
  | .rd n => n == 2
  | .wr _ _ => false
  | .wrb _ _ => false
  | .rdb _ => false

/-- The host's turn: its access, or a refusal where the spec gives the access no meaning (R113). -/
def hostTurn (a : HostAccess) (s : State) : Host.Outcome State Fault Refusal :=
  if s.busy && !a.allowedWhileBusy then .refused .hostAccessWhileBusy else .next (s.access a)

/-- Reset (R260, R261): every piece of the block's state at its reset value, whatever ran. The parameters, the turns to come
and what the host has read are not the block's; the buffers' contents are unspecified anew (log entry 21). -/
def State.toReset (s : State) : State :=
  { State.reset with
    params := s.params
    pending := s.pending
    readLog := s.readLog
    inEpoch := s.inEpoch + 1
    outEpoch := s.outEpoch + 1 }

end Sys2Proof.Machine
end

