-- ==== Sys2Proof/Machine/Step.lean ====
section
/-! DEFINITION. One step of the system (40_command_interface.md R100): the next turn's agent takes its step. -/

namespace Sys2Proof.Machine

/-- The sequencer's turn: `Exec` when BUSY = 1 (R106), the latched value decoded first and IllegalCommand judged before
anything else (R108, 60_exceptions.md R238). When BUSY = 0 the step is not enabled and the turn passes. -/
def sequencerTurn (s : State) : Host.Outcome State Fault Refusal :=
  if s.busy then
    match decodeCommand s.latch with
    | .ok i => exec i s
    | .error _ => .next (s.raiseError .illegalCommand)
  else .next s

/-- The step of one turn. -/
def takeTurn (t : Turn) (s : State) : Host.Outcome State Fault Refusal :=
  match t with
  | .host a => hostTurn a s
  | .sequencer => sequencerTurn s
  | .reset => .next s.toReset

/-- One step: the first pending turn; with none pending the sequencer's (70_reset_and_hazards.md R269: fairness), which in an
idle block waits for the host. -/
def step (s : State) : Host.Outcome State Fault Refusal :=
  match s.pending with
  | [] => sequencerTurn s
  | t :: rest => takeTurn t { s with pending := rest }

/-- `s` with an opcode-table word on CMD: the command is started as a host's write of the word to register 1 starts it (R105),
and the next turn is the sequencer's. Log entry 20. -/
def State.withFetchWord (s : State) (nbits w : Nat) : State :=
  { s.start (tableLatch nbits w) with pending := .sequencer :: s.pending }

end Sys2Proof.Machine
end

