-- ==== Sys2Proof/Safety.lean ====
section
/-! DEFINITION. The terms claims are made in: the invariants of the block's state (10_state.md R43), the properties of trees and
codes (42_huffman_encoder.md R151), what a command leaves alone (40_command_interface.md R111), and the ends of a command. -/

namespace Sys2Proof

/-! ### Parameters -/

/-- No internal table or counter has a limit (00_scope.md R9, the default). -/
def Params.noTableLimit (p : Params) : Prop :=
  p.freqBits = none ∧ p.codeBits = none ∧ p.nodeCap = none ∧ p.dictCap = none

/-- No limit of any kind: the spec's default but for the letter case. -/
def Params.unbounded (p : Params) : Prop := p.capIn = none ∧ p.capOut = none ∧ p.noTableLimit

end Sys2Proof

namespace Sys2Proof.Machine

/-! ### The ends of a command -/

/-- The command ended normally, `Finish(out)` (40_command_interface.md R107), with the flag OVF: DONE alone or DONE and OVF,
ERRCODE 0, the sequencer idle, OUT_LEN the output's length where 64 bits hold it, and OUT holding the output from
index 0. -/
structure EndedWith (t : State) (out : ByteString) (ovf : Bool) : Prop where
  status : t.status = packStatus false true false ovf
  errCode : t.errCode = 0#3
  phase : t.phase = .idle
  outLen : out.length < 2 ^ 64 → t.outLen = BitVec.ofNat 64 out.length
  bytes : ∀ i, i < t.outLen.toNat → some (t.outByte i) = out[i]?
  stored : ∀ i, i < out.length → Memory.read t.outBuf i = out[i]?

/-- The command ended by `raise E` (60_exceptions.md R236): DONE and ERR, the kind in ERRCODE, no output, the sequencer idle. -/
structure FailedWith (t : State) (e : ErrKind) : Prop where
  status : t.status = packStatus false true true false
  errCode : t.errCode = e.code
  phase : t.phase = .idle
  outLen : t.outLen = 0#64

/-! ### Words -/

/-- An upper-case letter digit turned to lower case, any other byte as it is (41_integer_word_codec.md R127). -/
def lowerDigit (c : Byte) : Byte := if 0x41 ≤ c.toNat ∧ c.toNat ≤ 0x46 then BitVec.ofNat 8 (c.toNat + 0x20) else c

/-! ### What a command leaves alone -/

/-- The part of the state no command changes: CFG, IN_LEN and IN, as R111 says. That LATCH stays too is the model's choice (log entry
27), and the other fields are the model's own (log entries 1, 2, 3, 7 and 8). -/
structure SameShell (s t : State) : Prop where
  cfg : t.cfg = s.cfg
  inLen : t.inLen = s.inLen
  inBuf : t.inBuf = s.inBuf
  latch : t.latch = s.latch
  params : t.params = s.params
  pending : t.pending = s.pending
  readLog : t.readLog = s.readLog
  inEpoch : t.inEpoch = s.inEpoch
  outEpoch : t.outEpoch = s.outEpoch

/-- The state without what no host access and no later command can observe (10_state.md R39): IPOS and the working state of R31 to
R38 at their reset values. -/
def State.visible (s : State) : State :=
  { s with ipos := 0, huf := HufState.reset, lzw := LzwState.reset, outAcc := [] }

/-- The commands that read IN (40_command_interface.md R106). -/
def readsInput : Instr → Bool
  | .iwcSer => false
  | .iwcDes => true
  | .iwcWidth => false
  | .hufEnc => true
  | .hufDec => true
  | .lzwEnc => true
  | .lzwDec => true

/-- IN_LEN is at most CAP_IN (10_state.md R26). -/
def State.inputFits (s : State) : Prop := ∀ c ∈ s.params.capIn, s.inLen.toNat ≤ c

/-- An output of `n` bytes is at most CAP_OUT bytes (40_command_interface.md R107). -/
def State.outputFits (s : State) (n : Nat) : Prop := ∀ c ∈ s.params.capOut, n ≤ c

/-! ### Trees and codes -/

/-- A tree is full (10_state.md R33): no `Absent` anywhere. -/
def Tree.full : Tree → Bool
  | .absent => false
  | .leaf _ => true
  | .node l r => l.full && r.full

/-- The symbols on a tree's leaves, in pre-order. -/
def Tree.leaves : Tree → List Byte
  | .absent => []
  | .leaf b => [b]
  | .node l r => l.leaves ++ r.leaves

/-- The symbol of the leaf at the end of a path, `'0'` left and any other byte right; `none` where the path ends elsewhere. -/
def Tree.symbolAt : Tree → ByteString → Option Byte
  | .leaf b, [] => some b
  | .leaf _, _ :: _ => none
  | .absent, _ => none
  | .node _ _, [] => none
  | .node l r, c :: rest => if c = chZero then l.symbolAt rest else r.symbolAt rest

/-- A bit string (00_scope.md R11): only `'0'` and `'1'`. -/
def IsBits (c : ByteString) : Prop := ∀ x ∈ c, x = chZero ∨ x = chOne

/-- Neither of two codes is a prefix of the other. -/
def Incomparable (c d : ByteString) : Prop := ¬c <+: d ∧ ¬d <+: c

/-- A table of entries HUF.DEC can build a tree from: every code a non-empty bit string, the codes prefix-free. The order is
free and a symbol may stand more than once (43_huffman_decoder.md R176, R181). -/
structure CodeEntries (es : List (Byte × ByteString)) : Prop where
  bits : ∀ e ∈ es, IsBits e.2
  nonempty : ∀ e ∈ es, e.2 ≠ []
  prefixFree : es.Pairwise fun a b => Incomparable a.2 b.2

/-- The tree text of a table of entries (30_encoding.md R78). -/
def entriesText (es : List (Byte × ByteString)) : ByteString := es.flatMap fun e => treeEntry e.1 e.2

/-- The distinct symbols of an input, ascending. -/
def symbolsOf (input : ByteString) : List Byte := allBytes.filter fun b => decide (b ∈ input)

/-- `FREQ[b]`. -/
def State.freqOf (s : State) (b : Byte) : Nat := tabGet s.huf.freq b

/-- `CODETAB[b]`. -/
def State.codeOf (s : State) (b : Byte) : Option ByteString := tabGet s.huf.codeTab b

/-! ### What HUF.ENC builds, what HUF.DEC accepts -/

/-- The leaf entry of a symbol (R143). -/
def leafEntry (f : Byte → Nat) (b : Byte) : QEntry := ⟨f b, b.toNat, .leaf b⟩

/-- The merging of a queue into one tree, with `k` merges made before (42_huffman_encoder.md R144): while there is more than one
entry, the two least by R143's order become the left and the right child of an entry with their frequencies' sum and the next
sequence number. The queue is a set of entries (10_state.md R32): only which entries it holds matters. -/
inductive MergesTo : List QEntry → Nat → Tree → Prop where
  | root (e : QEntry) (k : Nat) : MergesTo [e] k e.tree
  | merge (q rest : List QEntry) (e1 e2 : QEntry) (k : Nat) (t : Tree) (hq : q.Perm (e1 :: e2 :: rest))
      (h1 : ∀ x ∈ e2 :: rest, e1.before x = true) (h2 : ∀ x ∈ rest, e2.before x = true)
      (h : MergesTo (⟨e1.freq + e2.freq, 256 + k, .node e1.tree e2.tree⟩ :: rest) (k + 1) t) : MergesTo q k t

/-- What HUF.ENC has built after step 4, for the input: a full tree whose leaves are the input's distinct symbols, each once;
the queue holds its one entry, whose frequency is the input's length; the tree is the merging of the input's leaf entries (R142
to R145, R151 a, f, R155). -/
structure HencTree (input : ByteString) (t : State) : Prop where
  full : t.huf.tree.full = true
  leaves : t.huf.tree.leaves.Perm (symbolsOf input)
  merges : t.huf.merges + 1 = (symbolsOf input).length
  queue : ∃ e, t.huf.pq = [e] ∧ e.tree = t.huf.tree ∧ e.freq = input.length
  freq : ∀ b, t.freqOf b = input.count b
  merged : MergesTo ((symbolsOf input).map (leafEntry fun b => input.count b)) 0 t.huf.tree

/-- What HUF.ENC has built after step 5: CODETAB holds the tree's codes and nothing else (R146, R147). -/
structure HencCodes (input : ByteString) (t : State) : Prop extends HencTree input t where
  code : ∀ e ∈ codesOf t.huf.tree, t.codeOf e.1 = some e.2
  noCode : ∀ b ∉ input, t.codeOf b = none

/-- What HUF.ENC has built after step 6 (R148). -/
structure HencText (input : ByteString) (t : State) : Prop extends HencCodes input t where
  tbuf : t.huf.tbuf = entriesText (codesOf t.huf.tree)
  treeLen : t.huf.treeLen = t.huf.tbuf.length

/-- The bit string of an input under the codes a state holds. -/
def State.bitsOf (s : State) (input : ByteString) : ByteString := input.flatMap fun b => (s.codeOf b).getD []

/-- What HUF.DEC accepts (R170 to R179): `out` is what the accepted non-empty `input` stands for. -/
def FrameOf (s : State) (input out : ByteString) : Prop :=
  ∃ (lenWord : ByteString) (es w : List (Byte × ByteString)),
    lenWord.length = s.sw ∧ des s.wordBits s.mode lenWord = .ok (entriesText es).length ∧ CodeEntries es ∧
      (∀ e ∈ w, e ∈ es) ∧ input = frameOf lenWord (entriesText es) (w.flatMap Prod.snd) ∧ out = w.map Prod.fst

/-- The chunks of an input, all of `sw` bytes (R207, 20_memory.md R58). -/
def ChunksOf (s : State) (input : ByteString) (chunks : List ByteString) : Prop :=
  chunks.flatten = input ∧ ∀ c ∈ chunks, c.length = s.sw

/-! ### LZW codes

The dictionary as the list of its strings, so that a string's code is its index (44_lzw.md R212 a). `lzwCodesOf` and `lzwBytesOf` say
what the two commands compute without the machine: no phase, no working state, no parameters. -/

/-- A dictionary as pairs, from its strings in code order (44_lzw.md R212 a). -/
def dictOf (d : List ByteString) : List (ByteString × Nat) := d.zipIdx

/-- An inverse dictionary as pairs, from its strings in code order (44_lzw.md R209). -/
def invOf (d : List ByteString) : List (Nat × ByteString) := d.zipIdx.map Prod.swap

/-- The seed's strings, code by code (44_lzw.md R200). -/
def seedStrings : List ByteString := (List.range 256).map fun b => [BitVec.ofNat 8 b]

/-- The scan of an input from a dictionary and the phrase read so far (44_lzw.md R203): the dictionary after it, the phrase after
it, and the codes emitted. -/
def lzwParse (d : List ByteString) (current : ByteString) : ByteString → List ByteString × ByteString × List Nat
  | [] => (d, current, [])
  | c :: rest =>
    if current ++ [c] ∈ d then lzwParse d (current ++ [c]) rest
    else
      ((lzwParse (d ++ [current ++ [c]]) [c] rest).1, (lzwParse (d ++ [current ++ [c]]) [c] rest).2.1,
        d.idxOf current :: (lzwParse (d ++ [current ++ [c]]) [c] rest).2.2)

/-- The code of the last phrase (44_lzw.md R204). -/
def lzwFlush (d : List ByteString) (current : ByteString) : List Nat := if current = [] then [] else [d.idxOf current]

/-- The codes LZW.ENC emits for an input (44_lzw.md R201). -/
def lzwCodesOf (input : ByteString) : List Nat :=
  (lzwParse seedStrings [] input).2.2 ++ lzwFlush (lzwParse seedStrings [] input).1 (lzwParse seedStrings [] input).2.1

/-- The entry a code stands for: a string of the dictionary, or the self-reference at the next code (44_lzw.md R209, R210). -/
def lzwEntryAt (d : List ByteString) (current : ByteString) (k : Nat) : Option ByteString :=
  if k < d.length then d[k]? else if k = d.length then some (current ++ current.take 1) else none

/-- The bytes the rest of a list of codes stands for (44_lzw.md R209); `none` where a code is out of range. -/
def lzwRead (d : List ByteString) (current : ByteString) : List Nat → Option ByteString
  | [] => some []
  | k :: rest =>
    match lzwEntryAt d current k with
    | none => none
    | some e => (lzwRead (d ++ [current ++ e.take 1]) e rest).map (e ++ ·)

/-- The bytes a list of codes stands for (44_lzw.md R206, R208); `none` where LZW.DEC must reject it. -/
def lzwBytesOf : List Nat → Option ByteString
  | [] => some []
  | k :: rest => if 255 < k then none else (lzwRead seedStrings [BitVec.ofNat 8 k] rest).map ([BitVec.ofNat 8 k] ++ ·)

/-! ### Invariants -/

/-- What holds of the block's interface in every state a run reaches (10_state.md R24, R25, R43): STATUS is one of its five
values, PHASE tells whether a command runs, ERRCODE and ERR agree, no output is valid after an error, before the first
command or while one runs, OUT_LEN stays inside CAP_OUT, every byte of the output is stored, and the memories are canonical and
inside their capacities. -/
structure State.Inv (s : State) : Prop where
  status : s.status ∈ [0#4, 1#4, 2#4, 6#4, 10#4]
  busyPhase : s.busy = true → s.phase = .dispatch
  idlePhase : s.busy = false → s.phase = .idle
  errCode : s.errCode = 0#3 ↔ s.err = false
  errRange : s.errCode.toNat ≤ 4
  noOutput : s.status ∉ [2#4, 10#4] → s.outLen = 0#64
  outLen : s.outputFits s.outLen.toNat
  outStored : ∀ i, i < s.outLen.toNat → (Memory.read s.outBuf i).isSome
  inWf : Memory.wf s.inBuf
  outWf : Memory.wf s.outBuf
  inWithin : Memory.within s.params.capIn s.inBuf
  outWithin : Memory.within s.params.capOut s.outBuf

/-- DICT is a map in insertion order (R37): its codes are 0, 1, 2, …, the seed stands first, no key stands twice or is empty. -/
structure DictWf (d : List (ByteString × Nat)) : Prop where
  codes : d.map Prod.snd = List.range d.length
  seed : seedDict <+: d
  keysNodup : (d.map Prod.fst).Nodup
  keysNonempty : ∀ e ∈ d, e.1 ≠ []

/-- DICT is prefix-closed (44_lzw.md R212 b): dropping a key's last byte gives a key, or the empty string. -/
def DictPrefixClosed (d : List (ByteString × Nat)) : Prop :=
  ∀ e ∈ d, e.1.dropLast ≠ [] → e.1.dropLast ∈ d.map Prod.fst

/-- INV is a map in insertion order (R38): its codes are 0, 1, 2, …, the seed stands first, no entry is empty. -/
structure InvWf (m : List (Nat × ByteString)) : Prop where
  codes : m.map Prod.fst = List.range m.length
  seed : seedInv <+: m
  entriesNonempty : ∀ e ∈ m, e.2 ≠ []

/-- Both dictionaries of the LZW unit are maps as R37 and R38 give them. -/
structure State.DictInv (s : State) : Prop where
  dict : DictWf s.lzw.dict
  dictPrefixClosed : DictPrefixClosed s.lzw.dict
  inv : InvWf s.lzw.inv

end Sys2Proof.Machine
end

