-- ==== Sys2Proof/Certificates/Slice0/Obligations.lean ====
section
/-! DEFINITION. The statements for the provers. Each docstring names the rule of spec/ the statement formalises. Hypotheses that recur:
`s.inputFits` (10_state.md R26: IN_LEN is at most CAP_IN, always so by default), `s.params.noTableLimit` (00_scope.md R9: the
internal tables are unbounded, the default), `s.outputFits n` (20_memory.md R61: `n` is at most CAP_OUT).
`SameShell s t` says that CFG, IN_LEN and IN stay (40_command_interface.md R111); its clauses that LATCH stays (log entry 27, DESIGN
CHOICE) and that the model's own fields stay (log entries 1, 2, 3, 7 and 8) are the model's choice and no rule of the spec. -/

section
open Sys2Proof Sys2Proof.Machine

/-! ### Encoding -/

/-- 30_encoding.md R71, the opcode map: the seven words, and every other 8-bit word is illegal. -/
def Obligations.OpcodeMapDecodes : Prop :=
  decodeTableWord 8 0x01 = some .iwcSer ∧ decodeTableWord 8 0x02 = some .iwcDes ∧ decodeTableWord 8 0x03 = some .iwcWidth ∧
    decodeTableWord 8 0x04 = some .hufEnc ∧ decodeTableWord 8 0x05 = some .hufDec ∧ decodeTableWord 8 0x06 = some .lzwEnc ∧
    decodeTableWord 8 0x07 = some .lzwDec ∧ ∀ w < 256, w = 0 ∨ 8 ≤ w → decodeTableWord 8 w = none

/-- 30_encoding.md R70, R71: of the `2 ^ 64` values a host can write to CMD, exactly the encoder's seven decode, each to its
command. -/
def Obligations.DecodeInvertsEncodeOnAllWords : Prop :=
  ∀ (v : Word) (i : Instr), decodeCommand v = .ok i ↔ i.wellFormed = true ∧ v = encodeWrite i

/-- 30_encoding.md R90, the row for CMD: each reason for which a value is illegal, by name, and no other value is. -/
def Obligations.IllegalWordsRejectedByName : Prop :=
  ∀ v : Word,
    (256 ≤ v.toNat → decodeCommand v = .error .wideWrite) ∧
    (v.toNat < 256 → 8 ≤ v.toNat → decodeCommand v = .error .reservedBits) ∧
    (v.toNat = 0 → decodeCommand v = .error .opZero) ∧
    (1 ≤ v.toNat → v.toNat ≤ 7 → CmdWord.wellFormed v = true ∧ ∃ i, decodeCommand v = .ok i)

/-! ### Steps -/

/-- 40_command_interface.md R106: with BUSY = 1 and a legal command latched the sequencer's step is `exec` of that command, at the
state itself or, where the turn was pending, with the turn taken; `withFetchWord` makes the very next step run a word; and with
BUSY = 0 the sequencer's step is not enabled and its turn passes. -/
def Obligations.StepRunsLatchedCommand : Prop :=
  (∀ (s : State) (i : Instr), s.busy = true → decodeCommand s.latch = .ok i →
    (s.pending = [] → step s = exec i s) ∧
    ∀ rest, s.pending = .sequencer :: rest → step s = exec i { s with pending := rest }) ∧
  (∀ (s : State) (w : Nat) (i : Instr), decodeTableWord 8 w = some i →
    step (s.withFetchWord 8 w) = exec i (s.start (tableLatch 8 w))) ∧
  ∀ s : State, s.busy = false →
    (s.pending = [] → step s = .next s) ∧ ∀ rest, s.pending = .sequencer :: rest → step s = .next { s with pending := rest }

/-- 40_command_interface.md R100: the other turns are the host's accesses and reset. -/
def Obligations.StepTakesHostTurnOrReset : Prop :=
  ∀ (s : State) (rest : List Turn),
    (∀ a, s.pending = .host a :: rest → step s = hostTurn a { s with pending := rest }) ∧
    (s.pending = .reset :: rest → step s = .next { s with pending := rest }.toReset)

/-- 40_command_interface.md R108: a value outside 0x01 to 0x07 starts like any command and ends at once with IllegalCommand, whatever
IN_LEN and the capacities are. -/
def Obligations.IllegalCommandReported : Prop :=
  ∀ (s : State) (v : Word), s.busy = false → v.toNat = 0 ∨ 8 ≤ v.toNat →
    hostTurn (.wr 1 v) s = .next (s.start v) ∧
    ∃ t, sequencerTurn (s.start v) = .next t ∧ t.status = 0b0110#4 ∧ t.errCode = 4#3 ∧ t.outLen = 0#64 ∧
      t.value = s.value ∧ t.inBuf = s.inBuf ∧ t.inLen = s.inLen ∧ t.cfg = s.cfg ∧
      t.huf = s.huf ∧ t.lzw = s.lzw ∧ t.outAcc = s.outAcc

/-- 40_command_interface.md R105: what the start of a command writes and what it does not touch. The command-local flag `ovf` is no
state of the model (log entry 10), so the rule is not claimed whole. -/
def Obligations.CommandStartWrites : Prop :=
  ∀ (s : State) (v : Word), s.busy = false →
    ∃ t, hostTurn (.wr 1 v) s = .next t ∧ t.latch = v ∧ t.busy = true ∧ t.done = false ∧ t.err = false ∧ t.ovf = false ∧
      t.errCode = 0#3 ∧ t.outLen = 0#64 ∧ t.phase = .dispatch ∧
      t.value = s.value ∧ t.cfg = s.cfg ∧ t.inBuf = s.inBuf ∧ t.inLen = s.inLen ∧ t.outBuf = s.outBuf ∧
      t.huf = s.huf ∧ t.lzw = s.lzw ∧ t.outAcc = s.outAcc ∧ t.params = s.params

/-! ### Host accesses -/

/-- 40_command_interface.md R102: `WR n, v`, register by register; the read-only registers and the numbers from 7 up ignore the
write; a value with a bit above bit 7 starts an illegal command. -/
def Obligations.RegisterWriteEffects : Prop :=
  ∀ (s : State) (n : Nat) (v : Word), s.busy = false →
    ∃ t, hostTurn (.wr n v) s = .next t ∧
      (n = 0 → t = { s with cfg := v.extractLsb' 0 3 }) ∧
      (n = 1 → t = s.start v ∧ t.latch = v ∧ (256 ≤ v.toNat → ∃ r, decodeCommand t.latch = .error r)) ∧
      (n = 4 → t = { s with inLen := v }) ∧
      (n = 6 → t = { s with value := v }) ∧
      (n ≠ 0 → n ≠ 1 → n ≠ 4 → n ≠ 6 → t = s)

/-- 40_command_interface.md R101: `RD n` returns the register zero-extended, 0 for CMD and from 7 up, and changes nothing but what
the host has read; while BUSY = 1 only `RD 2` is allowed. -/
def Obligations.RegisterReadValues : Prop :=
  (∀ (s : State) (n : Nat), s.busy = false ∨ n = 2 →
    ∃ v, hostTurn (.rd n) s = .next { s with readLog := .reg n v :: s.readLog } ∧
      (n = 0 → v.toNat = s.cfg.toNat) ∧ (n = 1 → v = 0#64) ∧ (n = 2 → v.toNat = s.status.toNat) ∧
      (n = 3 → v.toNat = s.errCode.toNat) ∧ (n = 4 → v = s.inLen) ∧ (n = 5 → v = s.outLen) ∧ (n = 6 → v = s.value) ∧
      (7 ≤ n → v = 0#64)) ∧
  (∀ (s : State) (n : Nat), s.busy = true → n ≠ 2 → hostTurn (.rd n) s = .refused .hostAccessWhileBusy) ∧
  hostTurn (.rd 0) State.reset = .next { State.reset with readLog := [.reg 0 5#64] }

/-- 40_command_interface.md R103: `WRB i, b` writes that byte of IN and nothing else; at or beyond a finite CAP_IN it has no effect. -/
def Obligations.InputByteWriteEffect : Prop :=
  ∀ (s : State) (i : Nat) (b : Byte), s.busy = false →
    ∃ t, hostTurn (.wrb i b) s = .next t ∧ t = { s with inBuf := t.inBuf } ∧
      ((∀ c ∈ s.params.capIn, i < c) → t.inByte i = b ∧ ∀ j, j ≠ i → t.inByte j = s.inByte j) ∧
      ((∃ c ∈ s.params.capIn, c ≤ i) → t = s)

/-- 40_command_interface.md R104: `RDB i` returns byte `i` of the last output, some byte beyond it, and changes nothing but what the
host has read. -/
def Obligations.OutputByteReadValue : Prop :=
  ∀ (s : State) (i : Nat), s.busy = false →
    ∃ b, hostTurn (.rdb i) s = .next { s with readLog := .byte i b :: s.readLog } ∧
      (∀ c, i < s.outLen.toNat → Memory.read s.outBuf i = some c → b = c) ∧
      ∀ out ovf, EndedWith s out ovf → i < s.outLen.toNat → some b = out[i]?

/-- 40_command_interface.md R113: while BUSY = 1 every access but `RD 2` is refused, and `RD 2` returns BUSY = 1 and the other flags 0.
`s.Inv` is the interface invariant (statements InterfaceInvariantKept, InvariantsAtReset). -/
def Obligations.BusyAccessesRefused : Prop :=
  ∀ s : State, s.Inv → s.busy = true →
    (∀ a, a ≠ .rd 2 → hostTurn a s = .refused .hostAccessWhileBusy) ∧
    hostTurn (.rd 2) s = .next { s with readLog := .reg 2 1#64 :: s.readLog }

/-! ### Reset -/

/-- 10_state.md R42: every piece of state right after reset. -/
def Obligations.ResetStateValues : Prop :=
  State.reset.cfg = 5#3 ∧ State.reset.status = 0#4 ∧ State.reset.errCode = 0#3 ∧ State.reset.inLen = 0#64 ∧
    State.reset.outLen = 0#64 ∧ State.reset.value = 0#64 ∧ State.reset.phase = .idle ∧ State.reset.ipos = 0 ∧
    State.reset.latch = 0#64 ∧ (∀ b, State.reset.freqOf b = 0) ∧ State.reset.huf.pq = [] ∧ State.reset.huf.merges = 0 ∧
    State.reset.huf.tree = .absent ∧ (∀ b, State.reset.codeOf b = none) ∧ State.reset.huf.tbuf = [] ∧
    State.reset.huf.treeLen = 0 ∧ State.reset.huf.bits = [] ∧ State.reset.outAcc = [] ∧
    State.reset.huf.nodePtr = ⟨State.reset.huf.tree, true⟩ ∧
    (∀ b : Byte, State.reset.lzw.dict.lookup [b] = some b.toNat) ∧ State.reset.lzw.dict.length = 256 ∧
    (∀ b : Byte, State.reset.lzw.inv.lookup b.toNat = some [b]) ∧ State.reset.lzw.inv.length = 256 ∧
    State.reset.lzw.nextCode = 256 ∧ State.reset.lzw.current = [] ∧ State.reset.lzw.codes = [] ∧
    State.reset.input = [] ∧ State.reset.output = []

/-- 70_reset_and_hazards.md R260, R261: reset, also while a command runs, puts every piece of the block's state at its reset value,
with no valid byte in either buffer. That the turns to come, what the host has read and the parameters stay (the last line) is the
model's choice (log entry 21, fields of log entries 1 to 3), which R260 and R261 do not say. -/
def Obligations.ResetFromAnyState : Prop :=
  ∀ (s : State) (rest : List Turn), s.pending = .reset :: rest →
    ∃ t, step s = .next t ∧ t.cfg = 5#3 ∧ t.status = 0#4 ∧ t.errCode = 0#3 ∧ t.inLen = 0#64 ∧ t.outLen = 0#64 ∧
      t.value = 0#64 ∧ t.phase = .idle ∧ t.ipos = State.reset.ipos ∧ t.latch = State.reset.latch ∧
      t.huf = State.reset.huf ∧ t.lzw = State.reset.lzw ∧ t.outAcc = State.reset.outAcc ∧ t.input = [] ∧ t.output = [] ∧
      (∀ i, Memory.read t.inBuf i = none ∧ Memory.read t.outBuf i = none) ∧
      t.pending = rest ∧ t.readLog = s.readLog ∧ t.params = s.params

/-! ### The two ends of a command -/

/-- 40_command_interface.md R107: `Finish(out)`, its capacity check, its writes, and nothing else. The clauses of `SameShell` on
LATCH and on the model's own fields are the model's choice (log entry 27, log entries 1 to 3, 7 and 8). -/
def Obligations.FinishWritesOutput : Prop :=
  ∀ (s : State) (out : ByteString) (ovf : Bool),
    (s.outputFits out.length →
      EndedWith (s.finish out ovf) out ovf ∧ (s.finish out ovf).done = true ∧ (s.finish out ovf).busy = false ∧
        (s.finish out ovf).err = false ∧ (s.finish out ovf).ovf = ovf ∧
        (∀ i, out.length ≤ i → Memory.read (s.finish out ovf).outBuf i = Memory.read s.outBuf i)) ∧
    (¬s.outputFits out.length → FailedWith (s.finish out ovf) .capacityExceeded ∧ (s.finish out ovf).outBuf = s.outBuf) ∧
    SameShell s (s.finish out ovf) ∧ (s.finish out ovf).value = s.value ∧ (s.finish out ovf).huf = s.huf ∧
    (s.finish out ovf).lzw = s.lzw ∧ (s.finish out ovf).outAcc = s.outAcc ∧ (s.finish out ovf).ipos = s.ipos

/-- 60_exceptions.md R236: the error exit writes the report and nothing more. -/
def Obligations.ErrorExitWritesReport : Prop :=
  ∀ (s : State) (e : ErrKind),
    FailedWith (s.raiseError e) e ∧ (s.raiseError e).done = true ∧ (s.raiseError e).busy = false ∧
      (s.raiseError e).err = true ∧ (s.raiseError e).ovf = false ∧
      s.raiseError e =
        { s with
          outLen := (s.raiseError e).outLen
          status := (s.raiseError e).status
          errCode := (s.raiseError e).errCode
          phase := (s.raiseError e).phase }

/-! ### IWC -/

/-- 30_encoding.md R72 and 41_integer_word_codec.md R120: the eight configurations and their serialized widths. -/
def Obligations.SerializedWidthTable : Prop :=
  (modeOf 0#3 = .raw ∧ widthOf 0#3 = 8 ∧ serWidth (widthOf 0#3) (modeOf 0#3) = 1) ∧
    (modeOf 1#3 = .hex ∧ widthOf 1#3 = 8 ∧ serWidth (widthOf 1#3) (modeOf 1#3) = 2) ∧
    (modeOf 2#3 = .raw ∧ widthOf 2#3 = 16 ∧ serWidth (widthOf 2#3) (modeOf 2#3) = 2) ∧
    (modeOf 3#3 = .hex ∧ widthOf 3#3 = 16 ∧ serWidth (widthOf 3#3) (modeOf 3#3) = 4) ∧
    (modeOf 4#3 = .raw ∧ widthOf 4#3 = 32 ∧ serWidth (widthOf 4#3) (modeOf 4#3) = 4) ∧
    (modeOf 5#3 = .hex ∧ widthOf 5#3 = 32 ∧ serWidth (widthOf 5#3) (modeOf 5#3) = 8) ∧
    (modeOf 6#3 = .raw ∧ widthOf 6#3 = 64 ∧ serWidth (widthOf 6#3) (modeOf 6#3) = 8) ∧
    (modeOf 7#3 = .hex ∧ widthOf 7#3 = 64 ∧ serWidth (widthOf 7#3) (modeOf 7#3) = 16)

/-- 30_encoding.md R75, R76: the digits are `0123456789abcdef`, upper case where the parameter HEX_UPPER says so, and `HexVal` reads
exactly the digits, in both cases of letter. -/
def Obligations.HexDigitAlphabet : Prop :=
  ((List.range 16).map (hexDigit false) =
    [0x30#8, 0x31#8, 0x32#8, 0x33#8, 0x34#8, 0x35#8, 0x36#8, 0x37#8, 0x38#8, 0x39#8, 0x61#8, 0x62#8, 0x63#8, 0x64#8, 0x65#8, 0x66#8]) ∧
  ((List.range 16).map (hexDigit true) =
    [0x30#8, 0x31#8, 0x32#8, 0x33#8, 0x34#8, 0x35#8, 0x36#8, 0x37#8, 0x38#8, 0x39#8, 0x41#8, 0x42#8, 0x43#8, 0x44#8, 0x45#8, 0x46#8]) ∧
  ∀ (c : Byte) (n : Nat), hexVal c = some n ↔ n < 16 ∧ (c = hexDigit false n ∨ c = hexDigit true n)

/-- 41_integer_word_codec.md R121, 30_encoding.md R73, R74: `Ser` writes `SW(W, mode)` bytes, most significant first. -/
def Obligations.SerializedDigits : Prop :=
  ∀ (upper : Bool) (w : Nat) (m : Mode) (v : Nat), w = 8 ∨ w = 16 ∨ w = 32 ∨ w = 64 → v < 2 ^ w →
    (ser upper w m v).length = serWidth w m ∧
      ∀ i, i < serWidth w m →
        (ser upper w m v)[i]? =
          some (match m with
            | .raw => BitVec.ofNat 8 (v / 2 ^ (8 * (w / 8 - 1 - i)) % 256)
            | .hex => hexDigit upper (v / 2 ^ (4 * (w / 4 - 1 - i)) % 16))

/-- 41_integer_word_codec.md R122: `Des`, its checks in order and its value; the result is below `2 ^ W`. -/
def Obligations.DeserializedValue : Prop :=
  ∀ (w : Nat) (m : Mode) (s : ByteString), w = 8 ∨ w = 16 ∨ w = 32 ∨ w = 64 →
    (s.length ≠ serWidth w m → des w m s = .error .lengthMismatch) ∧
    (s.length = serWidth w m → m = .raw →
      des w m s = .ok ((List.range (w / 8)).map fun i => (s.getD i 0#8).toNat * 2 ^ (8 * (w / 8 - 1 - i))).sum) ∧
    (s.length = serWidth w m → m = .hex → (∃ c ∈ s, hexVal c = none) → des w m s = .error .malformedInput) ∧
    (s.length = serWidth w m → m = .hex → (∀ c ∈ s, (hexVal c).isSome) →
      des w m s = .ok ((List.range (w / 4)).map fun i => (hexVal (s.getD i 0#8)).getD 0 * 16 ^ (w / 4 - 1 - i)).sum) ∧
    ∀ v, des w m s = .ok v → v < 2 ^ w

/-- 41_integer_word_codec.md R127, the laws of the serialized word. -/
def Obligations.WordSerializerLaws : Prop :=
  ∀ w : Nat, w = 8 ∨ w = 16 ∨ w = 32 ∨ w = 64 → ∀ m : Mode,
    (∀ v, v < 2 ^ w → (ser false w m v).length = serWidth w m ∧ des w m (ser false w m v) = .ok v) ∧
    (∀ s v, des w m s = .ok v →
      (m = .raw → ser false w m v = s) ∧ (m = .hex → ser false w m v = s.map lowerDigit)) ∧
    ∀ v u, v < 2 ^ w → u < 2 ^ w → ser false w m v = ser false w m u → v = u

/-- 41_integer_word_codec.md R124: IWC.SER completes with the serialized low `W` bits of VALUE and tells by OVF whether high bits were
lost; at most the capacity stops it; the all-zero and the all-one word. The letter case is the parameter HEX_UPPER's. The clauses of
`SameShell` on LATCH and on the model's own fields are the model's choice (log entry 27, log entries 1 to 3, 7 and 8). -/
def Obligations.IwcSerResult : Prop :=
  (∀ s : State, ∃ t, exec .iwcSer s = .next t ∧
    (s.outputFits s.sw →
      EndedWith t (ser s.params.hexUpper s.wordBits s.mode (s.value.toNat % 2 ^ s.wordBits))
        (decide (2 ^ s.wordBits ≤ s.value.toNat)) ∧ t.outLen.toNat = s.sw) ∧
    (¬s.outputFits s.sw → FailedWith t .capacityExceeded) ∧
    SameShell s t ∧ t.value = s.value ∧ t.huf = s.huf ∧ t.lzw = s.lzw ∧ t.outAcc = s.outAcc) ∧
  ∀ (upper : Bool) (w : Nat), w = 8 ∨ w = 16 ∨ w = 32 ∨ w = 64 →
    ser upper w .raw 0 = List.replicate (w / 8) 0x00#8 ∧ ser upper w .hex 0 = List.replicate (w / 4) chZero ∧
      ser upper w .raw (2 ^ w - 1) = List.replicate (w / 8) 0xFF#8 ∧
      ser upper w .hex (2 ^ w - 1) = List.replicate (w / 4) (if upper then 0x46#8 else 0x66#8)

/-- 41_integer_word_codec.md R125: IWC.DES completes with the value in VALUE and no output, or reports LengthMismatch (the empty
input included) or MalformedInput, VALUE unchanged. The clauses of
`SameShell` on LATCH and on the model's own fields are the model's choice (log entry 27, log entries 1 to 3, 7 and 8). -/
def Obligations.IwcDesResult : Prop :=
  ∀ s : State, s.inputFits →
    ∃ t, exec .iwcDes s = .next t ∧
      (s.inLen.toNat = s.sw → (s.mode = .raw ∨ ∀ c ∈ s.input, (hexVal c).isSome) →
        EndedWith t [] false ∧ t.outLen = 0#64 ∧ des s.wordBits s.mode s.input = .ok t.value.toNat) ∧
      (s.inLen.toNat ≠ s.sw → FailedWith t .lengthMismatch ∧ t.value = s.value) ∧
      (s.inLen.toNat = s.sw → s.mode = .hex → (∃ c ∈ s.input, hexVal c = none) →
        FailedWith t .malformedInput ∧ t.value = s.value) ∧
      SameShell s t ∧ t.huf = s.huf ∧ t.lzw = s.lzw ∧ t.outAcc = s.outAcc

/-- 41_integer_word_codec.md R126: IWC.WIDTH completes with the serialized width in VALUE, from any state. The clauses of
`SameShell` on LATCH and on the model's own fields are the model's choice (log entry 27, log entries 1 to 3, 7 and 8). -/
def Obligations.IwcWidthResult : Prop :=
  ∀ s : State, ∃ t, exec .iwcWidth s = .next t ∧ EndedWith t [] false ∧ t.outLen = 0#64 ∧ t.value.toNat = serWidth s.wordBits s.mode ∧
    (s.cfg = 5#3 → t.value = 8#64) ∧ (s.cfg = 4#3 → t.value = 4#64) ∧
    SameShell s t ∧ t.huf = s.huf ∧ t.lzw = s.lzw ∧ t.outAcc = s.outAcc

/-! ### Empty input -/

/-- 42_huffman_encoder.md R141 and 43_huffman_decoder.md R171 (also 44_lzw.md R202, R207): the codec commands map the empty input to
the empty output, and touch no working state. The clauses of
`SameShell` on LATCH and on the model's own fields are the model's choice (log entry 27, log entries 1 to 3, 7 and 8). That the
bytes of OUT stay, which the rules leave unspecified beyond OUT_LEN = 0, is log entry 8. -/
def Obligations.EmptyInputGivesEmptyOutput : Prop :=
  ∀ (i : Instr) (s : State), i = .hufEnc ∨ i = .hufDec ∨ i = .lzwEnc ∨ i = .lzwDec → s.inLen = 0#64 →
    ∃ t, exec i s = .next t ∧ EndedWith t [] false ∧ t.outLen = 0#64 ∧ t.errCode = 0#3 ∧ t.status = 0b0010#4 ∧
      SameShell s t ∧ t.value = s.value ∧ t.huf = s.huf ∧ t.lzw = s.lzw ∧ t.outAcc = s.outAcc ∧ t.outBuf = s.outBuf

/-! ### HUF.ENC -/

/-- 42_huffman_encoder.md R149, R140: HUF.ENC completes on every non-empty input, with the frame of the tree text and of the codes of
the input's symbols in order, each of which has a code; OVF tells whether the tree length was truncated. -/
def Obligations.HufEncWritesFrame : Prop :=
  ∀ s : State, s.inputFits → s.params.noTableLimit → s.inLen ≠ 0#64 →
    ∃ t out, exec .hufEnc s = .next t ∧
      out = s.serWord t.huf.treeLen ++ [chNewline] ++ t.huf.tbuf ++ [chNewline] ++ t.bitsOf s.input ++ [chNewline] ∧
      (∀ b ∈ s.input, (t.codeOf b).isSome) ∧
      (s.outputFits out.length → EndedWith t out (decide (2 ^ s.wordBits ≤ t.huf.treeLen))) ∧
      (¬s.outputFits out.length → FailedWith t .capacityExceeded)

/-- 42_huffman_encoder.md R142: the counts. -/
def Obligations.HufEncCountsSymbols : Prop :=
  ∀ s t : State, s.inputFits → s.params.noTableLimit → s.inLen ≠ 0#64 → exec .hufEnc s = .next t →
    (∀ b, t.freqOf b = s.input.count b) ∧ (allBytes.map t.freqOf).sum = s.inLen.toNat ∧
      (symbolsOf s.input) = allBytes.filter (fun b => decide (0 < t.freqOf b)) ∧
      1 ≤ (symbolsOf s.input).length ∧ (symbolsOf s.input).length ≤ min 256 s.inLen.toNat

/-- 42_huffman_encoder.md R144 (with R143's order): the tree is the merging of the leaf entries, always the two least, in `n - 1`
merges; the root's frequency is the input's length. -/
def Obligations.HufEncMergesTwoLeast : Prop :=
  ∀ s t : State, s.inputFits → s.params.noTableLimit → s.inLen ≠ 0#64 → exec .hufEnc s = .next t →
    MergesTo ((symbolsOf s.input).map (leafEntry fun b => s.input.count b)) 0 t.huf.tree ∧
      t.huf.merges = (symbolsOf s.input).length - 1 ∧
      (∃ e, t.huf.pq = [e] ∧ e.tree = t.huf.tree ∧ e.freq = s.inLen.toNat) ∧
      ∀ b, symbolsOf s.input = [b] → t.huf.tree = .leaf b

/-- 42_huffman_encoder.md R146: for two symbols or more the code of a symbol is the path from the root to its leaf; a symbol that does
not occur has none. -/
def Obligations.HufEncCodesArePaths : Prop :=
  ∀ s t : State, s.inputFits → s.params.noTableLimit → s.inLen ≠ 0#64 → exec .hufEnc s = .next t →
    (2 ≤ (symbolsOf s.input).length →
      ∀ b c, t.codeOf b = some c ↔ IsBits c ∧ t.huf.tree.symbolAt c = some b) ∧
    ∀ b, b ∉ s.input → t.codeOf b = none

/-- 42_huffman_encoder.md R147: an input of one distinct symbol gives that symbol the code `"0"`, and TREE stays the single leaf; no
code is ever empty. -/
def Obligations.HufEncSingleSymbolCode : Prop :=
  ∀ s t : State, s.inputFits → s.params.noTableLimit → s.inLen ≠ 0#64 → exec .hufEnc s = .next t →
    (∀ b, (∀ x ∈ s.input, x = b) → t.huf.tree = .leaf b ∧ t.codeOf b = some [chZero]) ∧
      (∀ b, t.huf.tree = .leaf b → t.codeOf b = some [chZero]) ∧ ∀ x c, t.codeOf x = some c → c ≠ []

/-- 42_huffman_encoder.md R148 and 30_encoding.md R79: the tree text is one entry `[s] ++ c ++ [' ']` per leaf, the leaves in pre-order,
the codes ascending. -/
def Obligations.HufEncTreeText : Prop :=
  ∀ s t : State, s.inputFits → s.params.noTableLimit → s.inLen ≠ 0#64 → exec .hufEnc s = .next t →
    t.huf.tbuf = (t.huf.tree.leaves.flatMap fun b => [b] ++ (t.codeOf b).getD [] ++ [chSpace]) ∧
      t.huf.treeLen = t.huf.tbuf.length ∧ t.huf.tree.leaves.Pairwise (fun a b => (t.codeOf a).getD [] < (t.codeOf b).getD []) ∧
      ∀ b, symbolsOf s.input = [b] → t.huf.tbuf = [b, chZero, chSpace]

/-- 42_huffman_encoder.md R151: the properties of the tree and the codes. -/
def Obligations.HufEncTreeAndCodes : Prop :=
  ∀ s t : State, s.inputFits → s.params.noTableLimit → s.inLen ≠ 0#64 → exec .hufEnc s = .next t →
    t.huf.tree.full = true ∧ t.huf.tree.leaves.Perm (symbolsOf s.input) ∧ t.huf.tree.leaves.Nodup ∧
      (∀ b c, t.codeOf b = some c → c ≠ []) ∧
      (∀ a b c d, a ≠ b → t.codeOf a = some c → t.codeOf b = some d → ¬c <+: d) ∧
      (2 ≤ (symbolsOf s.input).length →
        ((symbolsOf s.input).map fun b => (1 / 2 : ℚ) ^ ((t.codeOf b).getD []).length).sum = 1) ∧
      (∀ b c, (symbolsOf s.input).length = 1 → t.codeOf b = some c → c.length = 1) ∧
      (∀ b c, 2 ≤ (symbolsOf s.input).length → t.codeOf b = some c →
        c.length ≤ (symbolsOf s.input).length - 1 ∧ c.length ≤ 255) ∧
      MergesTo ((symbolsOf s.input).map (leafEntry fun b => s.input.count b)) 0 t.huf.tree

/-- 42_huffman_encoder.md R150 and 30_encoding.md R82: the sizes of a frame; the tree length fits the word for every `W >= 16`. -/
def Obligations.HufEncSizes : Prop :=
  ∀ s t : State, s.inputFits → s.params.noTableLimit → s.inLen ≠ 0#64 → exec .hufEnc s = .next t →
    t.huf.treeLen = 2 * (symbolsOf s.input).length + ((symbolsOf s.input).map fun b => ((t.codeOf b).getD []).length).sum ∧
      (t.bitsOf s.input).length = ((symbolsOf s.input).map fun b => s.input.count b * ((t.codeOf b).getD []).length).sum ∧
      (∃ out : ByteString, out.length = s.sw + t.huf.treeLen + (t.bitsOf s.input).length + 3 ∧
        (s.outputFits out.length → EndedWith t out (s.serOverflows t.huf.treeLen)) ∧
        (s.outputFits out.length → out.length < 2 ^ 64 → t.outLen.toNat = out.length)) ∧
      (2 ≤ (symbolsOf s.input).length →
        2 * ((symbolsOf s.input).map fun b => ((t.codeOf b).getD []).length).sum
          ≤ ((symbolsOf s.input).length - 1) * ((symbolsOf s.input).length + 2)) ∧
      t.huf.treeLen ≤ 33407 ∧ (16 ≤ s.wordBits → s.serOverflows t.huf.treeLen = false) ∧
      (s.serOverflows t.huf.treeLen = true → s.wordBits = 8 ∧ 256 ≤ t.huf.treeLen) ∧
      (t.bitsOf s.input).length ≤ 255 * s.inLen.toNat ∧
      ((symbolsOf s.input).length = 1 → t.huf.treeLen = 3 ∧ (t.bitsOf s.input).length = s.inLen.toNat)

/-! ### HUF.DEC -/

/-- 43_huffman_decoder.md R170, R174 to R178, R181: HUF.DEC completes on every frame of a prefix-free table of entries, in any order
and full or not, and of a concatenation of its codes, with the symbols of those codes; its working state is then the slices, the
tree with exactly the entries on its leaves, and the output (R176, R184). -/
def Obligations.HufDecDecodesFrames : Prop :=
  ∀ (s : State) (lenWord : ByteString) (es w : List (Byte × ByteString)),
    s.inputFits → s.params.noTableLimit → s.outputFits w.length →
    lenWord.length = s.sw → des s.wordBits s.mode lenWord = .ok (entriesText es).length →
    CodeEntries es → (∀ e ∈ w, e ∈ es) →
    s.input = lenWord ++ [chNewline] ++ entriesText es ++ [chNewline] ++ w.flatMap Prod.snd ++ [chNewline] →
      ∃ t, exec .hufDec s = .next t ∧ EndedWith t (w.map Prod.fst) false ∧
        t.huf.treeLen = (entriesText es).length ∧ t.huf.tbuf = entriesText es ∧ t.huf.bits = w.flatMap Prod.snd ∧
        t.outAcc = w.map Prod.fst ∧ (∀ b, t.huf.tree ≠ .leaf b) ∧
        ∀ c b, IsBits c → (t.huf.tree.symbolAt c = some b ↔ (b, c) ∈ es)

/-- 43_huffman_decoder.md R172 to R178 and 60_exceptions.md R232, every cause of HUF.DEC at once: on a non-empty input HUF.DEC always
completes, normally exactly where the input is a frame, with what the frame stands for, and by MalformedInput everywhere
else. -/
def Obligations.HufDecAcceptsExactlyFrames : Prop :=
  ∀ s : State, s.inputFits → s.params.noTableLimit → s.inLen ≠ 0#64 →
    ∃ t, exec .hufDec s = .next t ∧
      ((∃ out, FrameOf s s.input out ∧ (s.outputFits out.length → EndedWith t out false) ∧
          (¬s.outputFits out.length → FailedWith t .capacityExceeded)) ∨
        ((¬∃ out, FrameOf s s.input out) ∧ FailedWith t .malformedInput))

/-- 43_huffman_decoder.md R172, R173: each framing check; all offsets are in range exactly when `L >= sw + TREELEN + 3`. -/
def Obligations.HufDecRejectsBadFraming : Prop :=
  ∀ s : State, s.inputFits → s.inLen ≠ 0#64 →
    (s.inLen.toNat < s.sw + 1 ∨ (∃ e, des s.wordBits s.mode (s.input.take s.sw) = .error e) ∨
      s.input[s.sw]? ≠ some chNewline ∨
      (∃ n, des s.wordBits s.mode (s.input.take s.sw) = .ok n ∧
        (s.inLen.toNat < s.sw + n + 3 ∨ s.input[s.sw + 1 + n]? ≠ some chNewline)) ∨
      s.input[s.inLen.toNat - 1]? ≠ some chNewline) →
    ∃ t, exec .hufDec s = .next t ∧ FailedWith t .malformedInput

/-- 43_huffman_decoder.md R174, R175: in a frame whose tree text is some entries and then more text, that text is rejected where it has
no terminating space, an empty code, a byte that is no bit before the space, or a code that passes through or ends on a node
already placed. -/
def Obligations.HufDecRejectsBadTreeText : Prop :=
  ∀ (s : State) (lenWord bits : ByteString) (es : List (Byte × ByteString)) (b : Byte) (more : ByteString),
    s.inputFits → s.params.noTableLimit → lenWord.length = s.sw →
    des s.wordBits s.mode lenWord = .ok (entriesText es ++ b :: more).length → CodeEntries es →
    s.input = frameOf lenWord (entriesText es ++ b :: more) bits →
    (chSpace ∉ more ∨ (∃ rest, more = chSpace :: rest) ∨
      (∃ c x rest, IsBits c ∧ x ≠ chZero ∧ x ≠ chOne ∧ x ≠ chSpace ∧ more = c ++ x :: rest) ∨
      (∃ c rest, IsBits c ∧ more = c ++ chSpace :: rest ∧ ∃ e ∈ es, ¬Incomparable e.2 c)) →
    ∃ t, exec .hufDec s = .next t ∧ FailedWith t .malformedInput

/-- 43_huffman_decoder.md R177, R178: in a frame of a good tree text, a bit string that is not a concatenation of codes (a byte that is
no bit, a bit with no child, an end inside a code) is rejected. -/
def Obligations.HufDecRejectsBadBits : Prop :=
  ∀ (s : State) (lenWord bits : ByteString) (es : List (Byte × ByteString)),
    s.inputFits → s.params.noTableLimit → lenWord.length = s.sw →
    des s.wordBits s.mode lenWord = .ok (entriesText es).length → CodeEntries es →
    s.input = frameOf lenWord (entriesText es) bits →
    (¬∃ w : List (Byte × ByteString), (∀ e ∈ w, e ∈ es) ∧ bits = w.flatMap Prod.snd) →
    ∃ t, exec .hufDec s = .next t ∧ FailedWith t .malformedInput

/-- 43_huffman_decoder.md R183, the round trip: if HUF.ENC ends normally with OVF = 0, then HUF.DEC under the same CFG on its output
ends normally with the input. `e` is the whole output, also where OUT_LEN could not hold its length (then no input register can
give it to a decoder either). -/
def Obligations.HufRoundTrip : Prop :=
  ∀ s t : State, s.inputFits → s.params.noTableLimit → exec .hufEnc s = .next t → t.err = false → t.ovf = false →
    ∃ e, EndedWith t e false ∧
      ∀ u : State, u.cfg = s.cfg → u.inputFits → u.params.noTableLimit → u.outputFits s.inLen.toNat → u.input = e →
        ∃ v, exec .hufDec u = .next v ∧ EndedWith v s.input false

/-! ### LZW -/

/-- 44_lzw.md R201 to R205: LZW.ENC completes on every input, with the words of the input's codes in order; OVF tells whether some
code was truncated; the number and the size of the codes. -/
def Obligations.LzwEncWritesCodes : Prop :=
  ∀ s : State, s.inputFits → s.params.noTableLimit →
    ∃ t, exec .lzwEnc s = .next t ∧
      (s.outputFits (s.sw * (lzwCodesOf s.input).length) →
        EndedWith t ((lzwCodesOf s.input).flatMap fun k => ser s.params.hexUpper s.wordBits s.mode (k % 2 ^ s.wordBits))
          ((lzwCodesOf s.input).any fun k => decide (2 ^ s.wordBits ≤ k))) ∧
      (¬s.outputFits (s.sw * (lzwCodesOf s.input).length) → FailedWith t .capacityExceeded) ∧
      (s.inLen ≠ 0#64 → 1 ≤ (lzwCodesOf s.input).length ∧ (lzwCodesOf s.input).length ≤ s.inLen.toNat ∧
        (∀ k ∈ lzwCodesOf s.input, k ≤ 254 + s.inLen.toNat) ∧
        (254 + s.inLen.toNat < 2 ^ s.wordBits → ((lzwCodesOf s.input).any fun k => decide (2 ^ s.wordBits ≤ k)) = false) ∧
        t.lzw.codes = lzwCodesOf s.input ∧ t.lzw.nextCode = 255 + (lzwCodesOf s.input).length)

/-- 44_lzw.md R212, the encoder invariants, after any part `x` of an input has been scanned from the seed. -/
def Obligations.LzwEncoderInvariants : Prop :=
  ∀ (s s0 t : State) (x : ByteString), lzwEncSeed s = .go s0 → lzwScan x s0 = .go t →
    (t.lzw.dict.map Prod.snd = List.range t.lzw.nextCode ∧ (t.lzw.dict.map Prod.fst).Nodup ∧ ∀ e ∈ t.lzw.dict, e.1 ≠ []) ∧
    (∀ e ∈ t.lzw.dict, ∀ p, p <+: e.1 → p ≠ [] → p ∈ t.lzw.dict.map Prod.fst) ∧
    ((t.lzw.current = [] ∧ x = []) ∨ t.lzw.current ∈ t.lzw.dict.map Prod.fst) ∧
    t.lzw.nextCode = 256 + t.lzw.codes.length ∧
    (t.lzw.codes.flatMap fun k => ((t.lzw.dict[k]?).map Prod.fst).getD []) ++ t.lzw.current = x ∧
    ∀ j k, t.lzw.codes[j]? = some k → k ≤ 255 + j

/-- 44_lzw.md R206 to R211: LZW.DEC on a non-empty input always completes: with the bytes its codes stand for where the input is whole
chunks, each deserializing, and no code is above the next one to be inserted; by MalformedInput everywhere else. -/
def Obligations.LzwDecReadsCodes : Prop :=
  ∀ s : State, s.inputFits → s.params.noTableLimit → s.inLen ≠ 0#64 →
    ∃ t, exec .lzwDec s = .next t ∧
      (∀ (chunks : List ByteString) (ks : List Nat), ChunksOf s s.input chunks → chunks.map (des s.wordBits s.mode) = ks.map .ok →
        (∀ j k, ks[j]? = some k → k ≤ 255 + j) →
        ∃ out, lzwBytesOf ks = some out ∧ t.lzw.codes = ks ∧ t.outAcc = out ∧ t.lzw.nextCode = 255 + ks.length ∧
          (s.outputFits out.length → EndedWith t out false) ∧ (¬s.outputFits out.length → FailedWith t .capacityExceeded)) ∧
      ((¬∃ (chunks : List ByteString) (ks : List Nat), ChunksOf s s.input chunks ∧ chunks.map (des s.wordBits s.mode) = ks.map .ok ∧
          ∀ j k, ks[j]? = some k → k ≤ 255 + j) → FailedWith t .malformedInput)

/-- 44_lzw.md R207, R208, R209, 60_exceptions.md R232: each cause for which LZW.DEC rejects. -/
def Obligations.LzwDecRejects : Prop :=
  ∀ s : State, s.inputFits → s.params.noTableLimit → s.inLen ≠ 0#64 →
    (s.inLen.toNat % s.sw ≠ 0 ∨
      (∃ chunks, ChunksOf s s.input chunks ∧ ∃ c ∈ chunks, ∃ e, des s.wordBits s.mode c = .error e) ∨
      ∃ (chunks : List ByteString) (ks : List Nat), ChunksOf s s.input chunks ∧
        chunks.map (des s.wordBits s.mode) = ks.map .ok ∧ ∃ j k, ks[j]? = some k ∧ 255 + j < k) →
    ∃ t, exec .lzwDec s = .next t ∧ FailedWith t .malformedInput

/-- 44_lzw.md R210, the cScS case: a code equal to NEXTCODE and not in INV stands for CURRENT and its first byte, and afterwards INV
holds that at this code. -/
def Obligations.LzwSelfReference : Prop :=
  ∀ (s : State) (c : Byte) (cs : ByteString), s.params.noTableLimit → s.lzw.inv.lookup s.lzw.nextCode = none →
    s.lzw.current = c :: cs →
    ∃ t, lzwStep [s.lzw.nextCode] s = .go t ∧ t.outAcc = s.outAcc ++ (c :: cs ++ [c]) ∧
      t.lzw.current = c :: cs ++ [c] ∧ t.lzw.inv.lookup s.lzw.nextCode = some (c :: cs ++ [c]) ∧
      t.lzw.nextCode = s.lzw.nextCode + 1

/-- 44_lzw.md R213, the lock-step invariant. `y ++ z` is the encoder's input; after any part `y` of it, with `j` codes emitted, the
encoder's dictionary is the one it holds just before it emits code `j`. `s` is the decoder's state after its step 4 on code 0; after
it has processed code `j` too, INV is that dictionary inverted, NEXTCODE is `256 + j`, CURRENT is the string of code `j`. -/
def Obligations.LzwLockstep : Prop :=
  ∀ (y z : ByteString) (e e0 ey s : State) (c0 : Nat),
    lzwEncSeed e = .go e0 → lzwScan y e0 = .go ey →
    (lzwCodesOf (y ++ z))[0]? = some c0 → s.params.noTableLimit → s.lzw.inv = seedInv → s.lzw.nextCode = 256 →
    seedInv.lookup c0 = some s.lzw.current →
    ∃ t, lzwStep (((lzwCodesOf (y ++ z)).take (ey.lzw.codes.length + 1)).drop 1) s = .go t ∧
      t.lzw.inv = ey.lzw.dict.map Prod.swap ∧ t.lzw.nextCode = 256 + ey.lzw.codes.length ∧ ey.lzw.nextCode = t.lzw.nextCode ∧
      ∃ c, (lzwCodesOf (y ++ z))[ey.lzw.codes.length]? = some c ∧ c ≤ 255 + ey.lzw.codes.length ∧
        ey.lzw.dict.lookup t.lzw.current = some c ∧ t.lzw.inv.lookup c = some t.lzw.current

/-- 44_lzw.md R214, the round trip: if LZW.ENC ends normally with OVF = 0, then LZW.DEC under the same CFG on its output ends normally
with the input. `e` is the whole output, as in HufRoundTrip. -/
def Obligations.LzwRoundTrip : Prop :=
  ∀ s t : State, s.inputFits → s.params.noTableLimit → exec .lzwEnc s = .next t → t.err = false → t.ovf = false →
    ∃ e, EndedWith t e false ∧
      ∀ u : State, u.cfg = s.cfg → u.inputFits → u.params.noTableLimit → u.outputFits s.inLen.toNat → u.input = e →
        ∃ v, exec .lzwDec u = .next v ∧ EndedWith v s.input false

/-! ### Every command -/

/-- 40_command_interface.md R110: every command ends, from every state, with DONE = 1: no fault, no refusal. -/
def Obligations.EveryCommandEnds : Prop :=
  ∀ (i : Instr) (s : State), ∃ t, exec i s = .next t ∧ t.done = true ∧ t.busy = false ∧ t.phase = .idle ∧
    ((∃ out ovf, EndedWith t out ovf) ∨ ∃ e, FailedWith t e)

/-- 70_reset_and_hazards.md R269, 40_command_interface.md R110: once the sequencer takes its turn, DONE = 1 follows every write to CMD,
legal or not. -/
def Obligations.StartedCommandEndsInTwoSteps : Prop :=
  ∀ (s : State) (v : Word) (rest : List Turn), s.busy = false → s.pending = .host (.wr 1 v) :: .sequencer :: rest →
    ∃ t u, step s = .next t ∧ t.busy = true ∧ t.done = false ∧ step t = .next u ∧ u.busy = false ∧ u.done = true ∧
      u.pending = rest

/-- 60_exceptions.md R231, R235: LengthMismatch is IWC.DES's alone, for `IN_LEN != sw`; the encode directions raise neither it nor
MalformedInput; no command raises IllegalCommand (R230). -/
def Obligations.ErrorKindsByCommand : Prop :=
  ∀ (i : Instr) (s t : State), exec i s = .next t →
    (t.errCode = ErrKind.lengthMismatch.code → i = .iwcDes ∧ s.inLen.toNat ≠ s.sw) ∧
    (i = .iwcDes → s.inputFits → s.inLen.toNat ≠ s.sw → t.errCode = ErrKind.lengthMismatch.code) ∧
    (i = .iwcSer ∨ i = .iwcWidth ∨ i = .hufEnc ∨ i = .lzwEnc →
      t.errCode ≠ ErrKind.lengthMismatch.code ∧ t.errCode ≠ ErrKind.malformedInput.code) ∧
    t.errCode ≠ ErrKind.illegalCommand.code

/-- 60_exceptions.md R233: with the default parameters no command raises CapacityExceeded. -/
def Obligations.NoCapacityErrorByDefault : Prop :=
  ∀ (i : Instr) (s t : State), s.params.unbounded → exec i s = .next t → t.errCode ≠ ErrKind.capacityExceeded.code

/-- 60_exceptions.md R238, 40_command_interface.md R106: an input beyond CAP_IN is reported before anything else of a command that
reads IN, and changes nothing but the report; a command that does not read IN is not concerned. -/
def Obligations.InputCapacityJudgedFirst : Prop :=
  ∀ (i : Instr) (s : State), ¬s.inputFits →
    (readsInput i = true → exec i s = .next (s.raiseError .capacityExceeded)) ∧
    (readsInput i = false → ∀ v : Word, ∃ t u, exec i s = .next t ∧ exec i { s with inLen := v } = .next u ∧
      u = { t with inLen := v })

/-- 40_command_interface.md R111, the frame of every command; and which working state each leaves alone (10_state.md R31 to R38,
43_huffman_decoder.md R184, 44_lzw.md R218). That LATCH stays, a clause of `SameShell`, is the model's choice (log entry 27): R111 does
not name LATCH, and 93_implementation_defined.md U14 leaves it open. That the model's own fields stay, the other clauses of
`SameShell` beyond CFG, IN_LEN and IN, is log entries 1 to 3, 7 and 8. -/
def Obligations.CommandFrame : Prop :=
  ∀ (i : Instr) (s t : State), exec i s = .next t →
    SameShell s t ∧
    (t.value ≠ s.value → (i = .iwcDes ∧ t.err = false) ∨ i = .iwcWidth) ∧
    (t.err = true → t.outLen = 0#64) ∧
    (t.err = false → ∃ out, EndedWith t out t.ovf) ∧
    (i = .iwcSer ∨ i = .iwcDes ∨ i = .iwcWidth → t.huf = s.huf ∧ t.lzw = s.lzw ∧ t.outAcc = s.outAcc) ∧
    (i = .hufEnc → t.lzw = s.lzw ∧ t.outAcc = s.outAcc ∧ t.huf.bits = s.huf.bits ∧ t.huf.nodePtr = s.huf.nodePtr) ∧
    (i = .hufDec → t.lzw = s.lzw ∧ t.huf.freq = s.huf.freq ∧ t.huf.pq = s.huf.pq ∧ t.huf.merges = s.huf.merges ∧
      t.huf.codeTab = s.huf.codeTab) ∧
    (i = .lzwEnc → t.huf = s.huf ∧ t.outAcc = s.outAcc ∧ t.lzw.inv = s.lzw.inv) ∧
    (i = .lzwDec → t.huf = s.huf ∧ t.lzw.dict = s.lzw.dict)

/-- The frame of the byte memories (40_command_interface.md R107, R111; 20_memory.md R59): no command changes a byte of IN; one that
ends normally changes the bytes of OUT below its output's length, and only those; one that fails changes no byte of OUT. That
the other bytes of OUT stay as they are is the model's choice (log entry 8): the spec calls them unspecified. -/
def Obligations.MemoryFrame : Prop :=
  ∀ (i : Instr) (s t : State), exec i s = .next t →
    (∀ a, Memory.read t.inBuf a = Memory.read s.inBuf a) ∧
    (t.err = true → ∀ a, Memory.read t.outBuf a = Memory.read s.outBuf a) ∧
    (t.err = false → ∃ out, EndedWith t out t.ovf ∧
      (∀ a, a < out.length → Memory.read t.outBuf a = out[a]?) ∧
      ∀ a, out.length ≤ a → Memory.read t.outBuf a = Memory.read s.outBuf a)

/-- 10_state.md R21 (the column "written by the block"), R22, R26, R28, R41: over every step of the machine, CFG, IN_LEN and the bytes
of IN change by the host's writes and by reset only, VALUE also by IWC.DES and IWC.WIDTH, the parameters never. -/
def Obligations.WhoChangesHostRegisters : Prop :=
  ∀ s t : State, step s = .next t →
    t.params = s.params ∧
    (t.cfg ≠ s.cfg → (∃ v rest, s.pending = .host (.wr 0 v) :: rest) ∨ ∃ rest, s.pending = .reset :: rest) ∧
    (t.inLen ≠ s.inLen → (∃ v rest, s.pending = .host (.wr 4 v) :: rest) ∨ ∃ rest, s.pending = .reset :: rest) ∧
    (t.inBuf ≠ s.inBuf → (∃ i b rest, s.pending = .host (.wrb i b) :: rest) ∨ ∃ rest, s.pending = .reset :: rest) ∧
    (t.value ≠ s.value → (∃ v rest, s.pending = .host (.wr 6 v) :: rest) ∨ (∃ rest, s.pending = .reset :: rest) ∨
      (s.busy = true ∧ (decodeCommand s.latch = .ok .iwcDes ∨ decodeCommand s.latch = .ok .iwcWidth)))

/-- 10_state.md R39: the working state is not observable. From two states alike in everything else, a command ends in two states alike
in everything else. -/
def Obligations.WorkingStateUnobservable : Prop :=
  ∀ (i : Instr) (s u : State), s.visible = u.visible →
    ∃ t v, exec i s = .next t ∧ exec i u = .next v ∧ t.visible = v.visible

/-- 42_huffman_encoder.md R154, and for every command: under one CFG and the same parameters, equal inputs (and equal VALUE) end in
byte-equal outputs with the same OVF, or in the same error, whatever ran before. -/
def Obligations.EqualInputsEndAlike : Prop :=
  ∀ (i : Instr) (s u : State), s.cfg = u.cfg → s.params = u.params → s.input = u.input → s.value = u.value →
    ∃ t v, exec i s = .next t ∧ exec i u = .next v ∧
      ((∃ out ovf, EndedWith t out ovf ∧ EndedWith v out ovf ∧ (i = .iwcDes ∨ i = .iwcWidth → t.value = v.value)) ∨
        ∃ e, FailedWith t e ∧ FailedWith v e)

/-- 40_command_interface.md R109: the phases of each command, in order. -/
def Obligations.PhaseOrder : Prop :=
  ∀ x : ByteString,
    (hencPhases x).map Prod.fst = [.h1Empty, .h2Count, .h3Queue, .h4Merge, .h5Codes, .h6TreeText, .h7Frame] ∧
    (hdecPhases x).map Prod.fst =
      [.d0Empty, .d1Prefix, .d2TreeLen, .d3TreeSlice, .d4BitSlice, .d5Rebuild, .d6Walk, .d7Return] ∧
    (lzwEncPhases x).map Prod.fst = [.l1Empty, .l2Seed, .l3Scan, .l4Flush, .l5Output] ∧
    (lzwDecPhases x).map Prod.fst = [.m1Empty, .m2Split, .m3Seed, .m4First, .m5Step, .m6Return]

/-! ### Invariants -/

/-- The interface invariant and the dictionaries' invariant hold after reset, and IN and OUT are in canonical form there. -/
def Obligations.InvariantsAtReset : Prop :=
  State.reset.Inv ∧ State.reset.DictInv ∧ Memory.wf State.reset.inBuf ∧ Memory.wf State.reset.outBuf

/-- 10_state.md R43 (and R24, R25, R27): every step keeps the interface invariant. -/
def Obligations.InterfaceInvariantKept : Prop :=
  ∀ s t : State, s.Inv → step s = .next t → t.Inv

/-- 10_state.md R37, R38, 44_lzw.md R212 (a), (b): every step keeps both dictionaries maps from the seed up, DICT prefix-closed. -/
def Obligations.DictionariesKept : Prop :=
  ∀ s t : State, s.DictInv → step s = .next t → t.DictInv

end
end

