-- ==== Sys2Proof/Laws/Memory.lean ====
section
/-! SUPPORT. The laws of the byte memories: a read after a write, the canonical form and the capacity are kept. -/

namespace Sys2Proof.Machine

@[simp] theorem Memory.read_nil (a : Nat) : Memory.read [] a = none := rfl

theorem Memory.read_cons (c : Host.Cell) (m : List Host.Cell) (a : Nat) :
    Memory.read (c :: m) a = if a = c.1 then some c.2 else Memory.read m a := by
  obtain ⟨k, b⟩ := c
  by_cases h : a = k
  · simp [Memory.read, List.lookup, h]
  · have h' : (a == k) = false := by simpa using h
    simp [Memory.read, List.lookup, h, h']

/-- A write gives its byte at its index and leaves every other index alone. -/
theorem Memory.read_write (m : List Host.Cell) (a : Nat) (b : Byte) (i : Nat) :
    Memory.read (Memory.write m a b) i = if i = a then some b else Memory.read m i := by
  induction m with
  | nil => simp [Memory.write, Memory.read_cons]
  | cons c m ih =>
    obtain ⟨k, d⟩ := c
    unfold Memory.write
    split
    · simp [Memory.read_cons]
    · split
      · subst_vars; by_cases h : i = k <;> simp [Memory.read_cons, h]
      · rename_i h1 h2
        simp only [Memory.read_cons, ih]
        by_cases h : i = k
        · subst h; simp [Ne.symm h2]
        · simp [h]

/-- `MemWrite`: the bytes written at `[a .. a+n)`, every other index alone. -/
theorem Memory.read_writeBytes (bs : ByteString) (m : List Host.Cell) (a i : Nat) :
    Memory.read (Memory.writeBytes m a bs) i
      = if a ≤ i ∧ i < a + bs.length then bs[i - a]? else Memory.read m i := by
  induction bs generalizing m a with
  | nil =>
    simp [Memory.writeBytes]
  | cons b bs ih =>
    rw [Memory.writeBytes, ih, Memory.read_write]
    by_cases h : i = a
    · subst h; simp
    · by_cases h2 : a + 1 ≤ i ∧ i < a + 1 + bs.length
      · have h3 : a ≤ i ∧ i < a + (b :: bs).length := by simp; omega
        rw [if_pos h2, if_pos h3]
        have : i - a = (i - (a + 1)) + 1 := by omega
        simp [this]
      · have h3 : ¬(a ≤ i ∧ i < a + (b :: bs).length) := by simp; omega
        rw [if_neg h2, if_neg h3, if_neg h]

theorem Memory.mem_write {m : List Host.Cell} {a : Nat} {b : Byte} {c : Host.Cell} (h : c ∈ Memory.write m a b) :
    c = (a, b) ∨ c ∈ m := by
  induction m with
  | nil => simpa [Memory.write] using h
  | cons d m ih =>
    obtain ⟨k, x⟩ := d
    unfold Memory.write at h
    split at h
    · simpa using h
    · split at h
      · simp at h ⊢; tauto
      · simp only [List.mem_cons] at h ⊢
        rcases h with h | h
        · exact .inr (.inl h)
        · rcases ih h with h | h <;> tauto

/-- Every memory operation keeps the canonical form. -/
theorem Memory.wf_write {m : List Host.Cell} (a : Nat) (b : Byte) (h : Memory.wf m) : Memory.wf (Memory.write m a b) := by
  induction m with
  | nil => simp [Memory.write, Memory.wf]
  | cons d m ih =>
    obtain ⟨k, x⟩ := d
    simp only [Memory.wf, List.map_cons, List.pairwise_cons, List.mem_map, forall_exists_index, and_imp,
      forall_apply_eq_imp_iff₂] at h
    unfold Memory.write
    split
    · rename_i hlt
      simp only [Memory.wf, List.map_cons, List.pairwise_cons, List.mem_cons, List.mem_map]
      refine ⟨?_, ?_, h.2⟩
      · rintro y (rfl | ⟨c, hc, rfl⟩)
        · exact hlt
        · exact hlt.trans (h.1 c hc)
      · rintro y ⟨c, hc, rfl⟩; exact h.1 c hc
    · split
      · subst_vars
        simp only [Memory.wf, List.map_cons, List.pairwise_cons, List.mem_map]
        exact ⟨by rintro y ⟨c, hc, rfl⟩; exact h.1 c hc, h.2⟩
      · simp only [Memory.wf, List.map_cons, List.pairwise_cons, List.mem_map]
        refine ⟨?_, ih h.2⟩
        rintro y ⟨c, hc, rfl⟩
        rcases Memory.mem_write hc with rfl | hc
        · simp; omega
        · exact h.1 c hc

theorem Memory.wf_writeBytes (bs : ByteString) {m : List Host.Cell} (a : Nat) (h : Memory.wf m) :
    Memory.wf (Memory.writeBytes m a bs) := by
  induction bs generalizing m a with
  | nil => exact h
  | cons b bs ih => exact ih (a + 1) (Memory.wf_write a b h)

/-- A write inside the capacity keeps the memory inside it. -/
theorem Memory.within_write {cap : Option Nat} {m : List Host.Cell} (a : Nat) (b : Byte) (h : Memory.within cap m)
    (ha : ∀ k ∈ cap, a < k) : Memory.within cap (Memory.write m a b) := by
  intro c hc k hk
  rcases Memory.mem_write hc with rfl | hc
  · exact ha k hk
  · exact h c hc k hk

theorem Memory.within_writeBytes (bs : ByteString) {cap : Option Nat} {m : List Host.Cell} (a : Nat)
    (h : Memory.within cap m) (ha : ∀ k ∈ cap, a + bs.length ≤ k) : Memory.within cap (Memory.writeBytes m a bs) := by
  induction bs generalizing m a with
  | nil => exact h
  | cons b bs ih =>
    refine ih (a + 1) (Memory.within_write a b h fun k hk => ?_) fun k hk => ?_
    · have := ha k hk; simp at this; omega
    · have := ha k hk; simp at this; omega

end Sys2Proof.Machine
end

