-- ==== Sys2Proof/Laws/State.lean ====
section
/-! SUPPORT. One lemma per field per update of State, true by `rfl`, so that no later proof unfolds a record update; and what
each field is after reset. -/

namespace Sys2Proof.Machine

@[simp] theorem State.start_cfg (s : State) (v : Word) : (s.start v).cfg = s.cfg := rfl
@[simp] theorem State.start_status (s : State) (v : Word) : (s.start v).status = packStatus true false false false := rfl
@[simp] theorem State.start_errCode (s : State) (v : Word) : (s.start v).errCode = 0#3 := rfl
@[simp] theorem State.start_inLen (s : State) (v : Word) : (s.start v).inLen = s.inLen := rfl
@[simp] theorem State.start_outLen (s : State) (v : Word) : (s.start v).outLen = 0#64 := rfl
@[simp] theorem State.start_value (s : State) (v : Word) : (s.start v).value = s.value := rfl
@[simp] theorem State.start_inBuf (s : State) (v : Word) : (s.start v).inBuf = s.inBuf := rfl
@[simp] theorem State.start_outBuf (s : State) (v : Word) : (s.start v).outBuf = s.outBuf := rfl
@[simp] theorem State.start_phase (s : State) (v : Word) : (s.start v).phase = .dispatch := rfl
@[simp] theorem State.start_ipos (s : State) (v : Word) : (s.start v).ipos = s.ipos := rfl
@[simp] theorem State.start_latch (s : State) (v : Word) : (s.start v).latch = v := rfl
@[simp] theorem State.start_huf (s : State) (v : Word) : (s.start v).huf = s.huf := rfl
@[simp] theorem State.start_lzw (s : State) (v : Word) : (s.start v).lzw = s.lzw := rfl
@[simp] theorem State.start_outAcc (s : State) (v : Word) : (s.start v).outAcc = s.outAcc := rfl
@[simp] theorem State.start_params (s : State) (v : Word) : (s.start v).params = s.params := rfl
@[simp] theorem State.start_pending (s : State) (v : Word) : (s.start v).pending = s.pending := rfl
@[simp] theorem State.start_readLog (s : State) (v : Word) : (s.start v).readLog = s.readLog := rfl
@[simp] theorem State.start_inEpoch (s : State) (v : Word) : (s.start v).inEpoch = s.inEpoch := rfl
@[simp] theorem State.start_outEpoch (s : State) (v : Word) : (s.start v).outEpoch = s.outEpoch + 1 := rfl

@[simp] theorem State.raiseError_cfg (s : State) (e : ErrKind) : (s.raiseError e).cfg = s.cfg := rfl
@[simp] theorem State.raiseError_status (s : State) (e : ErrKind) : (s.raiseError e).status = packStatus false true true false := rfl
@[simp] theorem State.raiseError_errCode (s : State) (e : ErrKind) : (s.raiseError e).errCode = e.code := rfl
@[simp] theorem State.raiseError_inLen (s : State) (e : ErrKind) : (s.raiseError e).inLen = s.inLen := rfl
@[simp] theorem State.raiseError_outLen (s : State) (e : ErrKind) : (s.raiseError e).outLen = 0#64 := rfl
@[simp] theorem State.raiseError_value (s : State) (e : ErrKind) : (s.raiseError e).value = s.value := rfl
@[simp] theorem State.raiseError_inBuf (s : State) (e : ErrKind) : (s.raiseError e).inBuf = s.inBuf := rfl
@[simp] theorem State.raiseError_outBuf (s : State) (e : ErrKind) : (s.raiseError e).outBuf = s.outBuf := rfl
@[simp] theorem State.raiseError_phase (s : State) (e : ErrKind) : (s.raiseError e).phase = .idle := rfl
@[simp] theorem State.raiseError_ipos (s : State) (e : ErrKind) : (s.raiseError e).ipos = s.ipos := rfl
@[simp] theorem State.raiseError_latch (s : State) (e : ErrKind) : (s.raiseError e).latch = s.latch := rfl
@[simp] theorem State.raiseError_huf (s : State) (e : ErrKind) : (s.raiseError e).huf = s.huf := rfl
@[simp] theorem State.raiseError_lzw (s : State) (e : ErrKind) : (s.raiseError e).lzw = s.lzw := rfl
@[simp] theorem State.raiseError_outAcc (s : State) (e : ErrKind) : (s.raiseError e).outAcc = s.outAcc := rfl
@[simp] theorem State.raiseError_params (s : State) (e : ErrKind) : (s.raiseError e).params = s.params := rfl
@[simp] theorem State.raiseError_pending (s : State) (e : ErrKind) : (s.raiseError e).pending = s.pending := rfl
@[simp] theorem State.raiseError_readLog (s : State) (e : ErrKind) : (s.raiseError e).readLog = s.readLog := rfl
@[simp] theorem State.raiseError_inEpoch (s : State) (e : ErrKind) : (s.raiseError e).inEpoch = s.inEpoch := rfl
@[simp] theorem State.raiseError_outEpoch (s : State) (e : ErrKind) : (s.raiseError e).outEpoch = s.outEpoch := rfl

@[simp] theorem State.complete_cfg (s : State) (out : ByteString) (ovf : Bool) : (s.complete out ovf).cfg = s.cfg := rfl
@[simp] theorem State.complete_status (s : State) (out : ByteString) (ovf : Bool) : (s.complete out ovf).status = packStatus false true false ovf := rfl
@[simp] theorem State.complete_errCode (s : State) (out : ByteString) (ovf : Bool) : (s.complete out ovf).errCode = 0#3 := rfl
@[simp] theorem State.complete_inLen (s : State) (out : ByteString) (ovf : Bool) : (s.complete out ovf).inLen = s.inLen := rfl
@[simp] theorem State.complete_outLen (s : State) (out : ByteString) (ovf : Bool) : (s.complete out ovf).outLen = outLenOf s.outEpoch out.length := rfl
@[simp] theorem State.complete_value (s : State) (out : ByteString) (ovf : Bool) : (s.complete out ovf).value = s.value := rfl
@[simp] theorem State.complete_inBuf (s : State) (out : ByteString) (ovf : Bool) : (s.complete out ovf).inBuf = s.inBuf := rfl
@[simp] theorem State.complete_outBuf (s : State) (out : ByteString) (ovf : Bool) : (s.complete out ovf).outBuf = Memory.writeBytes s.outBuf 0 out := rfl
@[simp] theorem State.complete_phase (s : State) (out : ByteString) (ovf : Bool) : (s.complete out ovf).phase = .idle := rfl
@[simp] theorem State.complete_ipos (s : State) (out : ByteString) (ovf : Bool) : (s.complete out ovf).ipos = s.ipos := rfl
@[simp] theorem State.complete_latch (s : State) (out : ByteString) (ovf : Bool) : (s.complete out ovf).latch = s.latch := rfl
@[simp] theorem State.complete_huf (s : State) (out : ByteString) (ovf : Bool) : (s.complete out ovf).huf = s.huf := rfl
@[simp] theorem State.complete_lzw (s : State) (out : ByteString) (ovf : Bool) : (s.complete out ovf).lzw = s.lzw := rfl
@[simp] theorem State.complete_outAcc (s : State) (out : ByteString) (ovf : Bool) : (s.complete out ovf).outAcc = s.outAcc := rfl
@[simp] theorem State.complete_params (s : State) (out : ByteString) (ovf : Bool) : (s.complete out ovf).params = s.params := rfl
@[simp] theorem State.complete_pending (s : State) (out : ByteString) (ovf : Bool) : (s.complete out ovf).pending = s.pending := rfl
@[simp] theorem State.complete_readLog (s : State) (out : ByteString) (ovf : Bool) : (s.complete out ovf).readLog = s.readLog := rfl
@[simp] theorem State.complete_inEpoch (s : State) (out : ByteString) (ovf : Bool) : (s.complete out ovf).inEpoch = s.inEpoch := rfl
@[simp] theorem State.complete_outEpoch (s : State) (out : ByteString) (ovf : Bool) : (s.complete out ovf).outEpoch = s.outEpoch := rfl

@[simp] theorem State.enter_cfg (s : State) (ph : Phase) : (s.enter ph).cfg = s.cfg := rfl
@[simp] theorem State.enter_status (s : State) (ph : Phase) : (s.enter ph).status = s.status := rfl
@[simp] theorem State.enter_errCode (s : State) (ph : Phase) : (s.enter ph).errCode = s.errCode := rfl
@[simp] theorem State.enter_inLen (s : State) (ph : Phase) : (s.enter ph).inLen = s.inLen := rfl
@[simp] theorem State.enter_outLen (s : State) (ph : Phase) : (s.enter ph).outLen = s.outLen := rfl
@[simp] theorem State.enter_value (s : State) (ph : Phase) : (s.enter ph).value = s.value := rfl
@[simp] theorem State.enter_inBuf (s : State) (ph : Phase) : (s.enter ph).inBuf = s.inBuf := rfl
@[simp] theorem State.enter_outBuf (s : State) (ph : Phase) : (s.enter ph).outBuf = s.outBuf := rfl
@[simp] theorem State.enter_phase (s : State) (ph : Phase) : (s.enter ph).phase = ph := rfl
@[simp] theorem State.enter_ipos (s : State) (ph : Phase) : (s.enter ph).ipos = 0 := rfl
@[simp] theorem State.enter_latch (s : State) (ph : Phase) : (s.enter ph).latch = s.latch := rfl
@[simp] theorem State.enter_huf (s : State) (ph : Phase) : (s.enter ph).huf = s.huf := rfl
@[simp] theorem State.enter_lzw (s : State) (ph : Phase) : (s.enter ph).lzw = s.lzw := rfl
@[simp] theorem State.enter_outAcc (s : State) (ph : Phase) : (s.enter ph).outAcc = s.outAcc := rfl
@[simp] theorem State.enter_params (s : State) (ph : Phase) : (s.enter ph).params = s.params := rfl
@[simp] theorem State.enter_pending (s : State) (ph : Phase) : (s.enter ph).pending = s.pending := rfl
@[simp] theorem State.enter_readLog (s : State) (ph : Phase) : (s.enter ph).readLog = s.readLog := rfl
@[simp] theorem State.enter_inEpoch (s : State) (ph : Phase) : (s.enter ph).inEpoch = s.inEpoch := rfl
@[simp] theorem State.enter_outEpoch (s : State) (ph : Phase) : (s.enter ph).outEpoch = s.outEpoch := rfl

@[simp] theorem State.consume_cfg (s : State) (n : Nat) : (s.consume n).cfg = s.cfg := rfl
@[simp] theorem State.consume_status (s : State) (n : Nat) : (s.consume n).status = s.status := rfl
@[simp] theorem State.consume_errCode (s : State) (n : Nat) : (s.consume n).errCode = s.errCode := rfl
@[simp] theorem State.consume_inLen (s : State) (n : Nat) : (s.consume n).inLen = s.inLen := rfl
@[simp] theorem State.consume_outLen (s : State) (n : Nat) : (s.consume n).outLen = s.outLen := rfl
@[simp] theorem State.consume_value (s : State) (n : Nat) : (s.consume n).value = s.value := rfl
@[simp] theorem State.consume_inBuf (s : State) (n : Nat) : (s.consume n).inBuf = s.inBuf := rfl
@[simp] theorem State.consume_outBuf (s : State) (n : Nat) : (s.consume n).outBuf = s.outBuf := rfl
@[simp] theorem State.consume_phase (s : State) (n : Nat) : (s.consume n).phase = s.phase := rfl
@[simp] theorem State.consume_ipos (s : State) (n : Nat) : (s.consume n).ipos = s.ipos + n := rfl
@[simp] theorem State.consume_latch (s : State) (n : Nat) : (s.consume n).latch = s.latch := rfl
@[simp] theorem State.consume_huf (s : State) (n : Nat) : (s.consume n).huf = s.huf := rfl
@[simp] theorem State.consume_lzw (s : State) (n : Nat) : (s.consume n).lzw = s.lzw := rfl
@[simp] theorem State.consume_outAcc (s : State) (n : Nat) : (s.consume n).outAcc = s.outAcc := rfl
@[simp] theorem State.consume_params (s : State) (n : Nat) : (s.consume n).params = s.params := rfl
@[simp] theorem State.consume_pending (s : State) (n : Nat) : (s.consume n).pending = s.pending := rfl
@[simp] theorem State.consume_readLog (s : State) (n : Nat) : (s.consume n).readLog = s.readLog := rfl
@[simp] theorem State.consume_inEpoch (s : State) (n : Nat) : (s.consume n).inEpoch = s.inEpoch := rfl
@[simp] theorem State.consume_outEpoch (s : State) (n : Nat) : (s.consume n).outEpoch = s.outEpoch := rfl

@[simp] theorem State.readReg_cfg (s : State) (n : Nat) : (s.readReg n).cfg = s.cfg := rfl
@[simp] theorem State.readReg_status (s : State) (n : Nat) : (s.readReg n).status = s.status := rfl
@[simp] theorem State.readReg_errCode (s : State) (n : Nat) : (s.readReg n).errCode = s.errCode := rfl
@[simp] theorem State.readReg_inLen (s : State) (n : Nat) : (s.readReg n).inLen = s.inLen := rfl
@[simp] theorem State.readReg_outLen (s : State) (n : Nat) : (s.readReg n).outLen = s.outLen := rfl
@[simp] theorem State.readReg_value (s : State) (n : Nat) : (s.readReg n).value = s.value := rfl
@[simp] theorem State.readReg_inBuf (s : State) (n : Nat) : (s.readReg n).inBuf = s.inBuf := rfl
@[simp] theorem State.readReg_outBuf (s : State) (n : Nat) : (s.readReg n).outBuf = s.outBuf := rfl
@[simp] theorem State.readReg_phase (s : State) (n : Nat) : (s.readReg n).phase = s.phase := rfl
@[simp] theorem State.readReg_ipos (s : State) (n : Nat) : (s.readReg n).ipos = s.ipos := rfl
@[simp] theorem State.readReg_latch (s : State) (n : Nat) : (s.readReg n).latch = s.latch := rfl
@[simp] theorem State.readReg_huf (s : State) (n : Nat) : (s.readReg n).huf = s.huf := rfl
@[simp] theorem State.readReg_lzw (s : State) (n : Nat) : (s.readReg n).lzw = s.lzw := rfl
@[simp] theorem State.readReg_outAcc (s : State) (n : Nat) : (s.readReg n).outAcc = s.outAcc := rfl
@[simp] theorem State.readReg_params (s : State) (n : Nat) : (s.readReg n).params = s.params := rfl
@[simp] theorem State.readReg_pending (s : State) (n : Nat) : (s.readReg n).pending = s.pending := rfl
@[simp] theorem State.readReg_readLog (s : State) (n : Nat) : (s.readReg n).readLog = .reg n (s.regValue n) :: s.readLog := rfl
@[simp] theorem State.readReg_inEpoch (s : State) (n : Nat) : (s.readReg n).inEpoch = s.inEpoch := rfl
@[simp] theorem State.readReg_outEpoch (s : State) (n : Nat) : (s.readReg n).outEpoch = s.outEpoch := rfl

@[simp] theorem State.readOut_cfg (s : State) (i : Nat) : (s.readOut i).cfg = s.cfg := rfl
@[simp] theorem State.readOut_status (s : State) (i : Nat) : (s.readOut i).status = s.status := rfl
@[simp] theorem State.readOut_errCode (s : State) (i : Nat) : (s.readOut i).errCode = s.errCode := rfl
@[simp] theorem State.readOut_inLen (s : State) (i : Nat) : (s.readOut i).inLen = s.inLen := rfl
@[simp] theorem State.readOut_outLen (s : State) (i : Nat) : (s.readOut i).outLen = s.outLen := rfl
@[simp] theorem State.readOut_value (s : State) (i : Nat) : (s.readOut i).value = s.value := rfl
@[simp] theorem State.readOut_inBuf (s : State) (i : Nat) : (s.readOut i).inBuf = s.inBuf := rfl
@[simp] theorem State.readOut_outBuf (s : State) (i : Nat) : (s.readOut i).outBuf = s.outBuf := rfl
@[simp] theorem State.readOut_phase (s : State) (i : Nat) : (s.readOut i).phase = s.phase := rfl
@[simp] theorem State.readOut_ipos (s : State) (i : Nat) : (s.readOut i).ipos = s.ipos := rfl
@[simp] theorem State.readOut_latch (s : State) (i : Nat) : (s.readOut i).latch = s.latch := rfl
@[simp] theorem State.readOut_huf (s : State) (i : Nat) : (s.readOut i).huf = s.huf := rfl
@[simp] theorem State.readOut_lzw (s : State) (i : Nat) : (s.readOut i).lzw = s.lzw := rfl
@[simp] theorem State.readOut_outAcc (s : State) (i : Nat) : (s.readOut i).outAcc = s.outAcc := rfl
@[simp] theorem State.readOut_params (s : State) (i : Nat) : (s.readOut i).params = s.params := rfl
@[simp] theorem State.readOut_pending (s : State) (i : Nat) : (s.readOut i).pending = s.pending := rfl
@[simp] theorem State.readOut_readLog (s : State) (i : Nat) : (s.readOut i).readLog = .byte i (s.outByte i) :: s.readLog := rfl
@[simp] theorem State.readOut_inEpoch (s : State) (i : Nat) : (s.readOut i).inEpoch = s.inEpoch := rfl
@[simp] theorem State.readOut_outEpoch (s : State) (i : Nat) : (s.readOut i).outEpoch = s.outEpoch := rfl

@[simp] theorem State.toReset_cfg (s : State) : (s.toReset).cfg = State.reset.cfg := rfl
@[simp] theorem State.toReset_status (s : State) : (s.toReset).status = State.reset.status := rfl
@[simp] theorem State.toReset_errCode (s : State) : (s.toReset).errCode = State.reset.errCode := rfl
@[simp] theorem State.toReset_inLen (s : State) : (s.toReset).inLen = State.reset.inLen := rfl
@[simp] theorem State.toReset_outLen (s : State) : (s.toReset).outLen = State.reset.outLen := rfl
@[simp] theorem State.toReset_value (s : State) : (s.toReset).value = State.reset.value := rfl
@[simp] theorem State.toReset_inBuf (s : State) : (s.toReset).inBuf = State.reset.inBuf := rfl
@[simp] theorem State.toReset_outBuf (s : State) : (s.toReset).outBuf = State.reset.outBuf := rfl
@[simp] theorem State.toReset_phase (s : State) : (s.toReset).phase = State.reset.phase := rfl
@[simp] theorem State.toReset_ipos (s : State) : (s.toReset).ipos = State.reset.ipos := rfl
@[simp] theorem State.toReset_latch (s : State) : (s.toReset).latch = State.reset.latch := rfl
@[simp] theorem State.toReset_huf (s : State) : (s.toReset).huf = State.reset.huf := rfl
@[simp] theorem State.toReset_lzw (s : State) : (s.toReset).lzw = State.reset.lzw := rfl
@[simp] theorem State.toReset_outAcc (s : State) : (s.toReset).outAcc = State.reset.outAcc := rfl
@[simp] theorem State.toReset_params (s : State) : (s.toReset).params = s.params := rfl
@[simp] theorem State.toReset_pending (s : State) : (s.toReset).pending = s.pending := rfl
@[simp] theorem State.toReset_readLog (s : State) : (s.toReset).readLog = s.readLog := rfl
@[simp] theorem State.toReset_inEpoch (s : State) : (s.toReset).inEpoch = s.inEpoch + 1 := rfl
@[simp] theorem State.toReset_outEpoch (s : State) : (s.toReset).outEpoch = s.outEpoch + 1 := rfl

/-! The fields of the reset state (10_state.md R42). -/

@[simp] theorem State.reset_cfg : State.reset.cfg = 5#3 := rfl
@[simp] theorem State.reset_status : State.reset.status = 0#4 := rfl
@[simp] theorem State.reset_errCode : State.reset.errCode = 0#3 := rfl
@[simp] theorem State.reset_inLen : State.reset.inLen = 0#64 := rfl
@[simp] theorem State.reset_outLen : State.reset.outLen = 0#64 := rfl
@[simp] theorem State.reset_value : State.reset.value = 0#64 := rfl
@[simp] theorem State.reset_inBuf : State.reset.inBuf = [] := rfl
@[simp] theorem State.reset_outBuf : State.reset.outBuf = [] := rfl
@[simp] theorem State.reset_phase : State.reset.phase = .idle := rfl
@[simp] theorem State.reset_ipos : State.reset.ipos = 0 := rfl
@[simp] theorem State.reset_latch : State.reset.latch = 0#64 := rfl
@[simp] theorem State.reset_huf : State.reset.huf = HufState.reset := rfl
@[simp] theorem State.reset_lzw : State.reset.lzw = LzwState.reset := rfl
@[simp] theorem State.reset_outAcc : State.reset.outAcc = [] := rfl
@[simp] theorem State.reset_params : State.reset.params = Params.default := rfl
@[simp] theorem State.reset_pending : State.reset.pending = [] := rfl
@[simp] theorem State.reset_readLog : State.reset.readLog = [] := rfl
@[simp] theorem State.reset_inEpoch : State.reset.inEpoch = 0 := rfl
@[simp] theorem State.reset_outEpoch : State.reset.outEpoch = 0 := rfl

/-! The flags of a packed STATUS (10_state.md R24). -/

@[simp] theorem packStatus_busy (b d e o : Bool) : (packStatus b d e o).getLsbD 0 = b := by
  cases b <;> cases d <;> cases e <;> cases o <;> rfl
@[simp] theorem packStatus_done (b d e o : Bool) : (packStatus b d e o).getLsbD 1 = d := by
  cases b <;> cases d <;> cases e <;> cases o <;> rfl
@[simp] theorem packStatus_err (b d e o : Bool) : (packStatus b d e o).getLsbD 2 = e := by
  cases b <;> cases d <;> cases e <;> cases o <;> rfl
@[simp] theorem packStatus_ovf (b d e o : Bool) : (packStatus b d e o).getLsbD 3 = o := by
  cases b <;> cases d <;> cases e <;> cases o <;> rfl

end Sys2Proof.Machine
end

