-- ==== Sys2Proof/Laws/Ops.lean ====
section
/-! SUPPORT. What the shared operations can do, said once: how a command's phases end (`Ctl.Sat`), which part of the state they
keep (`Ctl.Keeps`), and what the two ends of a command leave (40_command_interface.md R107, 60_exceptions.md R236). -/

namespace Sys2Proof.Machine

/-- A way to end a phase meets `G` when it goes on, `F` when it finishes, `R` when it raises, and is never undefined. -/
def Ctl.Sat (G : State → Prop) (F : State → ByteString → Bool → Prop) (R : State → ErrKind → Prop) : Ctl → Prop
  | .go s => G s
  | .finish s out ovf => F s out ovf
  | .raise s e => R s e
  | .undefined => False

@[simp] theorem Ctl.sat_go {G F R} (s : State) : (Ctl.go s).Sat G F R ↔ G s := Iff.rfl
@[simp] theorem Ctl.sat_finish {G F R} (s : State) (o : ByteString) (v : Bool) : (Ctl.finish s o v).Sat G F R ↔ F s o v :=
  Iff.rfl
@[simp] theorem Ctl.sat_raise {G F R} (s : State) (e : ErrKind) : (Ctl.raise s e).Sat G F R ↔ R s e := Iff.rfl
@[simp] theorem Ctl.sat_undefined {G F R} : Ctl.undefined.Sat G F R ↔ False := Iff.rfl

theorem Ctl.Sat.mono {G G' F F' R R'} {c : Ctl} (h : c.Sat G F R) (hG : ∀ s, G s → G' s)
    (hF : ∀ s o v, F s o v → F' s o v) (hR : ∀ s e, R s e → R' s e) : c.Sat G' F' R' := by
  cases c with
  | go s => exact hG s h
  | finish s o v => exact hF s o v h
  | raise s e => exact hR s e h
  | undefined => exact h

theorem Ctl.Sat.and {G G' F F' R R'} {c : Ctl} (h : c.Sat G F R) (h' : c.Sat G' F' R') :
    c.Sat (fun s => G s ∧ G' s) (fun s o v => F s o v ∧ F' s o v) (fun s e => R s e ∧ R' s e) := by
  cases c <;> first | exact ⟨h, h'⟩ | exact h

/-- Every state a phase ends in has the value `a` for the projection `π`. -/
def Ctl.Keeps {α : Type} (π : State → α) (a : α) : Ctl → Prop
  | .go s => π s = a
  | .finish s _ _ => π s = a
  | .raise s _ => π s = a
  | .undefined => True

@[simp] theorem Ctl.keeps_go {α} {π : State → α} {a} (s : State) : (Ctl.go s).Keeps π a ↔ π s = a := Iff.rfl
@[simp] theorem Ctl.keeps_finish {α} {π : State → α} {a} (s : State) (o v) : (Ctl.finish s o v).Keeps π a ↔ π s = a := Iff.rfl
@[simp] theorem Ctl.keeps_raise {α} {π : State → α} {a} (s : State) (e) : (Ctl.raise s e).Keeps π a ↔ π s = a := Iff.rfl
@[simp] theorem Ctl.keeps_undefined {α} {π : State → α} {a} : Ctl.undefined.Keeps π a ↔ True := Iff.rfl

theorem Ctl.Sat.and_keeps {α} {π : State → α} {a G F R} {c : Ctl} (h : c.Sat G F R) (h' : c.Keeps π a) :
    c.Sat (fun s => G s ∧ π s = a) (fun s o v => F s o v ∧ π s = a) (fun s e => R s e ∧ π s = a) := by
  cases c <;> first | exact ⟨h, h'⟩ | exact h

theorem Ctl.Keeps.map {α β} {π : State → α} {a} {c : Ctl} (h : c.Keeps π a) (f : α → β) :
    c.Keeps (fun s => f (π s)) (f a) := by
  cases c <;> first | exact congrArg f h | trivial

/-- One phase, then the rest: the phase may finish or raise as the whole may, and where it goes on the rest must do. -/
theorem runPhases_cons_sat {G F R} (ph : Phase) (f : State → Ctl) (rest : List (Phase × (State → Ctl))) (s : State)
    (h : (f (s.enter ph)).Sat (fun t => (runPhases rest t).Sat G F R) F R) :
    (runPhases ((ph, f) :: rest) s).Sat G F R := by
  unfold runPhases
  cases hf : f (s.enter ph) <;> rw [hf] at h <;> exact h

/-- What every phase of a list keeps, the list keeps. -/
theorem runPhases_keeps {α} (π : State → α) (ps : List (Phase × (State → Ctl))) (s : State)
    (henter : ∀ s ph, π (State.enter s ph) = π s) (h : ∀ p ∈ ps, ∀ s, (p.2 s).Keeps π (π s)) :
    (runPhases ps s).Keeps π (π s) := by
  induction ps generalizing s with
  | nil => trivial
  | cons p ps ih =>
    obtain ⟨ph, f⟩ := p
    have h1 : (f (s.enter ph)).Keeps π (π (s.enter ph)) := h (ph, f) (by simp) (s.enter ph)
    rw [henter] at h1
    unfold runPhases
    cases hf : f (s.enter ph) with
    | go s' =>
      rw [hf] at h1
      have h2 := ih s' fun p hp => h p (by simp [hp])
      rw [show π s' = π s from h1] at h2
      exact h2
    | finish s' o v => rw [hf] at h1; exact h1
    | raise s' e => rw [hf] at h1; exact h1
    | undefined => trivial

/-- The end of a command whose phases are never undefined and never run out: a next state, by `Finish` or by `raise`. -/
theorem conclude_next {F R} {c : Ctl} (h : c.Sat (fun _ => False) F R) :
    ∃ t, conclude c = .next t ∧
      ((∃ s o v, F s o v ∧ t = State.finish s o v) ∨ (∃ s e, R s e ∧ t = State.raiseError s e)) := by
  cases c with
  | go s => exact h.elim
  | finish s o v => exact ⟨_, rfl, .inl ⟨s, o, v, h, rfl⟩⟩
  | raise s e => exact ⟨_, rfl, .inr ⟨s, e, h, rfl⟩⟩
  | undefined => exact h.elim

/-- Where a command answers a next state, its phases ended by `Finish` or by `raise`. -/
theorem conclude_cases {c : Ctl} {t : State} (h : conclude c = .next t) :
    (∃ s o v, c = .finish s o v ∧ t = s.finish o v) ∨ (∃ s e, c = .raise s e ∧ t = s.raiseError e) := by
  cases c with
  | go s => cases h
  | finish s o v => cases h; exact .inl ⟨s, o, v, rfl, rfl⟩
  | raise s e => cases h; exact .inr ⟨s, e, rfl, rfl⟩
  | undefined => cases h

/-- The two ends of `Finish(out)` (R107). -/
theorem State.finish_cases (s : State) (out : ByteString) (ovf : Bool) :
    (beyond s.params.capOut out.length = true ∧ s.finish out ovf = s.raiseError .capacityExceeded) ∨
    (beyond s.params.capOut out.length = false ∧ s.finish out ovf = s.complete out ovf) := by
  unfold State.finish
  cases beyond s.params.capOut out.length <;> simp

theorem State.finish_of_fits {s : State} {out : ByteString} {ovf : Bool} (h : beyond s.params.capOut out.length = false) :
    s.finish out ovf = s.complete out ovf := by
  simp [State.finish, h]

/-- A command that reads IN: the capacity check, then its body on the input (R106). -/
theorem withInput_of_fits {s : State} (h : beyond s.params.capIn s.inLen.toNat = false)
    (body : ByteString → Host.Outcome State Fault Refusal) : withInput s body = body s.input := by
  simp [withInput, h]

theorem withInput_of_beyond {s : State} (h : beyond s.params.capIn s.inLen.toNat = true)
    (body : ByteString → Host.Outcome State Fault Refusal) :
    withInput s body = .next (s.raiseError .capacityExceeded) := by
  simp [withInput, h]

@[simp] theorem State.length_input (s : State) : s.input.length = s.inLen.toNat := by simp [State.input]

theorem State.input_eq_nil {s : State} : s.input = [] ↔ s.inLen = 0#64 := by
  rw [← List.length_eq_zero_iff, State.length_input]
  constructor
  · intro h; exact BitVec.eq_of_toNat_eq (by simpa using h)
  · intro h; simp [h]

@[simp] theorem beyond_none (n : Nat) : beyond none n = false := rfl

theorem beyond_some (c n : Nat) : beyond (some c) n = true ↔ c < n := by simp [beyond]

theorem beyond_zero (cap : Option Nat) : beyond cap 0 = false := by cases cap <;> simp [beyond]

theorem beyond_eq_false {cap : Option Nat} {n : Nat} : beyond cap n = false ↔ ∀ c ∈ cap, n ≤ c := by
  cases cap <;> simp [beyond]

theorem outLenOf_of_lt {e n : Nat} (h : n < 2 ^ 64) : outLenOf e n = BitVec.ofNat 64 n := if_pos h

theorem toNat_outLenOf_of_lt {e n : Nat} (h : n < 2 ^ 64) : (outLenOf e n).toNat = n := by
  rw [outLenOf_of_lt h, BitVec.toNat_ofNat, Nat.mod_eq_of_lt h]

/-- OUT_LEN never exceeds the output's length, also where its value is free. -/
theorem toNat_outLenOf_le (e n : Nat) : (outLenOf e n).toNat ≤ n := by
  unfold outLenOf
  split
  · rename_i h; rw [BitVec.toNat_ofNat]; exact Nat.mod_le _ _
  · have := (Config.outLenBeyondWord e).isLt; omega

/-- After the normal end the bytes of OUT are the output (R107). -/
theorem State.outByte_complete (s : State) (out : ByteString) (ovf : Bool) {i : Nat}
    (h : i < (s.complete out ovf).outLen.toNat) : some ((s.complete out ovf).outByte i) = out[i]? := by
  have hi : i < out.length := lt_of_lt_of_le h (toNat_outLenOf_le _ _)
  unfold State.outByte
  rw [if_pos h, State.complete_outBuf, Memory.read_writeBytes]
  simp [hi]

/-- After the normal end the output byte string is `out` (10_state.md R27, 40_command_interface.md R107). -/
theorem State.output_complete (s : State) (out : ByteString) (ovf : Bool) (h : out.length < 2 ^ 64) :
    (s.complete out ovf).output = out := by
  have hl : (s.complete out ovf).outLen.toNat = out.length := toNat_outLenOf_of_lt h
  apply List.ext_getElem?
  intro i
  unfold State.output
  by_cases hi : i < out.length
  · rw [List.getElem?_map, List.getElem?_range (by omega)]
    exact State.outByte_complete s out ovf (by omega)
  · rw [List.getElem?_eq_none (by rw [List.length_map, List.length_range]; omega), List.getElem?_eq_none (by omega)]

@[simp] theorem State.input_enter (s : State) (ph : Phase) : (s.enter ph).input = s.input := rfl
@[simp] theorem State.sw_enter (s : State) (ph : Phase) : (s.enter ph).sw = s.sw := rfl

end Sys2Proof.Machine
end

