-- ==== Sys2Proof/Laws/Serializer.lean ====
section
/-! SUPPORT. The laws of the serialized word (41_integer_word_codec.md R120 to R123, R127). -/

namespace Sys2Proof.Machine

@[simp] theorem length_digits (base n v : Nat) : (digits base n v).length = n := by
  induction n with
  | zero => rfl
  | succ n ih => simp [digits, ih]

theorem mem_digits_lt {base n v d : Nat} (hb : 0 < base) (h : d ∈ digits base n v) : d < base := by
  induction n with
  | zero => simp [digits] at h
  | succ n ih =>
    simp only [digits, List.mem_cons] at h
    rcases h with rfl | h
    · exact Nat.mod_lt _ hb
    · exact ih h

/-- The digits of a number lose exactly what is above their count. -/
theorem undigits_digits (base n v : Nat) : undigits base (digits base n v) = v % base ^ n := by
  induction n with
  | zero => simp [digits, undigits, Nat.mod_one]
  | succ n ih =>
    simp only [digits, undigits, length_digits, ih]
    rw [pow_succ, Nat.mod_mul, Nat.mul_comm, Nat.add_comm]

theorem undigits_lt {base : Nat} {ds : List Nat} (h : ∀ d ∈ ds, d < base) : undigits base ds < base ^ ds.length := by
  induction ds with
  | nil => simp [undigits]
  | cons d ds ih =>
    have h1 : d < base := h d (by simp)
    have h2 := ih fun x hx => h x (by simp [hx])
    simp only [undigits, List.length_cons, pow_succ]
    have : (d + 1) * base ^ ds.length ≤ base * base ^ ds.length := Nat.mul_le_mul_right _ h1
    linarith [Nat.add_mul d 1 (base ^ ds.length), Nat.mul_comm base (base ^ ds.length)]

/-- Digits below the base are recovered from their value, whatever stands above them. -/
theorem digits_add_mul {base n k v d : Nat} (hb : 0 < base) (h : n ≤ k) :
    digits base n (v + base ^ k * d) = digits base n v := by
  induction n with
  | zero => rfl
  | succ n ih =>
    simp only [digits, ih (by omega)]
    congr 1
    obtain ⟨j, rfl⟩ : ∃ j, k = n + 1 + j := ⟨k - (n + 1), by omega⟩
    have : base ^ (n + 1 + j) * d = base ^ n * (base * (base ^ j * d)) := by ring
    rw [this, Nat.add_mul_div_left _ _ (Nat.pow_pos hb), Nat.add_mul_mod_self_left]

theorem digits_undigits {base : Nat} (hb : 0 < base) {ds : List Nat} (h : ∀ d ∈ ds, d < base) :
    digits base ds.length (undigits base ds) = ds := by
  induction ds with
  | nil => rfl
  | cons d ds ih =>
    have h2 := fun x hx => h x (List.mem_cons_of_mem d hx)
    have hlt := undigits_lt h2
    simp only [List.length_cons, undigits, digits]
    congr 1
    · rw [Nat.add_comm, Nat.add_mul_div_right _ _ (Nat.pow_pos hb), Nat.div_eq_of_lt hlt, Nat.zero_add,
        Nat.mod_eq_of_lt (h d (by simp))]
    · rw [Nat.add_comm, Nat.mul_comm, digits_add_mul hb (le_refl _), ih h2]

/-- The digit alphabet is read back, in either case of letter (30_encoding.md R75, R76). -/
theorem hexVal_hexDigit (upper : Bool) {n : Nat} (h : n < 16) : hexVal (hexDigit upper n) = some n := by
  cases upper <;> interval_cases n <;> decide

theorem hexVal_lt {c : Byte} {n : Nat} (h : hexVal c = some n) : n < 16 := by
  simp only [hexVal] at h
  split at h
  · cases h; omega
  · split at h
    · cases h; omega
    · split at h
      · cases h; omega
      · cases h

theorem hexVals_map_hexDigit (upper : Bool) {ds : List Nat} (h : ∀ d ∈ ds, d < 16) :
    hexVals (ds.map (hexDigit upper)) = some ds := by
  induction ds with
  | nil => rfl
  | cons d ds ih =>
    simp only [List.map_cons, hexVals, hexVal_hexDigit upper (h d (by simp)), ih fun x hx => h x (by simp [hx])]

/-- A byte string is read as digits exactly when each of its bytes is a digit. -/
theorem hexVals_eq_some {s : ByteString} {ds : List Nat} :
    hexVals s = some ds ↔ s.map hexVal = ds.map some := by
  induction s generalizing ds with
  | nil => cases ds <;> simp [hexVals]
  | cons c cs ih =>
    cases hc : hexVal c with
    | none => cases ds <;> simp [hexVals, hc]
    | some d =>
      cases hcs : hexVals cs with
      | none =>
        cases ds with
        | nil => simp [hexVals, hc, hcs]
        | cons e es =>
          simp only [hexVals, hc, hcs, List.map_cons, List.cons.injEq, Option.some.injEq, reduceCtorEq, false_iff, not_and]
          intro _ h
          rw [← ih, hcs] at h
          cases h
      | some es =>
        have := ih (ds := es)
        cases ds with
        | nil => simp [hexVals, hc, hcs]
        | cons e es' =>
          simp only [hexVals, hc, hcs, List.map_cons, List.cons.injEq, Option.some.injEq, ← ih]

theorem hexVals_eq_none {s : ByteString} : hexVals s = none ↔ ∃ c ∈ s, hexVal c = none := by
  induction s with
  | nil => simp [hexVals]
  | cons c cs ih =>
    cases hc : hexVal c with
    | none => simp [hexVals, hc]
    | some d =>
      cases hcs : hexVals cs with
      | none => simpa [hexVals, hc, hcs] using ih.mp hcs
      | some es =>
        have : ¬∃ c ∈ cs, hexVal c = none := by rw [← ih, hcs]; simp
        simpa [hexVals, hc, hcs] using this

theorem map_toNat_ofNat {ds : List Nat} (h : ∀ d ∈ ds, d < 256) :
    (ds.map (BitVec.ofNat 8)).map BitVec.toNat = ds := by
  induction ds with
  | nil => rfl
  | cons d ds ih =>
    have := h d (by simp)
    simp only [List.map_cons, BitVec.toNat_ofNat, ih fun x hx => h x (by simp [hx])]
    rw [Nat.mod_eq_of_lt (by omega)]

/-- The four widths of the hardware (10_state.md R22). -/
theorem widthOf_cases (cfg : BitVec 3) : widthOf cfg = 8 ∨ widthOf cfg = 16 ∨ widthOf cfg = 32 ∨ widthOf cfg = 64 := by
  unfold widthOf; split <;> simp

theorem serWidth_pos (cfg : BitVec 3) (m : Mode) : 0 < serWidth (widthOf cfg) m := by
  rcases widthOf_cases cfg with h | h | h | h <;> cases m <;> simp [serWidth, h]

theorem State.sw_pos (s : State) : 0 < s.sw := serWidth_pos _ _

theorem State.sw_le (s : State) : s.sw ≤ 16 := by
  unfold State.sw State.wordBits
  rcases widthOf_cases s.cfg with h | h | h | h <;> cases s.mode <;> simp [serWidth, h]

@[simp] theorem length_ser (upper : Bool) (w : Nat) (m : Mode) (v : Nat) : (ser upper w m v).length = serWidth w m := by
  cases m <;> simp [ser]

/-- `Des` reads back what `Ser` writes, for a word (R127). -/
theorem des_ser (upper : Bool) {w : Nat} (hw : 8 ∣ w) (m : Mode) {v : Nat} (hv : v < 2 ^ w) :
    des w m (ser upper w m v) = .ok v := by
  obtain ⟨k, rfl⟩ := hw
  rw [des, if_neg (by simp)]
  unfold desDigits
  cases m with
  | raw =>
    have hk : 8 * k / 8 = k := by omega
    have hm : ∀ d ∈ digits 256 k v, d < 256 := fun d hd => mem_digits_lt (by norm_num) hd
    simp only [ser, serWidth, hk, map_toNat_ofNat hm, undigits_digits]
    rw [Nat.mod_eq_of_lt]
    rwa [show (256 : Nat) = 2 ^ 8 from rfl, ← pow_mul]
  | hex =>
    have hk : 8 * k / 4 = 2 * k := by omega
    have hm : ∀ d ∈ digits 16 (2 * k) v, d < 16 := fun d hd => mem_digits_lt (by norm_num) hd
    simp only [ser, serWidth, hk, hexVals_map_hexDigit upper hm, undigits_digits]
    rw [Nat.mod_eq_of_lt]
    rw [show (16 : Nat) = 2 ^ 4 from rfl, ← pow_mul]
    rwa [show 4 * (2 * k) = 8 * k by ring]

theorem eight_dvd_widthOf (cfg : BitVec 3) : 8 ∣ widthOf cfg := by
  rcases widthOf_cases cfg with h | h | h | h <;> rw [h] <;> decide

/-- The result of `Des` is a word (R122). -/
theorem des_lt {w : Nat} (hw : 8 ∣ w) {m : Mode} {s : ByteString} {v : Nat} (h : des w m s = .ok v) : v < 2 ^ w := by
  obtain ⟨k, rfl⟩ := hw
  unfold des at h
  split at h
  · cases h
  · rename_i hl
    rw [not_not] at hl
    cases m with
    | raw =>
      simp only [desDigits, Except.ok.injEq] at h
      subst h
      have := undigits_lt (base := 256) (ds := s.map BitVec.toNat) (by
        intro d hd; simp only [List.mem_map] at hd; obtain ⟨b, -, rfl⟩ := hd; exact b.isLt)
      have hk : s.length = k := by rw [hl, serWidth]; omega
      rwa [List.length_map, hk, show (256 : Nat) = 2 ^ 8 from rfl, ← pow_mul] at this
    | hex =>
      simp only [desDigits] at h
      split at h
      · cases h
      · rename_i ds hds
        simp only [Except.ok.injEq] at h
        subst h
        rw [hexVals_eq_some] at hds
        have hlen : s.length = ds.length := by simpa using congrArg List.length hds
        have := undigits_lt (base := 16) (ds := ds) (by
          intro d hd
          have : some d ∈ s.map hexVal := by rw [hds]; exact List.mem_map_of_mem hd
          obtain ⟨c, -, hc⟩ := List.mem_map.mp this
          exact hexVal_lt hc)
        have hk : ds.length = 2 * k := by rw [← hlen, hl, serWidth]; omega
        rwa [hk, show (16 : Nat) = 2 ^ 4 from rfl, ← pow_mul, show 4 * (2 * k) = 8 * k by ring] at this

/-- The bytes of `SerW(v)` are `sw` in number (R120, R123). -/
@[simp] theorem State.length_serWord (s : State) (v : Nat) : (s.serWord v).length = s.sw := by
  simp [State.serWord, State.sw]

/-- A word that keeps its high bits is read back (R123, R127). -/
theorem State.des_serWord (s : State) {v : Nat} (h : s.serOverflows v = false) :
    des s.wordBits s.mode (s.serWord v) = .ok v := by
  have hv : v < 2 ^ s.wordBits := by simpa [State.serOverflows] using h
  rw [State.serWord, Nat.mod_eq_of_lt hv]
  exact des_ser _ (eight_dvd_widthOf _) _ hv

/-- Digit `i` (30_encoding.md R73, R74). -/
theorem getElem?_digits (base n v i : Nat) (h : i < n) : (digits base n v)[i]? = some (v / base ^ (n - 1 - i) % base) := by
  induction n generalizing i with
  | zero => omega
  | succ n ih =>
    cases i with
    | zero => simp [digits]
    | succ i =>
      simp only [digits, List.getElem?_cons_succ]
      rw [ih i (by omega)]
      congr 4; omega

/-- The value as R73 and R74 write it, a sum over the digit positions. -/
theorem undigits_eq_sum (base : Nat) (ds : List Nat) : undigits base ds = ((List.range ds.length).map fun i => ds.getD i 0 * base ^ (ds.length - 1 - i)).sum := by
  induction ds with
  | nil => rfl
  | cons d ds ih =>
    rw [undigits, ih, List.length_cons, List.range_succ_eq_map, List.map_cons, List.map_map, List.sum_cons]
    simp only [List.getD_cons_zero, Nat.add_sub_cancel, Nat.sub_zero]
    congr 2
    apply List.map_congr_left
    intro i hi
    simp only [Function.comp, List.getD_cons_succ, Nat.succ_eq_add_one]
    congr 2; omega

/-- A digit's value, printed in lower case (41_integer_word_codec.md R127). -/
theorem hexDigit_lowerDigit (c : Byte) (n : Nat) (h : hexVal c = some n) : hexDigit false n = lowerDigit c := by
  have key : ∀ m < 256, ∀ n < 16, hexVal (BitVec.ofNat 8 m) = some n → hexDigit false n = lowerDigit (BitVec.ofNat 8 m) := by decide +kernel
  have := key c.toNat c.isLt n (hexVal_lt h)
  simp at this; exact this h

end Sys2Proof.Machine
end

