-- ==== Sys2Proof/Laws/Henc.lean ====
section
/-! SUPPORT. What each phase of HUF.ENC does (42_huffman_encoder.md R142 to R149): the counts, the queue, the merge, the codes,
the tree text and the bit string, each by one lemma. -/

namespace Sys2Proof.Machine

/-! ### Indexing by a byte -/

@[simp] theorem tabGet_set {α : Type} (v : Vector α 256) (a b : Byte) (x : α) :
    tabGet (tabSet v a x) b = if a = b then x else tabGet v b := by
  unfold tabGet tabSet
  rw [Vector.getElem_set]
  by_cases h : a = b
  · subst h; simp
  · have : a.toNat ≠ b.toNat := fun h' => h (BitVec.eq_of_toNat_eq h')
    simp [h, this]

@[simp] theorem tabGet_replicate {α : Type} (b : Byte) (x : α) : tabGet (Vector.replicate 256 x) b = x := by
  unfold tabGet
  rw [Vector.getElem_replicate]

theorem nodup_allBytes : allBytes.Nodup := by
  unfold allBytes
  refine List.Nodup.map_on ?_ List.nodup_range
  intro a ha b hb h
  have := congrArg BitVec.toNat h
  simp only [BitVec.toNat_ofNat, List.mem_range] at *
  omega

@[simp] theorem mem_allBytes (b : Byte) : b ∈ allBytes := by
  unfold allBytes
  refine List.mem_map.mpr ⟨b.toNat, List.mem_range.mpr b.isLt, ?_⟩
  simp

@[simp] theorem mem_symbolsOf {b : Byte} {input : ByteString} : b ∈ symbolsOf input ↔ b ∈ input := by
  simp [symbolsOf]

theorem nodup_symbolsOf (input : ByteString) : (symbolsOf input).Nodup := nodup_allBytes.filter _

theorem length_symbolsOf_le (input : ByteString) : (symbolsOf input).length ≤ 256 := by
  have : (symbolsOf input).length ≤ allBytes.length := List.length_filter_le _ _
  simpa [allBytes] using this

/-! ### What HUF.ENC keeps -/

/-- The part of the state HUF.ENC never changes: everything but PHASE, IPOS and the encoder's working state. -/
def hencKept (s : State) :=
  ((s.cfg, s.status, s.errCode, s.inLen, s.outLen, s.value, s.inBuf, s.outBuf),
   (s.latch, s.lzw, s.outAcc, s.huf.bits, s.huf.nodePtr),
   (s.params, s.pending, s.readLog, s.inEpoch, s.outEpoch))

theorem countBytes_keeps (bs : ByteString) (s : State) : (countBytes bs s).Keeps hencKept (hencKept s) := by
  induction bs generalizing s with
  | nil => rfl
  | cons b bs ih =>
    unfold countBytes
    dsimp only
    split
    · rfl
    · exact ih _

theorem queueLeaves_keeps (bs : List Byte) (s : State) : (queueLeaves bs s).Keeps hencKept (hencKept s) := by
  induction bs generalizing s with
  | nil => rfl
  | cons b bs ih =>
    unfold queueLeaves
    dsimp only
    split
    · exact ih _
    · split
      · rfl
      · exact ih _

theorem mergeLoop_keeps (fuel : Nat) (s : State) : (mergeLoop fuel s).Keeps hencKept (hencKept s) := by
  induction fuel generalizing s with
  | zero => rfl
  | succ fuel ih =>
    unfold mergeLoop
    split
    · dsimp only
      split
      · rfl
      · split
        · rfl
        · exact ih _
    · rfl
    · rfl

theorem fillCodes_keeps (es : List (Byte × ByteString)) (s : State) : (fillCodes es s).Keeps hencKept (hencKept s) := by
  induction es generalizing s with
  | nil => rfl
  | cons e es ih =>
    obtain ⟨b, c⟩ := e
    unfold fillCodes
    split
    · rfl
    · exact ih _

theorem takeRoot_keeps {c : Ctl} {a} (h : c.Keeps hencKept a) : (takeRoot c).Keeps hencKept a := by
  cases c with
  | go s => unfold takeRoot; dsimp only; split <;> first | exact h | trivial
  | finish s o v => exact h
  | raise s e => exact h
  | undefined => trivial

theorem hencPhases_keep (input : ByteString) :
    ∀ p ∈ hencPhases input, ∀ s, (p.2 s).Keeps hencKept (hencKept s) := by
  intro p hp s
  simp only [hencPhases, List.mem_cons, List.not_mem_nil, or_false] at hp
  rcases hp with rfl | rfl | rfl | rfl | rfl | rfl | rfl <;> dsimp only
  · unfold hencEmpty; split <;> rfl
  · exact countBytes_keeps _ _
  · exact queueLeaves_keeps _ _
  · exact takeRoot_keeps (mergeLoop_keeps _ _)
  · exact fillCodes_keeps _ _
  · unfold hencTreeText; split <;> first | rfl | trivial
  · unfold hencFrame; split <;> first | rfl | trivial

/-! ### Step 2, the counts -/

/-- The only error of HUF.ENC's loops: a limit of the internal tables. -/
def LimitError (p : Params) (_ : State) (e : ErrKind) : Prop := e = .capacityExceeded ∧ ¬p.noTableLimit

theorem freqBeyond_limit {p : Params} {f : Nat} (h : freqBeyond p f = true) : ¬p.noTableLimit := by
  intro hp; simp [freqBeyond, hp.1] at h

theorem codeBeyond_limit {p : Params} {n : Nat} (h : codeBeyond p n = true) : ¬p.noTableLimit := by
  intro hp; simp [codeBeyond, hp.2.1] at h

theorem nodesBeyond_limit {p : Params} {n : Nat} (h : nodesBeyond p n = true) : ¬p.noTableLimit := by
  intro hp; simp [nodesBeyond, hp.2.2.1] at h

theorem dictBeyond_limit {p : Params} {n : Nat} (h : dictBeyond p n = true) : ¬p.noTableLimit := by
  intro hp; simp [dictBeyond, hp.2.2.2] at h

/-- The counting loop adds each symbol's count (R142). -/
theorem countBytes_sat (bs : ByteString) (s : State) :
    (countBytes bs s).Sat (fun t => ∀ b, t.freqOf b = s.freqOf b + bs.count b) (fun _ _ _ => False)
      (LimitError s.params) := by
  induction bs generalizing s with
  | nil => simp [countBytes]
  | cons b bs ih =>
    unfold countBytes
    dsimp only
    split
    · rename_i h; exact ⟨rfl, freqBeyond_limit h⟩
    · refine (ih _).mono ?_ (fun _ _ _ h => h) (fun _ _ h => h)
      intro t ht c
      rw [ht c]
      simp only [State.freqOf, tabGet_set, State.consume_huf]
      by_cases h : b = c
      · subst h; simp; omega
      · simp [h]

/-- H2_COUNT (R142). -/
theorem hencCount_sat (input : ByteString) (s : State) :
    (hencCount input s).Sat (fun t => ∀ b, t.freqOf b = input.count b) (fun _ _ _ => False) (LimitError s.params) := by
  refine (countBytes_sat input _).mono ?_ (fun _ _ _ h => h) (fun _ _ h => h)
  intro t ht b
  rw [ht b]
  simp [State.freqOf]

/-! ### Step 3, the queue -/

theorem insertEntry_perm (e : QEntry) (q : List QEntry) : (insertEntry e q).Perm (e :: q) := by
  induction q with
  | nil => exact .refl _
  | cons a q ih =>
    unfold insertEntry
    split
    · exact .refl _
    · exact (ih.cons a).trans (.swap e a q)

@[simp] theorem length_insertEntry (e : QEntry) (q : List QEntry) : (insertEntry e q).length = q.length + 1 := by
  simpa using (insertEntry_perm e q).length_eq

/-- The loop of step 3 inserts one leaf entry per symbol with a count (R143). -/
theorem queueLeaves_sat (bs : List Byte) (s : State) :
    (queueLeaves bs s).Sat
      (fun t => t.huf.pq.Perm (((bs.filter fun b => s.freqOf b ≠ 0).map (leafEntry s.freqOf)) ++ s.huf.pq) ∧
        t.huf.freq = s.huf.freq ∧ t.huf.merges = s.huf.merges)
      (fun _ _ _ => False) (LimitError s.params) := by
  induction bs generalizing s with
  | nil => simp [queueLeaves]
  | cons b bs ih =>
    unfold queueLeaves
    dsimp only
    split
    · rename_i h
      refine (ih s).mono ?_ (fun _ _ _ h => h) (fun _ _ h => h)
      rintro t ⟨h1, h2, h3⟩
      refine ⟨?_, h2, h3⟩
      rwa [List.filter_cons_of_neg (by rw [decide_eq_true_iff, not_not]; exact h)]
    · rename_i h
      split
      · rename_i h'; exact ⟨rfl, nodesBeyond_limit h'⟩
      · refine (ih _).mono ?_ (fun _ _ _ h => h) (fun _ _ h => h)
        rintro t ⟨h1, h2, h3⟩
        refine ⟨?_, h2, h3⟩
        rw [List.filter_cons_of_pos (by rw [decide_eq_true_iff]; exact h), List.map_cons, List.cons_append]
        refine h1.trans ?_
        refine ((insertEntry_perm _ _).append_left _).trans ?_
        exact List.perm_middle

/-- A queue as PQ holds it: strictly sorted by R143's order, no sequence number of `k` merges or more in use. -/
def QueueSorted (k : Nat) (q : List QEntry) : Prop :=
  q.Pairwise (fun a b => a.before b = true) ∧ ∀ e ∈ q, e.seq < 256 + k

theorem QEntry.before_total {a b : QEntry} (h : a.seq ≠ b.seq) (hab : a.before b = false) : b.before a = true := by
  simp only [QEntry.before, decide_eq_false_iff_not, decide_eq_true_eq] at *
  omega

theorem QEntry.before_trans {a b c : QEntry} (h1 : a.before b = true) (h2 : b.before c = true) : a.before c = true := by
  simp only [QEntry.before, decide_eq_true_eq] at *
  omega

/-- Inserting an entry with a new sequence number keeps the queue sorted (R143). -/
theorem insertEntry_sorted {e : QEntry} {q : List QEntry} (hq : q.Pairwise fun a b => a.before b = true)
    (he : ∀ x ∈ q, x.seq ≠ e.seq) : (insertEntry e q).Pairwise fun a b => a.before b = true := by
  induction q with
  | nil => simp [insertEntry]
  | cons a q ih =>
    rw [List.pairwise_cons] at hq
    unfold insertEntry
    split
    · rename_i h
      refine List.pairwise_cons.mpr ⟨?_, List.pairwise_cons.mpr hq⟩
      intro x hx
      rcases List.mem_cons.mp hx with rfl | hx
      · exact h
      · exact QEntry.before_trans h (hq.1 x hx)
    · rename_i h
      refine List.pairwise_cons.mpr ⟨?_, ih hq.2 fun x hx => he x (by simp [hx])⟩
      intro x hx
      rcases List.mem_cons.mp ((insertEntry_perm e q).mem_iff.mp hx) with rfl | hx
      · exact QEntry.before_total (Ne.symm (he a (by simp))) (by simpa using h)
      · exact hq.1 x hx

/-- The loop of step 3 leaves a sorted queue (R143). -/
theorem queueLeaves_sorted (bs : List Byte) (s : State) (hn : bs.Nodup) (hs : QueueSorted 0 s.huf.pq)
    (hd : ∀ e ∈ s.huf.pq, ∀ b ∈ bs, e.seq ≠ b.toNat) :
    (queueLeaves bs s).Sat (fun t => QueueSorted 0 t.huf.pq) (fun _ _ _ => False) (fun _ _ => True) := by
  induction bs generalizing s with
  | nil => exact hs
  | cons b bs ih =>
    rw [List.nodup_cons] at hn
    unfold queueLeaves
    dsimp only
    split
    · exact ih s hn.2 hs fun e he c hc => hd e he c (by simp [hc])
    · split
      · trivial
      · refine ih _ hn.2 ⟨insertEntry_sorted hs.1 fun x hx => hd x hx b (by simp), ?_⟩ ?_
        · intro e he
          rcases List.mem_cons.mp ((insertEntry_perm _ _).mem_iff.mp he) with rfl | he
          · exact b.isLt
          · exact hs.2 e he
        · intro e he c hc
          rcases List.mem_cons.mp ((insertEntry_perm _ _).mem_iff.mp he) with rfl | he
          · intro h; exact hn.1 (BitVec.eq_of_toNat_eq h ▸ hc)
          · exact hd e he c (by simp [hc])

theorem hencQueue_sorted (s : State) :
    (hencQueue s).Sat (fun t => QueueSorted 0 t.huf.pq) (fun _ _ _ => False) (fun _ _ => True) :=
  queueLeaves_sorted _ _ nodup_allBytes ⟨List.Pairwise.nil, by simp⟩ (by simp)

theorem freq_ne_zero_iff {input : ByteString} {s : State} (h : ∀ b, s.freqOf b = input.count b) (b : Byte) :
    s.freqOf b ≠ 0 ↔ b ∈ input := by
  rw [h b, Nat.ne_zero_iff_zero_lt, List.count_pos_iff]

/-- H3_QUEUE (R143). -/
theorem hencQueue_sat {input : ByteString} {s : State} (h : ∀ b, s.freqOf b = input.count b) :
    (hencQueue s).Sat
      (fun t => t.huf.pq.Perm ((symbolsOf input).map (leafEntry fun b => input.count b)) ∧
        (∀ b, t.freqOf b = input.count b) ∧ t.huf.merges = 0)
      (fun _ _ _ => False) (LimitError s.params) := by
  refine (queueLeaves_sat allBytes _).mono ?_ (fun _ _ _ h => h) (fun _ _ h => h)
  rintro t ⟨h1, h2, h3⟩
  have hf : s.freqOf = fun b => input.count b := funext h
  refine ⟨?_, ?_, h3⟩
  · refine h1.trans ?_
    simp only [List.append_nil]
    have hf' : State.freqOf { s with huf := { s.huf with pq := [], merges := 0 } } = fun b => input.count b := hf
    rw [hf']
    have : (allBytes.filter fun b => decide (input.count b ≠ 0)) = symbolsOf input := by
      unfold symbolsOf
      congr 1
      funext b
      simp [List.count_eq_zero]
    rw [this]
  · intro b
    rw [← h b]
    simp only [State.freqOf, h2]

/-! ### Step 4, the merge -/

/-- The symbols on the leaves of a queue's trees. -/
def queueSymbols (q : List QEntry) : List Byte := q.flatMap fun e => e.tree.leaves

/-- The sum of a queue's frequencies. -/
def queueFreq (q : List QEntry) : Nat := (q.map QEntry.freq).sum

/-- The merge loop keeps the symbols, the sum of frequencies and the fullness of the trees, and ends with one entry after one
merge less than there were entries (R144, R145). -/
theorem mergeLoop_sat (fuel : Nat) (s : State) (hfuel : s.huf.pq.length ≤ fuel) (hne : s.huf.pq ≠ [])
    (hfull : ∀ e ∈ s.huf.pq, e.tree.full = true) :
    (mergeLoop fuel s).Sat
      (fun t => t.huf.pq.length = 1 ∧ (queueSymbols t.huf.pq).Perm (queueSymbols s.huf.pq) ∧
        queueFreq t.huf.pq = queueFreq s.huf.pq ∧ (∀ e ∈ t.huf.pq, e.tree.full = true) ∧
        t.huf.merges + 1 = s.huf.merges + s.huf.pq.length ∧ t.huf.freq = s.huf.freq)
      (fun _ _ _ => False) (LimitError s.params) := by
  induction fuel generalizing s with
  | zero => exact absurd (List.length_eq_zero_iff.mp (Nat.le_zero.mp hfuel)) hne
  | succ fuel ih =>
    unfold mergeLoop
    split
    · rename_i e1 e2 rest hq
      dsimp only
      split
      · rename_i h; exact ⟨rfl, freqBeyond_limit h⟩
      · split
        · rename_i h; exact ⟨rfl, nodesBeyond_limit h⟩
        · set e : QEntry := ⟨e1.freq + e2.freq, 256 + s.huf.merges, .node e1.tree e2.tree⟩ with he
          have hp := insertEntry_perm e rest
          rw [hq] at hfuel hfull
          simp only [List.length_cons] at hfuel
          refine (ih _ ?_ ?_ ?_).mono ?_ (fun _ _ _ h => h) (fun _ _ h => h)
          · simp; omega
          · intro h
            have := congrArg List.length h
            simp at this
          · intro x hx
            rcases List.mem_cons.mp (hp.mem_iff.mp hx) with rfl | hx
            · simp [he, Tree.full, hfull e1 (by simp), hfull e2 (by simp)]
            · exact hfull x (by simp [hx])
          · rintro t ⟨h1, h2, h3, h4, h5, h6⟩
            refine ⟨h1, ?_, ?_, h4, ?_, h6⟩
            · rw [hq]
              refine h2.trans ((hp.flatMap_right _).trans ?_)
              simp [he, queueSymbols, Tree.leaves]
            · rw [h3, hq]
              unfold queueFreq
              rw [(hp.map QEntry.freq).sum_eq]
              simp [he]; omega
            · rw [h5, hq]
              simp; omega
    · rename_i hq; exact absurd hq hne
    · rename_i e hq
      simp only [Ctl.sat_go, hq, List.length_singleton, List.Perm.refl, true_and]
      rw [hq] at hfull
      exact ⟨hfull, trivial⟩

theorem MergesTo.perm {q q' : List QEntry} {k : Nat} {t : Tree} (h : MergesTo q k t) (hp : q.Perm q') : MergesTo q' k t := by
  obtain ⟨e, k⟩ | ⟨_, rest, e1, e2, k, t, hq, h1, h2, h⟩ := h
  · rw [← List.singleton_perm.mp hp]; exact .root e k
  · exact .merge q' rest e1 e2 k t (hp.symm.trans hq) h1 h2 h

/-- The merge loop merges by R144, always the two least entries. -/
theorem mergeLoop_merges (fuel : Nat) (s : State) (hfuel : s.huf.pq.length ≤ fuel) (hne : s.huf.pq ≠ [])
    (hs : QueueSorted s.huf.merges s.huf.pq) :
    (mergeLoop fuel s).Sat (fun t => ∀ e ∈ t.huf.pq, MergesTo s.huf.pq s.huf.merges e.tree) (fun _ _ _ => False)
      (fun _ _ => True) := by
  induction fuel generalizing s with
  | zero => exact absurd (List.length_eq_zero_iff.mp (Nat.le_zero.mp hfuel)) hne
  | succ fuel ih =>
    unfold mergeLoop
    split
    · rename_i e1 e2 rest hq
      dsimp only
      split
      · trivial
      · split
        · trivial
        · rw [hq] at hfuel hs
          obtain ⟨hp, hseq⟩ := hs
          rw [List.pairwise_cons, List.pairwise_cons] at hp
          simp only [List.length_cons] at hfuel
          have hnew : ∀ x ∈ rest, x.seq ≠ 256 + s.huf.merges := fun x hx => by
            have := hseq x (by simp [hx]); omega
          refine (ih _ ?_ ?_ ?_).mono ?_ (fun _ _ _ h => h) (fun _ _ h => h)
          · simp; omega
          · intro h
            have := congrArg List.length h
            simp at this
          · refine ⟨insertEntry_sorted hp.2.2 hnew, ?_⟩
            intro x hx
            show x.seq < 256 + (s.huf.merges + 1)
            rcases List.mem_cons.mp ((insertEntry_perm _ _).mem_iff.mp hx) with rfl | hx
            · show 256 + s.huf.merges < _; omega
            · have := hseq x (by simp [hx]); omega
          · intro t ht e he
            rw [hq]
            exact .merge _ rest e1 e2 _ _ (.refl _) hp.1 hp.2.1 ((ht e he).perm (insertEntry_perm _ _))
    · rename_i hq; exact absurd hq hne
    · rename_i e hq
      intro x hx
      rw [hq] at hx ⊢
      simp only [List.mem_singleton] at hx
      subst hx
      exact .root x _

theorem sum_count_symbols (input : ByteString) : ((symbolsOf input).map fun b => input.count b).sum = input.length := by
  have key : ∀ l : List Byte, l.Nodup → (∀ b ∈ input, b ∈ l) →
      (l.map fun b => input.count b).sum = input.length := by
    induction input with
    | nil => intro l _ _; simp
    | cons x xs ih =>
      intro l hl hm
      have hx : x ∈ l := hm x (by simp)
      have h1 := ih l hl fun b hb => hm b (by simp [hb])
      have h2 : (l.map fun b => (x :: xs).count b).sum = (l.map fun b => xs.count b).sum + (l.map fun b => if x = b then 1 else 0).sum := by
        rw [← List.sum_map_add]
        congr 1
        apply List.map_congr_left
        intro b _
        rw [List.count_cons]
        simp
      rw [h2, h1]
      have h3 : (l.map fun b => if x = b then 1 else 0).sum = 1 := by
        have h4 : (l.map fun b => if x = b then 1 else 0).sum = l.count x := by
          clear hl hm h1 h2 hx ih
          induction l with
          | nil => rfl
          | cons a l ihl =>
            simp only [List.map_cons, List.sum_cons, ihl, List.count_cons]
            by_cases h : x = a
            · subst h; simp; omega
            · have : (a == x) = false := by simpa using Ne.symm h
              simp [h, this]
        rw [h4, List.count_eq_one_of_mem hl hx]
      rw [h3]; simp
  exact key _ (nodup_symbolsOf input) fun b hb => by simpa using hb

/-- H4_MERGE (R144, R145). -/
theorem hencMerge_sat {input : ByteString} {s : State} (hne : input ≠ [])
    (hq : s.huf.pq.Perm ((symbolsOf input).map (leafEntry fun b => input.count b)))
    (hf : ∀ b, s.freqOf b = input.count b) (hm : s.huf.merges = 0) (hs : QueueSorted 0 s.huf.pq) :
    (hencMerge s).Sat (HencTree input) (fun _ _ _ => False) (LimitError s.params) := by
  have hlen : s.huf.pq.length = (symbolsOf input).length := by simpa using hq.length_eq
  have hpos : s.huf.pq ≠ [] := by
    intro h
    rw [h] at hlen
    obtain ⟨b, hb⟩ := List.exists_mem_of_ne_nil _ hne
    have := List.length_pos_of_mem (mem_symbolsOf.mpr hb)
    simp at hlen; omega
  have hfull : ∀ e ∈ s.huf.pq, e.tree.full = true := by
    intro e he
    obtain ⟨b, -, rfl⟩ := List.mem_map.mp (hq.mem_iff.mp he)
    rfl
  have h := (mergeLoop_sat s.huf.pq.length s (le_refl _) hpos hfull).and
    (mergeLoop_merges s.huf.pq.length s (le_refl _) hpos (by rw [hm]; exact hs))
  unfold hencMerge
  cases hc : mergeLoop s.huf.pq.length s with
  | go t =>
    rw [hc] at h
    obtain ⟨⟨h1, h2, h3, h4, h5, h6⟩, h7⟩ := h
    obtain ⟨e, he⟩ := List.length_eq_one_iff.mp h1
    simp only [takeRoot, he, Ctl.sat_go]
    rw [he] at h2 h3 h4 h7
    refine ⟨h4 e (by simp), ?_, ?_, ⟨e, rfl, rfl, ?_⟩, ?_, by rw [← hm]; exact (h7 e (by simp)).perm hq⟩
    · have : queueSymbols [e] = e.tree.leaves := by simp [queueSymbols]
      rw [this] at h2
      refine h2.trans ((hq.flatMap_right _).trans ?_)
      simp [List.flatMap_map, leafEntry, Tree.leaves]
    · have : t.huf.merges + 1 = (symbolsOf input).length := by rw [h5, hm, hlen]; simp
      exact this
    · have : queueFreq [e] = e.freq := by simp [queueFreq]
      rw [this] at h3
      rw [h3]
      unfold queueFreq
      rw [(hq.map QEntry.freq).sum_eq, List.map_map, ← sum_count_symbols input]
      rfl
    · intro b
      rw [← hf b]
      simp only [State.freqOf, h6]
  | finish t o v => rw [hc] at h; exact h.1.elim
  | raise t e => rw [hc] at h; exact h.1
  | undefined => rw [hc] at h; exact h.elim

/-! ### Step 5, the codes -/

theorem leafCodes_fst (t : Tree) (p : ByteString) : (leafCodes t p).map Prod.fst = t.leaves := by
  induction t generalizing p with
  | absent => rfl
  | leaf b => rfl
  | node l r ihl ihr => simp [leafCodes, Tree.leaves, ihl, ihr]

theorem codesOf_fst (t : Tree) : (codesOf t).map Prod.fst = t.leaves := by
  cases t with
  | absent => rfl
  | leaf b => rfl
  | node l r => exact leafCodes_fst _ _

/-- Each path of the walk extends the path it started from. -/
theorem leafCodes_extend {t : Tree} {p : ByteString} {e : Byte × ByteString} (h : e ∈ leafCodes t p) : p <+: e.2 := by
  induction t generalizing p with
  | absent => simp [leafCodes] at h
  | leaf b => simp [leafCodes] at h; subst h; exact List.prefix_refl _
  | node l r ihl ihr =>
    simp only [leafCodes, List.mem_append] at h
    rcases h with h | h
    · exact (List.prefix_append _ _).trans (ihl h)
    · exact (List.prefix_append _ _).trans (ihr h)

theorem leafCodes_bits {t : Tree} {p : ByteString} (hp : IsBits p) {e : Byte × ByteString} (h : e ∈ leafCodes t p) :
    IsBits e.2 := by
  induction t generalizing p with
  | absent => simp [leafCodes] at h
  | leaf b => simp [leafCodes] at h; subst h; exact hp
  | node l r ihl ihr =>
    simp only [leafCodes, List.mem_append] at h
    rcases h with h | h
    · refine ihl ?_ h
      intro x hx
      rcases List.mem_append.mp hx with hx | hx
      · exact hp x hx
      · simp at hx; exact .inl hx
    · refine ihr ?_ h
      intro x hx
      rcases List.mem_append.mp hx with hx | hx
      · exact hp x hx
      · simp at hx; exact .inr hx

theorem incomparable_append_left {p c d : ByteString} (h : Incomparable c d) : Incomparable (p ++ c) (p ++ d) := by
  constructor
  · intro h'; exact h.1 ((List.prefix_append_right_inj p).mp h')
  · intro h'; exact h.2 ((List.prefix_append_right_inj p).mp h')

theorem incomparable_of_bit {p c d : ByteString} (hc : (p ++ [chZero]) <+: c) (hd : (p ++ [chOne]) <+: d) :
    Incomparable c d := by
  obtain ⟨c', rfl⟩ := hc
  obtain ⟨d', rfl⟩ := hd
  simp only [List.append_assoc, List.singleton_append]
  refine incomparable_append_left ?_
  constructor <;> · intro h; have := (List.cons_prefix_cons.mp h).1; revert this; decide

theorem leafCodes_prefixFree (t : Tree) (p : ByteString) :
    (leafCodes t p).Pairwise fun a b => Incomparable a.2 b.2 := by
  induction t generalizing p with
  | absent => simp [leafCodes]
  | leaf b => simp [leafCodes]
  | node l r ihl ihr =>
    simp only [leafCodes, List.pairwise_append]
    refine ⟨ihl _, ihr _, ?_⟩
    intro a ha b hb
    exact incomparable_of_bit (leafCodes_extend ha) (leafCodes_extend hb)

/-- The codes of a tree can be built from, and no code is empty (R147, R151 b, c). -/
theorem codesOf_entries (t : Tree) : CodeEntries (codesOf t) := by
  cases t with
  | absent => exact ⟨by simp [codesOf], by simp [codesOf], by simp [codesOf]⟩
  | leaf b =>
    refine ⟨?_, ?_, ?_⟩
    · intro e he; simp [codesOf] at he; subst he; intro x hx; simp at hx; exact .inl hx
    · intro e he; simp [codesOf] at he; subst he; simp
    · simp [codesOf]
  | node l r =>
    refine ⟨fun e he => leafCodes_bits (by intro x hx; simp at hx) he, ?_, leafCodes_prefixFree _ _⟩
    intro e he
    simp only [codesOf, leafCodes, List.mem_append] at he
    rcases he with he | he
    · have := (leafCodes_extend he).length_le; intro h; rw [h] at this; simp at this
    · have := (leafCodes_extend he).length_le; intro h; rw [h] at this; simp at this

/-- The codes are paths: the leaf at the end of a symbol's code holds the symbol (R146). -/
theorem symbolAt_of_leafCodes {t : Tree} {p c : ByteString} {b : Byte} (h : (b, p ++ c) ∈ leafCodes t p) :
    t.symbolAt c = some b := by
  induction t generalizing p c with
  | absent => simp [leafCodes] at h
  | leaf s =>
    simp only [leafCodes, List.mem_singleton, Prod.mk.injEq] at h
    obtain ⟨rfl, h⟩ := h
    have : c = [] := by simpa using h
    subst this; rfl
  | node l r ihl ihr =>
    simp only [leafCodes, List.mem_append] at h
    rcases h with h | h
    · obtain ⟨c', hc'⟩ := leafCodes_extend h
      have : c = chZero :: c' := by
        have h' : p ++ (chZero :: c') = p ++ c := by rw [← show p ++ [chZero] ++ c' = p ++ c from hc']; simp
        exact (List.append_cancel_left h').symm
      subst this
      rw [show p ++ chZero :: c' = (p ++ [chZero]) ++ c' by simp] at h
      simpa [Tree.symbolAt] using ihl h
    · obtain ⟨c', hc'⟩ := leafCodes_extend h
      have : c = chOne :: c' := by
        have h' : p ++ (chOne :: c') = p ++ c := by rw [← show p ++ [chOne] ++ c' = p ++ c from hc']; simp
        exact (List.append_cancel_left h').symm
      subst this
      rw [show p ++ chOne :: c' = (p ++ [chOne]) ++ c' by simp] at h
      have hne : chOne ≠ chZero := by decide
      simpa [Tree.symbolAt, hne] using ihr h

/-- The loop of step 5 writes its entries, none twice, and no other (R146). -/
theorem fillCodes_sat (es : List (Byte × ByteString)) (s : State) (hn : (es.map Prod.fst).Nodup) :
    (fillCodes es s).Sat
      (fun t => (∀ e ∈ es, t.codeOf e.1 = some e.2) ∧ (∀ b ∉ es.map Prod.fst, t.codeOf b = s.codeOf b) ∧
        t.huf.tree = s.huf.tree ∧ t.huf.pq = s.huf.pq ∧ t.huf.merges = s.huf.merges ∧ t.huf.freq = s.huf.freq)
      (fun _ _ _ => False) (LimitError s.params) := by
  induction es generalizing s with
  | nil => simp [fillCodes]
  | cons e es ih =>
    obtain ⟨b, c⟩ := e
    simp only [List.map_cons, List.nodup_cons] at hn
    unfold fillCodes
    split
    · rename_i h; exact ⟨rfl, codeBeyond_limit h⟩
    · refine (ih _ hn.2).mono ?_ (fun _ _ _ h => h) (fun _ _ h => h)
      rintro t ⟨h1, h2, h3⟩
      refine ⟨?_, ?_, h3⟩
      · intro e he
        rcases List.mem_cons.mp he with rfl | he
        · rw [h2 _ hn.1]
          simp [State.codeOf, tabGet_set]
        · exact h1 e he
      · intro a ha
        simp only [List.map_cons, List.mem_cons, not_or] at ha
        rw [h2 a ha.2]
        simp [State.codeOf, tabGet_set, Ne.symm ha.1]

theorem HencTree.mem_leaves {input : ByteString} {t : State} (h : HencTree input t) (b : Byte) :
    b ∈ t.huf.tree.leaves ↔ b ∈ input := by
  rw [h.leaves.mem_iff, mem_symbolsOf]

theorem HencTree.nodup {input : ByteString} {t : State} (h : HencTree input t) : t.huf.tree.leaves.Nodup :=
  h.leaves.nodup_iff.mpr (nodup_symbolsOf input)

/-- H5_CODES (R146, R147). -/
theorem hencCodes_sat {input : ByteString} {s : State} (h : HencTree input s) :
    (hencCodes s).Sat (HencCodes input) (fun _ _ _ => False) (LimitError s.params) := by
  have hn : ((codesOf s.huf.tree).map Prod.fst).Nodup := by rw [codesOf_fst]; exact h.nodup
  refine (fillCodes_sat _ _ hn).mono ?_ (fun _ _ _ h => h) (fun _ _ h => h)
  rintro t ⟨h1, h2, h3, h4, h5, h6⟩
  have h3' : t.huf.tree = s.huf.tree := h3
  refine ⟨⟨?_, ?_, ?_, ?_, ?_, by rw [h3']; exact h.merged⟩, ?_, ?_⟩
  · rw [h3']; exact h.full
  · rw [h3']; exact h.leaves
  · rw [show t.huf.merges = s.huf.merges from h5]; exact h.merges
  · obtain ⟨e, he⟩ := h.queue
    rw [h3', show t.huf.pq = s.huf.pq from h4]
    exact ⟨e, he⟩
  · intro b
    rw [← h.freq b]
    simp only [State.freqOf, show t.huf.freq = s.huf.freq from h6]
  · rw [h3']; exact h1
  · intro b hb
    rw [h2 b (by rw [codesOf_fst, h.mem_leaves]; exact hb)]
    simp [State.codeOf]

/-! ### Steps 6 and 7, the tree text and the bit string -/

theorem entriesText_append (a b : List (Byte × ByteString)) : entriesText (a ++ b) = entriesText a ++ entriesText b := by
  simp [entriesText]

theorem treeText_of_codes {tab : Vector (Option ByteString) 256} {t : Tree} {p : ByteString} (hf : t.full = true)
    (h : ∀ e ∈ leafCodes t p, tabGet tab e.1 = some e.2) :
    treeText tab t = some (entriesText (leafCodes t p)) := by
  induction t generalizing p with
  | absent => simp [Tree.full] at hf
  | leaf b =>
    have := h (b, p) (by simp [leafCodes])
    simp only at this
    simp [treeText, this, leafCodes, entriesText]
  | node l r ihl ihr =>
    simp only [Tree.full, Bool.and_eq_true] at hf
    have h1 := ihl hf.1 fun e he => h e (by simp only [leafCodes, List.mem_append]; exact .inl he)
    have h2 := ihr hf.2 fun e he => h e (by simp only [leafCodes, List.mem_append]; exact .inr he)
    simp [treeText, h1, h2, leafCodes, entriesText_append]

/-- The tree text is the text of the tree's codes in pre-order (R148, 30_encoding.md R79). -/
theorem HencCodes.treeText {input : ByteString} {s : State} (h : HencCodes input s) :
    treeText s.huf.codeTab s.huf.tree = some (entriesText (codesOf s.huf.tree)) := by
  have hf := h.full
  have hc := h.code
  cases ht : s.huf.tree with
  | absent => rw [ht] at hf; simp [Tree.full] at hf
  | leaf b =>
    have := hc (b, [chZero]) (by rw [ht]; simp [codesOf])
    simp only [State.codeOf] at this
    simp [Machine.treeText, this, codesOf, entriesText]
  | node l r =>
    rw [ht] at hf hc
    exact treeText_of_codes hf hc

/-- H6_TREETEXT (R148). -/
theorem hencTreeText_sat {input : ByteString} {s : State} (h : HencCodes input s) :
    (hencTreeText s).Sat (HencText input) (fun _ _ _ => False) (LimitError s.params) := by
  unfold hencTreeText
  rw [h.treeText]
  exact ⟨⟨⟨h.full, h.leaves, h.merges, h.queue, h.freq, h.merged⟩, h.code, h.noCode⟩, rfl, rfl⟩

/-- Every symbol of the input has a code (R149). -/
theorem HencCodes.codeOf_mem {input : ByteString} {s : State} (h : HencCodes input s) {b : Byte} (hb : b ∈ input) :
    ∃ c, (b, c) ∈ codesOf s.huf.tree ∧ s.codeOf b = some c := by
  have : b ∈ (codesOf s.huf.tree).map Prod.fst := by rw [codesOf_fst, h.mem_leaves]; exact hb
  obtain ⟨⟨b', c⟩, he, rfl⟩ := List.mem_map.mp this
  exact ⟨c, he, h.code _ he⟩

/-- The bit string is the concatenation of the symbols' codes (R149, 30_encoding.md R81). -/
theorem bitString_eq {tab : Vector (Option ByteString) 256} {input : ByteString}
    (h : ∀ b ∈ input, (tabGet tab b).isSome) :
    bitString tab input = some (input.flatMap fun b => (tabGet tab b).getD []) := by
  induction input with
  | nil => rfl
  | cons b bs ih =>
    have h1 := h b (by simp)
    obtain ⟨c, hc⟩ := Option.isSome_iff_exists.mp h1
    simp [bitString, ih fun x hx => h x (by simp [hx]), hc]

/-- H7_FRAME (R149). -/
theorem hencFrame_sat {input : ByteString} {s : State} (h : HencText input s) :
    (hencFrame input s).Sat (fun _ => False)
      (fun t out ovf => HencText input t ∧ t.huf = s.huf ∧
        out = frameOf (s.serWord s.huf.treeLen) s.huf.tbuf (s.bitsOf input) ∧ ovf = s.serOverflows s.huf.treeLen)
      (LimitError s.params) := by
  unfold hencFrame
  have : ∀ b ∈ input, (tabGet s.huf.codeTab b).isSome := by
    intro b hb
    obtain ⟨c, -, hc⟩ := h.codeOf_mem hb
    rw [show tabGet s.huf.codeTab b = some c from hc]; rfl
  rw [bitString_eq this]
  exact ⟨⟨⟨⟨h.full, h.leaves, h.merges, h.queue, h.freq, h.merged⟩, h.code, h.noCode⟩, h.tbuf, h.treeLen⟩, rfl, rfl, rfl⟩

end Sys2Proof.Machine
end

