-- ==== Sys2Proof/Laws/Hdec.lean ====
section
/-! SUPPORT. What each phase of HUF.DEC does (43_huffman_decoder.md R170 to R179): the slices of a frame, the placing of an
entry, the rebuilding of a tree from its text, the bit walk. -/

namespace Sys2Proof.Machine

/-! ### What HUF.DEC keeps, and that it always ends -/

/-- The part of the state HUF.DEC never changes (R184): everything but PHASE, IPOS, OUTACC and the decoder's working state. -/
def hdecKept (s : State) :=
  ((s.cfg, s.status, s.errCode, s.inLen, s.outLen, s.value, s.inBuf, s.outBuf),
   (s.latch, s.lzw, s.huf.freq, s.huf.pq, s.huf.merges, s.huf.codeTab),
   (s.params, s.pending, s.readLog, s.inEpoch, s.outEpoch))

theorem rebuildTree_keeps (text : ByteString) (o : Option (Byte × ByteString)) (s : State) :
    (rebuildTree text o s).Keeps hdecKept (hdecKept s) := by
  induction text generalizing o s with
  | nil => cases o <;> rfl
  | cons c rest ih =>
    cases o with
    | none => exact ih _ _
    | some e =>
      obtain ⟨sym, code⟩ := e
      unfold rebuildTree
      dsimp only
      split
      · split
        · rfl
        · split
          · rfl
          · split
            · rfl
            · exact ih _ _
      · split
        · rfl
        · split
          · rfl
          · exact ih _ _

theorem walkBits_keeps (bits : ByteString) (s : State) : (walkBits bits s).Keeps hdecKept (hdecKept s) := by
  induction bits generalizing s with
  | nil => unfold walkBits; split <;> rfl
  | cons c rest ih =>
    unfold walkBits
    dsimp only
    split
    · rfl
    · split
      · rfl
      · exact ih _
      · exact ih _

theorem hdecPhases_keep (input : ByteString) :
    ∀ p ∈ hdecPhases input, ∀ s, (p.2 s).Keeps hdecKept (hdecKept s) := by
  intro p hp s
  simp only [hdecPhases, List.mem_cons, List.not_mem_nil, or_false] at hp
  rcases hp with rfl | rfl | rfl | rfl | rfl | rfl | rfl | rfl <;> dsimp only
  · unfold hdecEmpty; split <;> rfl
  · unfold hdecPrefix; split <;> rfl
  · unfold hdecTreeLen; split <;> rfl
  · unfold hdecTreeSlice; split
    · rfl
    · split
      · rfl
      · split <;> rfl
  · unfold hdecBitSlice; split
    · rfl
    · split <;> rfl
  · exact rebuildTree_keeps _ _ _
  · exact walkBits_keeps _ _
  · rfl

/-- The errors of HUF.DEC before `Finish`: MalformedInput, or a limit of the internal tables (60_exceptions.md R230). -/
def HdecError (p : Params) (_ : State) (e : ErrKind) : Prop :=
  e = .malformedInput ∨ (e = .capacityExceeded ∧ ¬p.noTableLimit)

theorem rebuildTree_ends (text : ByteString) (o : Option (Byte × ByteString)) (s : State) :
    (rebuildTree text o s).Sat (fun t => t.params = s.params) (fun _ _ _ => False) (HdecError s.params) := by
  induction text generalizing o s with
  | nil => cases o <;> simp [rebuildTree, HdecError]
  | cons c rest ih =>
    cases o with
    | none => exact ih _ _
    | some e =>
      obtain ⟨sym, code⟩ := e
      unfold rebuildTree
      dsimp only
      split
      · split
        · exact .inl rfl
        · split
          · exact .inl rfl
          · split
            · rename_i h; exact .inr ⟨rfl, nodesBeyond_limit h⟩
            · exact ih _ _
      · split
        · exact .inl rfl
        · split
          · rename_i h; exact .inr ⟨rfl, codeBeyond_limit h⟩
          · exact ih _ _

theorem walkBits_ends (bits : ByteString) (s : State) :
    (walkBits bits s).Sat (fun t => t.params = s.params) (fun _ _ _ => False) (HdecError s.params) := by
  induction bits generalizing s with
  | nil => unfold walkBits; split <;> simp [HdecError]
  | cons c rest ih =>
    unfold walkBits
    dsimp only
    split
    · exact .inl rfl
    · split
      · exact .inl rfl
      · exact ih _
      · exact ih _

/-- HUF.DEC always ends, by `Finish` without OVF or by one of its errors (R170, 40_command_interface.md R110). -/
theorem hdecPhases_end (input : ByteString) (s : State) :
    (runPhases (hdecPhases input) s).Sat (fun _ => False) (fun _ _ v => v = false) (HdecError s.params) := by
  have step : ∀ (c : Ctl) (rest : List (Phase × (State → Ctl))) (p : Params),
      c.Sat (fun t => t.params = p) (fun _ _ v => v = false) (HdecError p) →
      (∀ t : State, t.params = p → (runPhases rest t).Sat (fun _ => False) (fun _ _ v => v = false) (HdecError p)) →
      c.Sat (fun t => (runPhases rest t).Sat (fun _ => False) (fun _ _ v => v = false) (HdecError p))
        (fun _ _ v => v = false) (HdecError p) :=
    fun c rest p h h' => h.mono h' (fun _ _ _ h => h) (fun _ _ h => h)
  unfold hdecPhases
  refine runPhases_cons_sat _ _ _ _ (step _ _ s.params ?_ fun t ht => ?_)
  · unfold hdecEmpty; split <;> simp
  refine runPhases_cons_sat _ _ _ _ (step _ _ s.params ?_ fun t ht => ?_)
  · unfold hdecPrefix; split <;> simp [HdecError, ht]
  refine runPhases_cons_sat _ _ _ _ (step _ _ s.params ?_ fun t ht => ?_)
  · unfold hdecTreeLen; split <;> simp [HdecError, ht]
  refine runPhases_cons_sat _ _ _ _ (step _ _ s.params ?_ fun t ht => ?_)
  · unfold hdecTreeSlice; split
    · exact .inl rfl
    · split
      · exact .inl rfl
      · split <;> simp [HdecError, ht]
  refine runPhases_cons_sat _ _ _ _ (step _ _ s.params ?_ fun t ht => ?_)
  · unfold hdecBitSlice; split
    · exact .inl rfl
    · split <;> simp [HdecError, ht]
  refine runPhases_cons_sat _ _ _ _ (step _ _ s.params ?_ fun t ht => ?_)
  · refine (rebuildTree_ends t.huf.tbuf none
      { t.enter .d5Rebuild with huf := { t.huf with tree := .absent } }).mono (fun _ h => h.trans ht)
      (fun _ _ _ h => h.elim) fun u e h => ?_
    have : HdecError t.params u e := h
    rwa [ht] at this
  refine runPhases_cons_sat _ _ _ _ (step _ _ s.params ?_ fun t ht => ?_)
  · refine (walkBits_ends t.huf.bits
      { t.enter .d6Walk with outAcc := [], huf := { t.huf with nodePtr := ⟨t.huf.tree, true⟩ } }).mono
      (fun _ h => h.trans ht) (fun _ _ _ h => h.elim) fun u e h => ?_
    have : HdecError t.params u e := h
    rwa [ht] at this
  exact runPhases_cons_sat _ _ _ _ rfl

/-! ### Placing an entry (R175) -/

/-- An entry with this code can be placed: its path meets no leaf, and nothing stands at its end. -/
def Tree.freeAt : Tree → ByteString → Prop
  | .absent, _ => True
  | .leaf _, _ => False
  | .node _ _, [] => False
  | .node l r, c :: rest => if c = chZero then l.freeAt rest else r.freeAt rest

/-- `Insert` fails exactly where the path meets a leaf or the node at its end is taken (R175). -/
theorem insertCode_isSome (sym : Byte) (t : Tree) (c : ByteString) : (insertCode sym t c).isSome ↔ t.freeAt c := by
  induction c generalizing t with
  | nil => cases t <;> simp [insertCode, Tree.freeAt]
  | cons x rest ih =>
    cases t with
    | absent =>
      have h := (ih .absent).mpr trivial
      obtain ⟨t, ht⟩ := Option.isSome_iff_exists.mp h
      by_cases hx : x = chZero <;> simp [insertCode, ht, hx, Tree.freeAt]
    | leaf b => simp [insertCode, Tree.freeAt]
    | node l r =>
      by_cases hx : x = chZero
      · simp only [insertCode, hx, if_true, Tree.freeAt]
        rw [← ih l]
        cases insertCode sym l rest <;> simp
      · simp only [insertCode, hx, if_false, Tree.freeAt]
        rw [← ih r]
        cases insertCode sym r rest <;> simp

/-- After `Insert` the leaf at the end of the code holds the symbol (R175, R176). -/
theorem symbolAt_insertCode {sym : Byte} {t t' : Tree} {c : ByteString} (h : insertCode sym t c = some t') :
    t'.symbolAt c = some sym := by
  induction c generalizing t t' with
  | nil => cases t <;> simp [insertCode] at h; subst h; rfl
  | cons x rest ih =>
    cases t with
    | absent =>
      simp only [insertCode] at h
      split at h
      · cases h
      · rename_i u hu
        have := ih hu
        by_cases hx : x = chZero <;> simp only [hx, if_true, if_false, Option.some.injEq] at h <;> subst h <;>
          simpa [Tree.symbolAt, hx] using this
    | leaf b => simp [insertCode] at h
    | node l r =>
      by_cases hx : x = chZero
      · simp only [insertCode, hx, if_true] at h
        split at h
        · cases h
        · rename_i u hu; cases h; simpa [Tree.symbolAt, hx] using ih hu
      · simp only [insertCode, hx, if_false] at h
        split at h
        · cases h
        · rename_i u hu; cases h; simpa [Tree.symbolAt, hx] using ih hu

theorem incomparable_cons {x : Byte} {c d : ByteString} (h : Incomparable (x :: c) (x :: d)) : Incomparable c d :=
  ⟨fun h' => h.1 (List.cons_prefix_cons.mpr ⟨rfl, h'⟩), fun h' => h.2 (List.cons_prefix_cons.mpr ⟨rfl, h'⟩)⟩

theorem isBits_cons {x : Byte} {c : ByteString} : IsBits (x :: c) ↔ (x = chZero ∨ x = chOne) ∧ IsBits c := by
  simp [IsBits]

theorem isBits_append {c d : ByteString} : IsBits (c ++ d) ↔ IsBits c ∧ IsBits d := by
  simp only [IsBits, List.mem_append]
  constructor
  · intro h; exact ⟨fun x hx => h x (.inl hx), fun x hx => h x (.inr hx)⟩
  · rintro ⟨h1, h2⟩ x (hx | hx)
    · exact h1 x hx
    · exact h2 x hx

theorem chOne_ne_chZero : chOne ≠ chZero := by decide

/-- `Insert` leaves every path that is incomparable with its code as it was (R175). -/
theorem insertCode_other {sym : Byte} {t t' : Tree} {c d : ByteString} (h : insertCode sym t c = some t')
    (hc : IsBits c) (hd : IsBits d) (hi : Incomparable c d) :
    (t.freeAt d → t'.freeAt d) ∧ (∀ x, t.symbolAt d = some x → t'.symbolAt d = some x) := by
  induction c generalizing t t' d with
  | nil => exact absurd (List.nil_prefix) hi.1
  | cons x rest ih =>
    cases d with
    | nil => exact absurd (List.nil_prefix) hi.2
    | cons y d =>
      rw [isBits_cons] at hc hd
      have same : x = y → Incomparable rest d := by rintro rfl; exact incomparable_cons hi
      cases t with
      | absent =>
        refine ⟨fun _ => ?_, by simp [Tree.symbolAt]⟩
        simp only [insertCode] at h
        split at h
        · cases h
        · rename_i u hu
          by_cases hx : x = chZero
          · simp only [hx, if_true, Option.some.injEq] at h
            subst h
            by_cases hy : y = chZero
            · simp only [Tree.freeAt, hy, if_true]
              exact (ih hu hc.2 hd.2 (same (hx.trans hy.symm))).1 trivial
            · simp [Tree.freeAt, hy]
          · simp only [hx, if_false, Option.some.injEq] at h
            subst h
            by_cases hy : y = chZero
            · simp [Tree.freeAt, hy]
            · simp only [Tree.freeAt, hy, if_false]
              have hxy : x = y := by rcases hc.1 with h | h <;> rcases hd.1 with h' | h' <;> simp_all
              exact (ih hu hc.2 hd.2 (same hxy)).1 trivial
      | leaf b => simp [insertCode] at h
      | node l r =>
        by_cases hx : x = chZero
        · simp only [insertCode, hx, if_true] at h
          split at h
          · cases h
          · rename_i u hu
            cases h
            by_cases hy : y = chZero
            · simp only [Tree.freeAt, Tree.symbolAt, hy, if_true]
              exact ih hu hc.2 hd.2 (same (hx.trans hy.symm))
            · simp only [Tree.freeAt, Tree.symbolAt, hy, if_false]
              exact ⟨id, fun _ => id⟩
        · simp only [insertCode, hx, if_false] at h
          split at h
          · cases h
          · rename_i u hu
            cases h
            by_cases hy : y = chZero
            · simp only [Tree.freeAt, Tree.symbolAt, hy, if_true]
              exact ⟨id, fun _ => id⟩
            · simp only [Tree.freeAt, Tree.symbolAt, hy, if_false]
              have hxy : x = y := by rcases hc.1 with h | h <;> rcases hd.1 with h' | h' <;> simp_all
              exact ih hu hc.2 hd.2 (same hxy)

/-! ### Rebuilding a tree from its text (R174) -/

theorem State.consume_consume (s : State) (a b : Nat) : (s.consume a).consume b = s.consume (a + b) := by
  simp [State.consume, Nat.add_assoc]

theorem bit_ne_space {x : Byte} (h : x = chZero ∨ x = chOne) : x ≠ chSpace := by rcases h with rfl | rfl <;> decide

/-- The code bytes of an entry are read up to its space (R174, 30_encoding.md R80). -/
theorem rebuildTree_code {G F R} (c rest : ByteString) (sym : Byte) (acc : ByteString) (s : State) (hc : IsBits c)
    (hR : ∀ t e, LimitError s.params t e → R t e)
    (h : (rebuildTree (chSpace :: rest) (some (sym, acc ++ c)) (s.consume c.length)).Sat G F R) :
    (rebuildTree (c ++ chSpace :: rest) (some (sym, acc)) s).Sat G F R := by
  induction c generalizing acc s with
  | nil => simpa [State.consume] using h
  | cons x c ih =>
    rw [isBits_cons] at hc
    have hx : ¬(x ≠ chZero ∧ x ≠ chOne) := by rcases hc.1 with h | h <;> simp [h]
    rw [List.cons_append]
    unfold rebuildTree
    dsimp only
    rw [if_neg (bit_ne_space hc.1), if_neg hx]
    split
    · rename_i hl; exact hR _ _ ⟨rfl, codeBeyond_limit hl⟩
    · refine ih (acc ++ [x]) (s.consume 1) hc.2 hR ?_
      rw [State.consume_consume, List.append_assoc, List.singleton_append, Nat.add_comm]
      exact h

/-- A tree text builds a tree with each entry's symbol at the end of its code, on top of a tree where the codes are free
(R174, R175, R176). -/
theorem rebuildTree_entries (es : List (Byte × ByteString)) (s : State) (hes : CodeEntries es)
    (hfree : ∀ e ∈ es, s.huf.tree.freeAt e.2) :
    (rebuildTree (entriesText es) none s).Sat
      (fun t => (∀ e ∈ es, t.huf.tree.symbolAt e.2 = some e.1) ∧
        (∀ d x, IsBits d → (∀ e ∈ es, Incomparable e.2 d) → s.huf.tree.symbolAt d = some x → t.huf.tree.symbolAt d = some x) ∧
        t.huf.bits = s.huf.bits)
      (fun _ _ _ => False) (LimitError s.params) := by
  induction es generalizing s with
  | nil => simp [entriesText, rebuildTree]
  | cons e es ih =>
    obtain ⟨b, c⟩ := e
    obtain ⟨h1, h2, h3⟩ := hes
    rw [List.pairwise_cons] at h3
    have hb : IsBits c := h1 (b, c) (by simp)
    have hn : c ≠ [] := h2 (b, c) (by simp)
    have ht : entriesText ((b, c) :: es) = b :: (c ++ chSpace :: entriesText es) := by
      simp [entriesText, treeEntry]
    rw [ht]
    unfold rebuildTree
    refine rebuildTree_code c _ b [] (s.consume 1) hb (fun _ _ h => h) ?_
    simp only [List.nil_append]
    unfold rebuildTree
    dsimp only
    rw [if_pos rfl, if_neg hn]
    have hfr := hfree (b, c) (by simp)
    obtain ⟨t, hins⟩ := Option.isSome_iff_exists.mp ((insertCode_isSome b s.huf.tree c).mpr hfr)
    have hins' : insertCode b (((s.consume 1).consume c.length).consume 1).huf.tree c = some t := hins
    rw [hins']
    dsimp only
    split
    · rename_i hl; exact ⟨rfl, nodesBeyond_limit hl⟩
    · refine (ih _ ⟨fun e he => h1 e (by simp [he]), fun e he => h2 e (by simp [he]), h3.2⟩ ?_).mono ?_
        (fun _ _ _ h => h) (fun _ _ h => h)
      · intro e he
        exact (insertCode_other hins hb (h1 e (by simp [he])) (h3.1 e he)).1 (hfree e (by simp [he]))
      · rintro u ⟨g1, g2, g3⟩
        refine ⟨?_, ?_, g3⟩
        · intro e he
          rcases List.mem_cons.mp he with rfl | he
          · refine g2 c b hb ?_ (symbolAt_insertCode hins)
            intro e he
            exact ⟨(h3.1 e he).2, (h3.1 e he).1⟩
          · exact g1 e he
        · intro d x hd hi hx
          refine g2 d x hd (fun e he => hi e (by simp [he])) ?_
          exact (insertCode_other hins hb hd (hi (b, c) (by simp))).2 x hx

/-! ### The bit walk (R177) -/

/-- The state after the walk has read one code and emitted its symbol. -/
def State.emitted (s : State) (n : Nat) (b : Byte) : State :=
  { s.consume n with outAcc := s.outAcc ++ [b], huf := { s.huf with nodePtr := ⟨s.huf.tree, true⟩ } }

/-- The walk reads one code, emits its symbol and is back at the root (R177). -/
theorem walkBits_code (c rest : ByteString) (b : Byte) (s : State) (hc : IsBits c) (hn : c ≠ [])
    (h : s.huf.nodePtr.node.symbolAt c = some b) :
    walkBits (c ++ rest) s = walkBits rest (s.emitted c.length b) := by
  induction c generalizing s with
  | nil => exact absurd rfl hn
  | cons x c ih =>
    rw [isBits_cons] at hc
    have hx : ¬(x ≠ chZero ∧ x ≠ chOne) := by rcases hc.1 with h | h <;> simp [h]
    cases hnode : s.huf.nodePtr.node with
    | absent => rw [hnode] at h; simp [Tree.symbolAt] at h
    | leaf a => rw [hnode] at h; simp [Tree.symbolAt] at h
    | node l r =>
      rw [hnode] at h
      have hch : ((Tree.node l r).child x).symbolAt c = some b := by
        by_cases h0 : x = chZero <;> simpa [Tree.child, Tree.symbolAt, h0] using h
      rw [List.cons_append]
      conv_lhs => unfold walkBits
      dsimp only
      rw [if_neg hx]
      simp only [State.consume_huf, hnode]
      cases hc' : (Tree.node l r).child x with
      | absent => rw [hc'] at hch; simp [Tree.symbolAt] at hch
      | leaf a =>
        rw [hc'] at hch
        cases c with
        | nil =>
          simp only [Tree.symbolAt, Option.some.injEq] at hch
          subst hch
          rfl
        | cons y c => simp [Tree.symbolAt] at hch
      | node l' r' =>
        rw [hc'] at hch
        cases c with
        | nil => simp [Tree.symbolAt] at hch
        | cons y c =>
          dsimp only
          rw [ih _ hc.2 (by simp) hch]
          congr 1
          simp only [State.emitted, State.consume, List.length_cons]
          congr 1
          omega

/-- The walk over a concatenation of codes emits their symbols in order and ends at the root (R177, R178). -/
theorem walkBits_codes (w : List (Byte × ByteString)) (s : State) (hb : ∀ e ∈ w, IsBits e.2) (hn : ∀ e ∈ w, e.2 ≠ [])
    (ht : ∀ e ∈ w, s.huf.tree.symbolAt e.2 = some e.1) (hroot : s.huf.nodePtr = ⟨s.huf.tree, true⟩) :
    (walkBits (w.flatMap Prod.snd) s).Sat (fun t => t.outAcc = s.outAcc ++ w.map Prod.fst)
      (fun _ _ _ => False) (LimitError s.params) := by
  induction w generalizing s with
  | nil => simp [walkBits, hroot]
  | cons e w ih =>
    obtain ⟨b, c⟩ := e
    rw [List.flatMap_cons, walkBits_code c _ b s (hb (b, c) (by simp)) (hn (b, c) (by simp))
      (by rw [hroot]; exact ht (b, c) (by simp))]
    refine (ih (s.emitted c.length b) (fun e he => hb e (by simp [he])) (fun e he => hn e (by simp [he])) (fun e he => ht e (by simp [he]))
      rfl).mono ?_ (fun _ _ _ h => h) (fun _ _ h => h)
    intro t h
    rw [h]
    simp [State.emitted]

/-! ### The slices of a frame (R172, R173) -/

section frame
variable {lenWord tbuf bits : ByteString}

theorem length_frameOf : (frameOf lenWord tbuf bits).length = lenWord.length + tbuf.length + bits.length + 3 := by
  simp [frameOf]; omega

theorem frameOf_take : (frameOf lenWord tbuf bits).take lenWord.length = lenWord := by
  simp [frameOf]

theorem frameOf_first_newline : (frameOf lenWord tbuf bits)[lenWord.length]? = some chNewline := by
  simp [frameOf, List.append_assoc]

theorem getElem?_append_singleton (a b : ByteString) (c : Byte) {i : Nat} (h : i = a.length) :
    (a ++ c :: b)[i]? = some c := by
  subst h; simp

theorem frameOf_second_newline : (frameOf lenWord tbuf bits)[lenWord.length + 1 + tbuf.length]? = some chNewline := by
  have : frameOf lenWord tbuf bits = (lenWord ++ [chNewline] ++ tbuf) ++ (chNewline :: (bits ++ [chNewline])) := by
    simp [frameOf]
  rw [this, getElem?_append_singleton]
  simp; omega

theorem frameOf_last_newline :
    (frameOf lenWord tbuf bits)[(frameOf lenWord tbuf bits).length - 1]? = some chNewline := by
  rw [length_frameOf]
  have : frameOf lenWord tbuf bits = (lenWord ++ [chNewline] ++ tbuf ++ [chNewline] ++ bits) ++ chNewline :: [] := by
    simp [frameOf]
  rw [this, getElem?_append_singleton]
  simp; omega

theorem frameOf_tbuf : slice (frameOf lenWord tbuf bits) (lenWord.length + 1) (lenWord.length + 1 + tbuf.length) = tbuf := by
  have : frameOf lenWord tbuf bits = (lenWord ++ [chNewline]) ++ (tbuf ++ (chNewline :: (bits ++ [chNewline]))) := by
    simp [frameOf]
  unfold slice
  rw [this, List.drop_append_of_le_length (by simp)]
  simp

theorem frameOf_bits :
    slice (frameOf lenWord tbuf bits) (lenWord.length + 1 + tbuf.length + 1) ((frameOf lenWord tbuf bits).length - 1) = bits := by
  have : frameOf lenWord tbuf bits = (lenWord ++ [chNewline] ++ tbuf ++ [chNewline]) ++ (bits ++ [chNewline]) := by
    simp [frameOf]
  unfold slice
  have hl := length_frameOf (lenWord := lenWord) (tbuf := tbuf) (bits := bits)
  have h1 : (frameOf lenWord tbuf bits).drop (lenWord.length + 1 + tbuf.length + 1) = bits ++ [chNewline] := by
    rw [this, List.drop_left' (by simp; omega)]
  rw [h1, List.take_left' (by omega)]

/-- D2_TREELEN on a frame (R172). -/
theorem hdecTreeLen_frame {s : State} {n : Nat} (hlen : lenWord.length = s.sw) (hdes : des s.wordBits s.mode lenWord = .ok n) :
    hdecTreeLen (frameOf lenWord tbuf bits) s = .go { s with huf := { s.huf with treeLen := n } } := by
  unfold hdecTreeLen
  rw [← hlen, frameOf_take, hdes]

/-- D3_TREESLICE on a frame (R173). -/
theorem hdecTreeSlice_frame {s : State} (hlen : lenWord.length = s.sw) (hn : s.huf.treeLen = tbuf.length) :
    hdecTreeSlice (frameOf lenWord tbuf bits) s = .go { s with huf := { s.huf with tbuf := tbuf } } := by
  have hst : s.treeStart = lenWord.length + 1 := by rw [State.treeStart, hlen]
  have hend : s.treeEnd = lenWord.length + 1 + tbuf.length := by rw [State.treeEnd, hst, hn]
  unfold hdecTreeSlice
  rw [hend, hst, ← hlen, frameOf_tbuf, frameOf_first_newline, frameOf_second_newline, length_frameOf, if_neg (by simp),
    if_neg (by omega), if_neg (by simp)]

/-- D4_BITSLICE on a frame (R173). -/
theorem hdecBitSlice_frame {s : State} (hlen : lenWord.length = s.sw) (hn : s.huf.treeLen = tbuf.length) :
    hdecBitSlice (frameOf lenWord tbuf bits) s = .go { s with huf := { s.huf with bits := bits } } := by
  have hend : s.treeEnd = lenWord.length + 1 + tbuf.length := by rw [State.treeEnd, State.treeStart, hn, hlen]
  unfold hdecBitSlice
  rw [hend, frameOf_bits, frameOf_last_newline, length_frameOf, if_neg (by omega), if_neg (by simp)]

end frame

/-- D5_REBUILD on a tree text (R174 to R176). -/
theorem hdecRebuild_entries {s : State} {es : List (Byte × ByteString)} (hes : CodeEntries es)
    (ht : s.huf.tbuf = entriesText es) :
    (hdecRebuild s).Sat
      (fun t => (∀ e ∈ es, t.huf.tree.symbolAt e.2 = some e.1) ∧ t.huf.bits = s.huf.bits ∧ t.params = s.params)
      (fun _ _ _ => False) (LimitError s.params) := by
  unfold hdecRebuild
  rw [ht]
  refine ((rebuildTree_entries es { s with huf := { s.huf with tree := .absent } } hes fun e _ => by
    simp [Tree.freeAt]).and_keeps (rebuildTree_keeps _ _ _)).mono ?_ (fun _ _ _ h => h.1.elim) (fun _ _ h => h.1)
  rintro t ⟨⟨g1, -, g3⟩, gk⟩
  exact ⟨g1, g3, congrArg (fun k => k.2.2.1) gk⟩

/-- D6_WALK on a concatenation of codes (R177, R178). -/
theorem hdecWalk_codes {s : State} {w : List (Byte × ByteString)} (hb : ∀ e ∈ w, IsBits e.2) (hn : ∀ e ∈ w, e.2 ≠ [])
    (ht : ∀ e ∈ w, s.huf.tree.symbolAt e.2 = some e.1) (hbits : s.huf.bits = w.flatMap Prod.snd) :
    (hdecWalk s).Sat (fun t => t.outAcc = w.map Prod.fst) (fun _ _ _ => False) (LimitError s.params) := by
  unfold hdecWalk
  rw [hbits]
  exact walkBits_codes w _ hb hn ht rfl

/-- HUF.DEC on a frame of entries and codes (R170): it finishes with the symbols, unless a limit of the tables is passed. -/
theorem hdecPhases_frame (s : State) (lenWord : ByteString) (es w : List (Byte × ByteString)) (hlen : lenWord.length = s.sw)
    (hdes : des s.wordBits s.mode lenWord = .ok (entriesText es).length) (hes : CodeEntries es) (hw : ∀ e ∈ w, e ∈ es) :
    (runPhases (hdecPhases (frameOf lenWord (entriesText es) (w.flatMap Prod.snd))) s).Sat (fun _ => False)
      (fun _ out ovf => out = w.map Prod.fst ∧ ovf = false) (LimitError s.params) := by
  have hL := length_frameOf (lenWord := lenWord) (tbuf := entriesText es) (bits := w.flatMap Prod.snd)
  unfold hdecPhases
  refine runPhases_cons_sat _ _ _ _ ?_
  rw [hdecEmpty, if_neg (by intro h; rw [h] at hL; simp at hL), Ctl.sat_go]
  refine runPhases_cons_sat _ _ _ _ ?_
  rw [hdecPrefix, State.sw_enter, State.sw_enter, if_neg (by omega), Ctl.sat_go]
  refine runPhases_cons_sat _ _ _ _ ?_
  generalize hs0 : ((s.enter .d0Empty).enter .d1Prefix).enter .d2TreeLen = s0
  have e0 : s0.sw = s.sw ∧ s0.params = s.params ∧ des s0.wordBits s0.mode lenWord = .ok (entriesText es).length := by
    subst hs0; exact ⟨rfl, rfl, hdes⟩
  rw [hdecTreeLen_frame (hlen.trans e0.1.symm) e0.2.2, Ctl.sat_go]
  refine runPhases_cons_sat _ _ _ _ ?_
  generalize hs1 : State.enter { s0 with huf := { s0.huf with treeLen := (entriesText es).length } } .d3TreeSlice = s1
  have e1 : s1.sw = s.sw ∧ s1.params = s.params ∧ s1.huf.treeLen = (entriesText es).length := by
    subst hs1; exact ⟨e0.1, e0.2.1, rfl⟩
  rw [hdecTreeSlice_frame (hlen.trans e1.1.symm) e1.2.2, Ctl.sat_go]
  refine runPhases_cons_sat _ _ _ _ ?_
  generalize hs2 : State.enter { s1 with huf := { s1.huf with tbuf := entriesText es } } .d4BitSlice = s2
  have e2 : s2.sw = s.sw ∧ s2.params = s.params ∧ s2.huf.treeLen = (entriesText es).length ∧
      s2.huf.tbuf = entriesText es := by
    subst hs2; exact ⟨e1.1, e1.2.1, e1.2.2, rfl⟩
  rw [hdecBitSlice_frame (hlen.trans e2.1.symm) e2.2.2.1, Ctl.sat_go]
  refine runPhases_cons_sat _ _ _ _ ?_
  generalize hs3 : State.enter { s2 with huf := { s2.huf with bits := w.flatMap Prod.snd } } .d5Rebuild = s3
  have e3 : s3.params = s.params ∧ s3.huf.tbuf = entriesText es ∧ s3.huf.bits = w.flatMap Prod.snd := by
    subst hs3; exact ⟨e2.2.1, e2.2.2.2, rfl⟩
  refine (hdecRebuild_entries hes e3.2.1).mono ?_ (fun _ _ _ h => h.elim) (fun u e h => by rwa [e3.1] at h)
  rintro t ⟨g1, g3, gp⟩
  rw [e3.2.2] at g3
  rw [e3.1] at gp
  refine runPhases_cons_sat _ _ _ _ ?_
  refine (hdecWalk_codes (s := t.enter .d6Walk) (fun e he => hes.bits e (hw e he)) (fun e he => hes.nonempty e (hw e he))
    (fun e he => g1 e (hw e he)) g3).mono ?_ (fun _ _ _ h => h.elim) (fun u e h => ?_)
  · intro u hu
    exact runPhases_cons_sat _ _ _ _ ⟨hu, rfl⟩
  · have h' : LimitError t.params u e := h
    rwa [gp] at h'

end Sys2Proof.Machine
end

