-- ==== Sys2Proof/Laws/HdecParse.lean ====
section
/-! SUPPORT. What HUF.DEC accepts (43_huffman_decoder.md R172 to R178, R181): an input on which its phases reach `Finish` is empty or a
frame of a prefix-free table of entries and a concatenation of its codes. -/

namespace Sys2Proof.Machine

/-! ### The tree holds exactly the entries (R175, R176) -/

/-- A code that can be placed is incomparable with every path to a leaf (R175). -/
theorem incomparable_of_freeAt {t : Tree} {c d : ByteString} {x : Byte} (hc : IsBits c) (hd : IsBits d) (hf : t.freeAt c)
    (hs : t.symbolAt d = some x) : Incomparable c d := by
  induction t generalizing c d with
  | absent => simp [Tree.symbolAt] at hs
  | leaf b => simp [Tree.freeAt] at hf
  | node l r ihl ihr =>
    cases c with
    | nil => simp [Tree.freeAt] at hf
    | cons a c =>
      cases d with
      | nil => simp [Tree.symbolAt] at hs
      | cons b d =>
        rw [isBits_cons] at hc hd
        have key : ∀ {c d : ByteString}, Incomparable c d → a = b → Incomparable (a :: c) (b :: d) := by
          rintro c d ⟨h1, h2⟩ rfl
          exact ⟨fun h => h1 (List.cons_prefix_cons.mp h).2, fun h => h2 (List.cons_prefix_cons.mp h).2⟩
        have other : a ≠ b → Incomparable (a :: c) (b :: d) := fun h =>
          ⟨fun h' => h (List.cons_prefix_cons.mp h').1, fun h' => h (List.cons_prefix_cons.mp h').1.symm⟩
        by_cases hab : a = b
        · refine key ?_ hab
          by_cases ha : a = chZero
          · simp only [Tree.freeAt, ha, if_true] at hf
            simp only [Tree.symbolAt, ← hab, ha, if_true] at hs
            exact ihl hc.2 hd.2 hf hs
          · simp only [Tree.freeAt, ha, if_false] at hf
            simp only [Tree.symbolAt, ← hab, ha, if_false] at hs
            exact ihr hc.2 hd.2 hf hs
        · exact other hab

/-- After `Insert` the paths to leaves are the old ones and the new code (R175, R176). -/
theorem symbolAt_insertCode_iff {sym : Byte} {t t' : Tree} {c d : ByteString} {x : Byte} (h : insertCode sym t c = some t')
    (hc : IsBits c) (hd : IsBits d) :
    t'.symbolAt d = some x ↔ t.symbolAt d = some x ∨ (d = c ∧ x = sym) := by
  induction c generalizing t t' d with
  | nil =>
    cases t with
    | absent =>
      simp only [insertCode, Option.some.injEq] at h
      subst h
      cases d <;> simp [Tree.symbolAt, eq_comm]
    | leaf b => simp [insertCode] at h
    | node l r => simp [insertCode] at h
  | cons a c ih =>
    rw [isBits_cons] at hc
    cases t with
    | leaf b => simp [insertCode] at h
    | absent =>
      simp only [insertCode] at h
      split at h
      · cases h
      · rename_i u hu
        cases d with
        | nil => by_cases ha : a = chZero <;> simp only [ha, if_true, if_false, Option.some.injEq] at h <;> subst h <;> simp [Tree.symbolAt]
        | cons b d =>
          rw [isBits_cons] at hd
          have := ih (d := d) hu hc.2 hd.2
          by_cases ha : a = chZero
          · simp only [ha, if_true, Option.some.injEq] at h
            subst h
            by_cases hb : b = chZero
            · simpa [Tree.symbolAt, hb, ha] using this
            · simp [Tree.symbolAt, hb, ha]
          · simp only [ha, if_false, Option.some.injEq] at h
            subst h
            by_cases hb : b = chZero
            · have : chZero ≠ a := Ne.symm ha
              simp [Tree.symbolAt, hb, this]
            · have hab : b = a := by rcases hc.1 with h | h <;> rcases hd.1 with h' | h' <;> simp_all
              simpa [Tree.symbolAt, hb, ha, hab] using this
    | node l r =>
      by_cases ha : a = chZero
      · simp only [insertCode, ha, if_true] at h
        split at h
        · cases h
        · rename_i u hu
          cases h
          cases d with
          | nil => simp [Tree.symbolAt]
          | cons b d =>
            rw [isBits_cons] at hd
            have := ih (d := d) hu hc.2 hd.2
            by_cases hb : b = chZero
            · simpa [Tree.symbolAt, hb, ha] using this
            · simp [Tree.symbolAt, hb, ha]
      · simp only [insertCode, ha, if_false] at h
        split at h
        · cases h
        · rename_i u hu
          cases h
          cases d with
          | nil => simp [Tree.symbolAt]
          | cons b d =>
            rw [isBits_cons] at hd
            have := ih (d := d) hu hc.2 hd.2
            by_cases hb : b = chZero
            · have : chZero ≠ a := Ne.symm ha
              simp [Tree.symbolAt, hb, this]
            · have hab : b = a := by rcases hc.1 with h | h <;> rcases hd.1 with h' | h' <;> simp_all
              simpa [Tree.symbolAt, hb, ha, hab] using this

/-- The entries placed one after another. -/
def insertAll : Tree → List (Byte × ByteString) → Option Tree
  | t, [] => some t
  | t, e :: es =>
    match insertCode e.1 t e.2 with
    | none => none
    | some t' => insertAll t' es

/-- A table all of whose entries could be placed is prefix-free and its tree's leaves are its entries (R176). -/
theorem insertAll_spec {es : List (Byte × ByteString)} {t t' : Tree} (h : insertAll t es = some t') (hb : ∀ e ∈ es, IsBits e.2) :
    es.Pairwise (fun a b => Incomparable a.2 b.2) ∧
      (∀ d x, IsBits d → t.symbolAt d = some x → ∀ e ∈ es, Incomparable e.2 d) ∧
      (∀ d x, IsBits d → (t'.symbolAt d = some x ↔ t.symbolAt d = some x ∨ (x, d) ∈ es)) := by
  induction es generalizing t with
  | nil => cases h; simp
  | cons e es ih =>
    obtain ⟨b, c⟩ := e
    simp only [insertAll] at h
    split at h
    · cases h
    · rename_i u hu
      have hc : IsBits c := hb (b, c) (by simp)
      have hfree : t.freeAt c := (insertCode_isSome b t c).mp (by rw [hu]; rfl)
      obtain ⟨h1, h2, h3⟩ := ih h fun e he => hb e (by simp [he])
      have hsym := fun d x (hd : IsBits d) => symbolAt_insertCode_iff (d := d) (x := x) hu hc hd
      refine ⟨List.pairwise_cons.mpr ⟨?_, h1⟩, ?_, ?_⟩
      · intro e he
        have := h2 c b hc ((hsym c b hc).mpr (.inr ⟨rfl, rfl⟩)) e he
        exact ⟨this.2, this.1⟩
      · intro d x hd hs e he
        rcases List.mem_cons.mp he with rfl | he
        · exact incomparable_of_freeAt hc hd hfree hs
        · exact h2 d x hd ((hsym d x hd).mpr (.inl hs)) e he
      · intro d x hd
        rw [h3 d x hd, hsym d x hd, List.mem_cons, Prod.mk.injEq]
        tauto

/-! ### The tree text (R174) -/

theorem entriesText_cons (e : Byte × ByteString) (es : List (Byte × ByteString)) :
    entriesText (e :: es) = treeEntry e.1 e.2 ++ entriesText es := by simp [entriesText]

/-- What the rest of a tree text must be for the rebuilding to go on: the rest of the open entry, then whole entries. -/
def RestOf (o : Option (Byte × ByteString)) (text : ByteString) (es : List (Byte × ByteString)) : Prop :=
  match o with
  | none => text = entriesText es
  | some (b, code) => ∃ c es', text = c ++ chSpace :: entriesText es' ∧ es = (b, code ++ c) :: es'

/-- A tree text that is accepted is a concatenation of entries, all of them placed (R174). -/
theorem rebuildTree_inv (text : ByteString) (o : Option (Byte × ByteString)) (s : State) (ho : ∀ p ∈ o, IsBits p.2) :
    (rebuildTree text o s).Sat
      (fun t => ∃ es, RestOf o text es ∧ (∀ e ∈ es, IsBits e.2) ∧ (∀ e ∈ es, e.2 ≠ []) ∧
        insertAll s.huf.tree es = some t.huf.tree ∧ t.huf.bits = s.huf.bits)
      (fun _ _ _ => False) (fun _ _ => True) := by
  induction text generalizing o s with
  | nil =>
    cases o with
    | none => exact ⟨[], rfl, by simp, by simp, rfl, rfl⟩
    | some p => trivial
  | cons x rest ih =>
    cases o with
    | none =>
      refine (ih (some (x, [])) (s.consume 1) (by rintro p ⟨⟩; intro y hy; simp at hy)).mono ?_ (fun _ _ _ h => h) (fun _ _ h => h)
      rintro t ⟨es, ⟨c, es', h1, rfl⟩, h2, h3, h4, h5⟩
      refine ⟨_, ?_, h2, h3, h4, h5⟩
      show x :: rest = _
      rw [entriesText_cons, h1]
      simp [treeEntry]
    | some p =>
      obtain ⟨b, code⟩ := p
      have hcode : IsBits code := ho (b, code) rfl
      unfold rebuildTree
      dsimp only
      split
      · rename_i hx
        subst hx
        split
        · trivial
        · rename_i hne
          split
          · trivial
          · rename_i t' ht'
            split
            · trivial
            · refine (ih none _ (by simp)).mono ?_ (fun _ _ _ h => h) (fun _ _ h => h)
              rintro t ⟨es, h1, h2, h3, h4, h5⟩
              refine ⟨(b, code) :: es, ⟨[], es, ?_, by simp⟩, ?_, ?_, ?_, h5⟩
              · rw [show rest = entriesText es from h1]; simp
              · intro e he
                rcases List.mem_cons.mp he with rfl | he
                · exact hcode
                · exact h2 e he
              · intro e he
                rcases List.mem_cons.mp he with rfl | he
                · exact hne
                · exact h3 e he
              · have ht'' : insertCode b s.huf.tree code = some t' := ht'
                simp only [insertAll, ht'']
                exact h4
      · split
        · trivial
        · rename_i hx
          have hx' : x = chZero ∨ x = chOne := by tauto
          split
          · trivial
          · have hb' : IsBits (code ++ [x]) := isBits_append.mpr ⟨hcode, by intro y hy; simp at hy; subst hy; exact hx'⟩
            refine (ih (some (b, code ++ [x])) (s.consume 1) (by rintro p ⟨⟩; exact hb')).mono ?_ (fun _ _ _ h => h) (fun _ _ h => h)
            rintro t ⟨es, ⟨c, es', h1, rfl⟩, h2, h3, h4, h5⟩
            refine ⟨_, ⟨x :: c, es', ?_, ?_⟩, h2, h3, h4, h5⟩
            · rw [h1]; simp
            · simp

/-! ### The bit walk (R177, R178) -/

/-- A bit string that is accepted is a concatenation of paths to leaves, and their symbols are emitted (R177, R178). -/
theorem walkBits_inv (bits : ByteString) (s : State) (p : ByteString) (hp : IsBits p)
    (hsub : ∀ d, s.huf.tree.symbolAt (p ++ d) = s.huf.nodePtr.node.symbolAt d) (hroot : s.huf.nodePtr.atRoot = true → p = []) :
    (walkBits bits s).Sat
      (fun t => ∃ w : List (Byte × ByteString), (∀ e ∈ w, IsBits e.2 ∧ s.huf.tree.symbolAt e.2 = some e.1) ∧
        p ++ bits = w.flatMap Prod.snd ∧ t.outAcc = s.outAcc ++ w.map Prod.fst)
      (fun _ _ _ => False) (fun _ _ => True) := by
  induction bits generalizing s p with
  | nil =>
    unfold walkBits
    split
    · rename_i h
      exact ⟨[], by simp, by simp [hroot h], by simp⟩
    · trivial
  | cons c rest ih =>
    unfold walkBits
    dsimp only
    split
    · trivial
    · rename_i hc
      have hc' : c = chZero ∨ c = chOne := by tauto
      have hp' : IsBits (p ++ [c]) := isBits_append.mpr ⟨hp, by intro y hy; simp at hy; subst hy; exact hc'⟩
      have hchild : ∀ u, s.huf.nodePtr.node.child c = u → u ≠ .absent → ∀ d, s.huf.tree.symbolAt ((p ++ [c]) ++ d) = u.symbolAt d := by
        intro u hu hne d
        rw [List.append_assoc, hsub]
        cases hn : s.huf.nodePtr.node with
        | absent => rw [hn] at hu; simp [Tree.child] at hu; exact absurd hu.symm hne
        | leaf b => rw [hn] at hu; simp [Tree.child] at hu; exact absurd hu.symm hne
        | node l r =>
          rw [hn] at hu
          simp only [Tree.child] at hu
          by_cases h0 : c = chZero
          · simp only [h0, if_true] at hu; subst hu; simp [Tree.symbolAt, h0]
          · simp only [h0, if_false] at hu; subst hu; simp [Tree.symbolAt, h0]
      simp only [State.consume_huf]
      split
      · trivial
      · rename_i b hb
        refine (ih _ [] (by intro x hx; simp at hx) (fun d => rfl) (fun _ => rfl)).mono ?_ (fun _ _ _ h => h) (fun _ _ h => h)
        rintro t ⟨w, h1, h2, h3⟩
        refine ⟨(b, p ++ [c]) :: w, ?_, ?_, ?_⟩
        · intro e he
          rcases List.mem_cons.mp he with rfl | he
          · refine ⟨hp', ?_⟩
            have := hchild _ hb (by simp) []
            simpa [Tree.symbolAt] using this
          · exact h1 e he
        · rw [List.flatMap_cons, ← h2]; simp
        · rw [h3]; simp
      · rename_i l r hb
        refine (ih _ (p ++ [c]) hp' (hchild (.node l r) hb (by simp)) (by intro h; cases h)).mono ?_ (fun _ _ _ h => h) (fun _ _ h => h)
        rintro t ⟨w, h1, h2, h3⟩
        exact ⟨w, h1, by rw [← h2]; simp, h3⟩

/-! ### The frame (R172, R173) -/

theorem slice_append_slice (x : ByteString) {a b c : Nat} (h1 : a ≤ b) (h2 : b ≤ c) : slice x a b ++ slice x b c = slice x a c := by
  unfold slice
  have e1 : c - a = (b - a) + (c - b) := by omega
  have e2 : x.drop b = (x.drop a).drop (b - a) := by rw [List.drop_drop]; congr 1; omega
  rw [e1, List.take_add, e2]

theorem slice_singleton {x : ByteString} {a : Nat} {b : Byte} (h : x[a]? = some b) : slice x a (a + 1) = [b] := by
  unfold slice
  obtain ⟨ha, hb⟩ := List.getElem?_eq_some_iff.mp h
  rw [Nat.add_sub_cancel_left, List.drop_eq_getElem_cons ha, hb]
  rfl

theorem slice_all (x : ByteString) : slice x 0 x.length = x := by simp [slice]

/-- An input that passes the framing checks is a frame of its slices (R172, R173). -/
theorem eq_frameOf_slices {x : ByteString} {sw n : Nat} (h1 : x[sw]? = some chNewline) (h2 : x[sw + 1 + n]? = some chNewline)
    (h3 : sw + 1 + n + 1 ≤ x.length - 1) (h4 : x[x.length - 1]? = some chNewline) :
    x = frameOf (slice x 0 sw) (slice x (sw + 1) (sw + 1 + n)) (slice x (sw + 1 + n + 1) (x.length - 1)) := by
  unfold frameOf
  have hl : x.length - 1 + 1 = x.length := by omega
  have e4 := slice_singleton h4
  rw [hl] at e4
  rw [← slice_singleton h1, slice_append_slice x (by omega) (by omega), slice_append_slice x (by omega) (by omega)]
  conv_rhs => arg 1; arg 1; arg 2; rw [slice_singleton h1, ← slice_singleton h2]
  rw [slice_append_slice x (by omega) (by omega), slice_append_slice x (by omega) (by omega)]
  conv_rhs => arg 2; rw [slice_singleton h1, ← e4]
  rw [slice_append_slice x (by omega) (by omega), slice_all]

/-- The slices, which the rebuilding of the tree leaves alone (R174). -/
def hdecSlices (s : State) := (s.huf.treeLen, s.huf.tbuf, s.huf.bits)

theorem rebuildTree_keeps_slices (text : ByteString) (o : Option (Byte × ByteString)) (s : State) :
    (rebuildTree text o s).Keeps hdecSlices (hdecSlices s) := by
  induction text generalizing o s with
  | nil => cases o <;> rfl
  | cons c rest ih =>
    cases o with
    | none => exact ih _ _
    | some p =>
      obtain ⟨sym, code⟩ := p
      unfold rebuildTree
      dsimp only
      split
      · split
        · rfl
        · split
          · rfl
          · split
            · rfl
            · exact ih _ _
      · split
        · rfl
        · split
          · rfl
          · exact ih _ _

/-- What the bit walk leaves alone (R177). -/
def hdecTreeSlices (s : State) := (hdecSlices s, s.huf.tree)

theorem walkBits_keeps_slices (bits : ByteString) (s : State) : (walkBits bits s).Keeps hdecTreeSlices (hdecTreeSlices s) := by
  induction bits generalizing s with
  | nil => unfold walkBits; split <;> rfl
  | cons c rest ih =>
    unfold walkBits
    dsimp only
    split
    · rfl
    · split
      · rfl
      · exact ih _
      · exact ih _

/-- What HUF.DEC has done where it ends normally: the input is a frame, `out` is what it stands for, and the working state holds the
slices, the tree with exactly the frame's entries, and the output (R170, R176, R184). -/
structure Decoded (s : State) (input : ByteString) (t : State) (out : ByteString) (lenWord : ByteString)
    (es w : List (Byte × ByteString)) : Prop where
  len : lenWord.length = s.sw
  desLen : des s.wordBits s.mode lenWord = .ok (entriesText es).length
  entries : CodeEntries es
  mem : ∀ e ∈ w, e ∈ es
  frame : input = frameOf lenWord (entriesText es) (w.flatMap Prod.snd)
  outEq : out = w.map Prod.fst
  outAcc : t.outAcc = out
  treeLen : t.huf.treeLen = (entriesText es).length
  tbuf : t.huf.tbuf = entriesText es
  bits : t.huf.bits = w.flatMap Prod.snd
  tree : ∀ c b, IsBits c → (t.huf.tree.symbolAt c = some b ↔ (b, c) ∈ es)

/-- HUF.DEC finishes on a non-empty input only where it is a frame, and with what the frame stands for. -/
theorem hdecPhases_inv {input : ByteString} (hne : input ≠ []) (s : State) :
    (runPhases (hdecPhases input) s).Sat (fun _ => False) (fun t out _ => ∃ lenWord es w, Decoded s input t out lenWord es w)
      (fun _ _ => True) := by
  unfold hdecPhases
  refine runPhases_cons_sat _ _ _ _ ?_
  rw [hdecEmpty, if_neg hne, Ctl.sat_go]
  refine runPhases_cons_sat _ _ _ _ ?_
  unfold hdecPrefix
  split
  · trivial
  rename_i hlen
  simp only [State.sw_enter] at hlen
  rw [Ctl.sat_go]
  refine runPhases_cons_sat _ _ _ _ ?_
  unfold hdecTreeLen
  split
  swap
  · trivial
  rename_i n hn
  rw [Ctl.sat_go]
  refine runPhases_cons_sat _ _ _ _ ?_
  generalize hs3 : State.enter _ Phase.d3TreeSlice = s3
  have e3 : s3.sw = s.sw ∧ s3.treeStart = s.sw + 1 ∧ s3.treeEnd = s.sw + 1 + n := by subst hs3; exact ⟨rfl, rfl, rfl⟩
  have e3l : s3.huf.treeLen = n := by subst hs3; rfl
  have hn' : des s.wordBits s.mode (input.take s.sw) = .ok n := hn
  unfold hdecTreeSlice
  rw [e3.1, e3.2.1, e3.2.2]
  split
  · trivial
  rename_i h1
  split
  · trivial
  rename_i h2
  split
  · trivial
  rename_i h3
  rw [Ctl.sat_go]
  refine runPhases_cons_sat _ _ _ _ ?_
  generalize hs4 : State.enter _ Phase.d4BitSlice = s4
  have e4 : s4.treeEnd = s.sw + 1 + n ∧ s4.huf.tbuf = slice input (s.sw + 1) (s.sw + 1 + n) ∧ s4.huf.treeLen = n := by
    subst hs4; exact ⟨e3.2.2, rfl, e3l⟩
  unfold hdecBitSlice
  rw [e4.1]
  split
  · trivial
  rename_i h4
  split
  · trivial
  rename_i h5
  rw [not_not] at h1 h3 h5
  have hfr := eq_frameOf_slices h1 h3 (by omega) h5
  rw [Ctl.sat_go]
  refine runPhases_cons_sat _ _ _ _ ?_
  generalize hs5 : State.enter _ Phase.d5Rebuild = s5
  have e5 : s5.huf.tbuf = slice input (s.sw + 1) (s.sw + 1 + n) ∧
      s5.huf.bits = slice input (s.sw + 1 + n + 1) (input.length - 1) ∧ s5.huf.treeLen = n := by
    subst hs5; exact ⟨e4.2.1, rfl, e4.2.2⟩
  unfold hdecRebuild
  refine ((rebuildTree_inv s5.huf.tbuf none _ (by simp)).and_keeps (rebuildTree_keeps_slices _ _ _)).mono ?_
    (fun _ _ _ h => h.1.elim) (fun _ _ h => h.1)
  rintro t ⟨⟨es, g1, g2, g3, g4, g5⟩, gk⟩
  have gk' : hdecSlices t = hdecSlices s5 := gk
  have g5' : t.huf.bits = s5.huf.bits := g5
  obtain ⟨k1, -, k3⟩ := insertAll_spec g4 g2
  refine runPhases_cons_sat _ _ _ _ ?_
  unfold hdecWalk
  refine ((walkBits_inv (t.enter .d6Walk).huf.bits _ [] (by intro x hx; simp at hx) (fun d => rfl) (fun _ => rfl)).and_keeps
    (walkBits_keeps_slices _ _)).mono ?_ (fun _ _ _ h => h.1.elim) (fun _ _ h => h.1)
  rintro u ⟨⟨w, w1, w2, w3⟩, wk⟩
  have wk' : hdecTreeSlices u = hdecTreeSlices t := wk
  have us : hdecSlices u = hdecSlices s5 := (congrArg Prod.fst wk').trans gk'
  have b1 : entriesText es = slice input (s.sw + 1) (s.sw + 1 + n) := by
    rw [← e5.1]; exact (show s5.huf.tbuf = entriesText es from g1).symm
  have b2 : w.flatMap Prod.snd = slice input (s.sw + 1 + n + 1) (input.length - 1) := by
    rw [← w2, ← e5.2.1, ← g5']; rfl
  have hlenText : (entriesText es).length = n := by rw [b1]; simp [slice]; omega
  refine runPhases_cons_sat _ _ _ _ ?_
  refine ⟨slice input 0 s.sw, es, w, ⟨?_, ?_, ⟨g2, g3, k1⟩, ?_, ?_, ?_, rfl, ?_, ?_, ?_, ?_⟩⟩
  · simp [slice]; omega
  · have : slice input 0 s.sw = input.take s.sw := by simp [slice]
    rw [this, hn', hlenText]
  · intro e he
    have := w1 e he
    have := (k3 e.2 e.1 this.1).mp this.2
    simpa [Tree.symbolAt] using this
  · rw [b1, b2]; exact hfr
  · show State.outAcc u = _
    rw [w3]; rfl
  · rw [hlenText]; exact (congrArg (fun k => k.1) us).trans e5.2.2
  · rw [b1]; exact (congrArg (fun k => k.2.1) us).trans e5.1
  · rw [b2]; exact (congrArg (fun k => k.2.2) us).trans e5.2.1
  · intro c b hc
    have hu : (State.enter u Phase.d7Return).huf.tree = t.huf.tree := congrArg Prod.snd wk'
    rw [hu, k3 c b hc]
    simp [Tree.symbolAt]

end Sys2Proof.Machine
end

