-- ==== Sys2Proof/Laws/HencRun.lean ====
section
/-! SUPPORT. HUF.ENC as a whole (42_huffman_encoder.md R140): what it ends with, and the sizes of its result (30_encoding.md R82,
42_huffman_encoder.md R150, R151). -/

namespace Sys2Proof.Machine

theorem HencTree.congr {input : ByteString} {t u : State} (h : HencTree input t) (e : u.huf = t.huf) : HencTree input u := by
  obtain ⟨h1, h2, h3, h4, h5, h6⟩ := h
  refine ⟨?_, ?_, ?_, ?_, ?_, by rw [e]; exact h6⟩
  · rw [e]; exact h1
  · rw [e]; exact h2
  · rw [e]; exact h3
  · rw [e]; exact h4
  · intro b; rw [← h5 b]; simp only [State.freqOf, e]

theorem HencCodes.congr {input : ByteString} {t u : State} (h : HencCodes input t) (e : u.huf = t.huf) : HencCodes input u := by
  refine ⟨h.toHencTree.congr e, ?_, ?_⟩
  · intro x hx; rw [e] at hx; rw [← h.code x hx]; simp only [State.codeOf, e]
  · intro b hb; rw [← h.noCode b hb]; simp only [State.codeOf, e]

theorem HencText.congr {input : ByteString} {t u : State} (h : HencText input t) (e : u.huf = t.huf) : HencText input u :=
  ⟨h.toHencCodes.congr e, by rw [e]; exact h.tbuf, by rw [e]; exact h.treeLen⟩

/-- A phase that goes on to a state with the same parameters, in front of the rest of the phases. -/
theorem sat_phase {G F} {p : Params} {P : State → Prop} {f : State → Ctl} {s : State} {ph : Phase}
    {rest : List (Phase × (State → Ctl))} (hs : s.params = p)
    (h : (f (s.enter ph)).Sat P (fun _ _ _ => False) (LimitError (s.enter ph).params))
    (hk : (f (s.enter ph)).Keeps hencKept (hencKept (s.enter ph)))
    (hrest : ∀ t, P t → hencKept t = hencKept s → (runPhases rest t).Sat G F (LimitError p)) :
    (runPhases ((ph, f) :: rest) s).Sat G F (LimitError p) := by
  refine runPhases_cons_sat _ _ _ _ ?_
  refine (h.and_keeps hk).mono (fun t ht => hrest t ht.1 ht.2) (fun _ _ _ h => h.1.elim) ?_
  rintro t e ⟨h1, -⟩
  have h2 : LimitError s.params t e := h1
  rwa [hs] at h2

theorem hencKept_params {s t : State} (h : hencKept t = hencKept s) : t.params = s.params := congrArg (fun k => k.2.2.1) h
theorem hencKept_cfg {s t : State} (h : hencKept t = hencKept s) : t.cfg = s.cfg := congrArg (fun k => k.1.1) h

/-- The serializer depends on CFG and the letter case only. -/
theorem State.serWord_congr {s t : State} (hc : t.cfg = s.cfg) (hp : t.params = s.params) (v : Nat) : t.serWord v = s.serWord v := by
  unfold State.serWord State.wordBits State.mode; rw [hc, hp]

theorem State.serOverflows_congr {s t : State} (hc : t.cfg = s.cfg) (v : Nat) : t.serOverflows v = s.serOverflows v := by
  unfold State.serOverflows State.wordBits; rw [hc]

/-- HUF.ENC on a non-empty input (R140): it finishes with the frame of its tree text and bit string, unless a limit of the tables is
passed. -/
theorem hencPhases_sat {input : ByteString} (hne : input ≠ []) (s : State) :
    (runPhases (hencPhases input) s).Sat (fun _ => False)
      (fun t out ovf => HencText input t ∧ out = frameOf (s.serWord t.huf.treeLen) t.huf.tbuf (t.bitsOf input) ∧
        ovf = s.serOverflows t.huf.treeLen)
      (LimitError s.params) := by
  have keep := hencPhases_keep input
  unfold hencPhases at keep ⊢
  simp only [List.mem_cons, List.not_mem_nil, or_false, forall_eq_or_imp, forall_eq] at keep
  obtain ⟨-, k2, k3, k4, k5, k6, -⟩ := keep
  refine runPhases_cons_sat _ _ _ _ ?_
  rw [hencEmpty, if_neg hne, Ctl.sat_go]
  refine sat_phase rfl (hencCount_sat input _) (k2 _) fun t2 h2 e2 => ?_
  refine sat_phase (hencKept_params e2) (((hencQueue_sat (input := input) (s := t2.enter .h3Queue) h2).and (hencQueue_sorted _)).mono (fun _ h => h) (fun _ _ _ h => h.1) (fun _ _ h => h.1)) (k3 _) fun t3 h3 e3 => ?_
  have e3 := e3.trans e2
  refine sat_phase (hencKept_params e3) (hencMerge_sat (s := t3.enter .h4Merge) hne h3.1.1 h3.1.2.1 h3.1.2.2 h3.2) (k4 _) fun t4 h4 e4 => ?_
  have e4 := e4.trans e3
  refine sat_phase (hencKept_params e4) (hencCodes_sat (s := t4.enter .h5Codes) (h4.congr rfl)) (k5 _) fun t5 h5 e5 => ?_
  have e5 := e5.trans e4
  refine sat_phase (hencKept_params e5) (hencTreeText_sat (s := t5.enter .h6TreeText) (h5.congr rfl)) (k6 _) fun t6 h6 e6 => ?_
  have e6 := e6.trans e5
  refine runPhases_cons_sat _ _ _ _ ?_
  refine (hencFrame_sat (s := t6.enter .h7Frame) (h6.congr rfl)).mono (fun _ h => h.elim) ?_ ?_
  · rintro t out ovf ⟨g1, g2, g3, g4⟩
    have c : (t6.enter .h7Frame).cfg = s.cfg := hencKept_cfg e6
    refine ⟨g1, ?_, ?_⟩
    · rw [g3, g2, State.serWord_congr c (hencKept_params e6)]
      have : t.bitsOf input = (t6.enter .h7Frame).bitsOf input := by
        unfold State.bitsOf State.codeOf; rw [g2]
      rw [this]
    · rw [g4, g2, State.serOverflows_congr c]
  · intro t e h
    have h' : LimitError t6.params t e := h
    rwa [hencKept_params e6] at h'

/-- HUF.ENC always ends, by `Finish` or at a limit of the tables (40_command_interface.md R110). -/
theorem hencPhases_end (input : ByteString) (s : State) :
    (runPhases (hencPhases input) s).Sat (fun _ => False) (fun _ _ _ => True) (LimitError s.params) := by
  by_cases h : input = []
  · unfold hencPhases
    refine runPhases_cons_sat _ _ _ _ ?_
    rw [hencEmpty, if_pos h]; trivial
  · exact (hencPhases_sat h s).mono (fun _ h => h) (fun _ _ _ _ => trivial) (fun _ _ h => h)

/-! ### Sizes -/

theorem Tree.leaves_pos {t : Tree} (h : t.full = true) : 1 ≤ t.leaves.length := by
  induction t with
  | absent => simp [Tree.full] at h
  | leaf b => simp [Tree.leaves]
  | node l r ihl _ =>
    simp only [Tree.full, Bool.and_eq_true] at h
    have := ihl h.1
    simp [Tree.leaves]; omega

/-- A code is at most as much longer than its start as there are other leaves (R151 e). -/
theorem leafCodes_length_le {t : Tree} (h : t.full = true) {p : ByteString} {e : Byte × ByteString} (he : e ∈ leafCodes t p) :
    e.2.length + 1 ≤ p.length + t.leaves.length := by
  induction t generalizing p with
  | absent => simp [leafCodes] at he
  | leaf b => simp [leafCodes] at he; subst he; simp [Tree.leaves]
  | node l r ihl ihr =>
    simp only [Tree.full, Bool.and_eq_true] at h
    have hl := Tree.leaves_pos h.1
    have hr := Tree.leaves_pos h.2
    simp only [leafCodes, List.mem_append] at he
    simp only [Tree.leaves, List.length_append]
    rcases he with he | he
    · have := ihl h.1 he
      simp at this; omega
    · have := ihr h.2 he
      simp at this; omega

/-- The sum of the code lengths of a table of entries. -/
def codeLengths (es : List (Byte × ByteString)) : Nat := (es.map fun e => e.2.length).sum

theorem codeLengths_append (a b : List (Byte × ByteString)) : codeLengths (a ++ b) = codeLengths a + codeLengths b := by
  simp [codeLengths]

/-- The most unbalanced tree has the longest codes (30_encoding.md R82). -/
theorem codeLengths_leafCodes_le {t : Tree} (h : t.full = true) (p : ByteString) :
    2 * codeLengths (leafCodes t p) + 2 ≤
      t.leaves.length * t.leaves.length + t.leaves.length + 2 * (p.length * t.leaves.length) := by
  induction t generalizing p with
  | absent => simp [Tree.full] at h
  | leaf b => simp [leafCodes, codeLengths, Tree.leaves]; omega
  | node l r ihl ihr =>
    simp only [Tree.full, Bool.and_eq_true] at h
    have hl := Tree.leaves_pos h.1
    have hr := Tree.leaves_pos h.2
    have h1 := ihl h.1 (p ++ [chZero])
    have h2 := ihr h.2 (p ++ [chOne])
    simp only [leafCodes, codeLengths_append, Tree.leaves, List.length_append, List.length_cons, List.length_nil, Nat.zero_add] at *
    nlinarith [Nat.mul_le_mul (Nat.sub_le l.leaves.length 0) (Nat.sub_le r.leaves.length 0), mul_nonneg (Nat.zero_le (l.leaves.length - 1)) (Nat.zero_le (r.leaves.length - 1)), mul_le_mul hl hr (Nat.zero_le _) (Nat.zero_le _)]

theorem length_entriesText (es : List (Byte × ByteString)) : (entriesText es).length = 2 * es.length + codeLengths es := by
  induction es with
  | nil => rfl
  | cons e es ih =>
    have : entriesText (e :: es) = treeEntry e.1 e.2 ++ entriesText es := by simp [entriesText]
    rw [this, List.length_append, ih]
    simp [treeEntry, codeLengths]; omega

theorem length_codesOf (t : Tree) : (codesOf t).length = t.leaves.length := by
  rw [← codesOf_fst, List.length_map]

theorem codeLengths_codesOf_le {t : Tree} (h : t.full = true) :
    codeLengths (codesOf t) ≤ 1 ∨ 2 * codeLengths (codesOf t) + 2 ≤ t.leaves.length * t.leaves.length + t.leaves.length := by
  cases t with
  | absent => simp [Tree.full] at h
  | leaf b => left; simp [codesOf, codeLengths]
  | node l r => right; simpa [codesOf] using codeLengths_leafCodes_le h []

/-- The tree text is at most 33407 bytes (30_encoding.md R82). -/
theorem HencText.treeLen_le {input : ByteString} {t : State} (h : HencText input t) : t.huf.treeLen ≤ 33407 := by
  have hn : t.huf.tree.leaves.length ≤ 256 := by
    rw [h.leaves.length_eq]; exact length_symbolsOf_le input
  rw [h.treeLen, h.tbuf, length_entriesText, length_codesOf]
  rcases codeLengths_codesOf_le h.full with h1 | h1
  · omega
  · have : t.huf.tree.leaves.length * t.huf.tree.leaves.length ≤ 256 * 256 := Nat.mul_le_mul hn hn
    omega

/-- The prefix code is complete (R151 d). -/
theorem leafCodes_kraft {t : Tree} (h : t.full = true) (p : ByteString) :
    ((leafCodes t p).map fun e => (1 / 2 : ℚ) ^ e.2.length).sum = (1 / 2) ^ p.length := by
  induction t generalizing p with
  | absent => simp [Tree.full] at h
  | leaf b => simp [leafCodes]
  | node l r ihl ihr =>
    simp only [Tree.full, Bool.and_eq_true] at h
    simp only [leafCodes, List.map_append, List.sum_append, ihl h.1, ihr h.2, List.length_append, List.length_cons,
      List.length_nil, Nat.zero_add, pow_succ]
    ring

end Sys2Proof.Machine
end

