-- ==== Sys2Proof/Laws/Lzw.lean ====
section
/-! SUPPORT. What each phase of LZW.ENC and LZW.DEC does (44_lzw.md R200 to R214): the scan emits `lzwCodesOf`, the decoder reads
`lzwBytesOf`, and the one undoes the other (R213, R214). -/

namespace Sys2Proof.Machine

/-! ### Maps held as lists of pairs -/

theorem lookup_eq_some_of_nodup {α β : Type} [BEq α] [LawfulBEq α] {l : List (α × β)} (hn : (l.map Prod.fst).Nodup) {a : α} {b : β} :
    l.lookup a = some b ↔ (a, b) ∈ l := by
  induction l with
  | nil => simp
  | cons p l ih =>
    obtain ⟨x, y⟩ := p
    rw [List.map_cons, List.nodup_cons] at hn
    rw [List.lookup_cons]
    by_cases h : a = x
    · subst h
      simp only [beq_self_eq_true, List.mem_cons, Prod.mk.injEq, true_and]
      constructor
      · intro h; cases h; exact .inl rfl
      · rintro (h | h)
        · rw [h]
        · exact absurd (List.mem_map_of_mem (f := Prod.fst) h) hn.1
    · have hb : (a == x) = false := by simpa using h
      simp [hb, h, ih hn.2]

theorem lookup_eq_none_iff_keys {α β : Type} [BEq α] [LawfulBEq α] {l : List (α × β)} {a : α} :
    l.lookup a = none ↔ a ∉ l.map Prod.fst := by
  induction l with
  | nil => simp
  | cons p l ih =>
    obtain ⟨x, y⟩ := p
    rw [List.lookup_cons]
    by_cases h : a = x
    · simp [h]
    · have hb : (a == x) = false := by simpa using h
      rw [List.map_cons, List.mem_cons, not_or]
      simp [hb, h, ih]

@[simp] theorem length_dictOf (d : List ByteString) : (dictOf d).length = d.length := by simp [dictOf]
@[simp] theorem length_invOf (d : List ByteString) : (invOf d).length = d.length := by simp [invOf]

theorem dictOf_append (d : List ByteString) (e : ByteString) : dictOf (d ++ [e]) = dictOf d ++ [(e, d.length)] := by
  simp [dictOf, List.zipIdx_append]

theorem invOf_append (d : List ByteString) (e : ByteString) : invOf (d ++ [e]) = invOf d ++ [(d.length, e)] := by
  simp [invOf, List.zipIdx_append]

theorem dictOf_fst (d : List ByteString) : (dictOf d).map Prod.fst = d := by simp [dictOf]

theorem invOf_fst (d : List ByteString) : (invOf d).map Prod.fst = List.range d.length := by
  simp only [invOf, List.map_map]
  have : (Prod.fst ∘ Prod.swap : ByteString × Nat → Nat) = Prod.snd := by funext p; rfl
  rw [this, List.zipIdx_map_snd, List.range_eq_range']

/-- Where a string stands in a dictionary is its code. -/
theorem dictOf_lookup {d : List ByteString} (hn : d.Nodup) {k : ByteString} (h : k ∈ d) :
    (dictOf d).lookup k = some (d.idxOf k) := by
  rw [lookup_eq_some_of_nodup (by rwa [dictOf_fst]), dictOf, List.mem_zipIdx_iff_getElem?]
  simp [List.getElem?_idxOf h]

theorem dictOf_lookup_none {d : List ByteString} {k : ByteString} : (dictOf d).lookup k = none ↔ k ∉ d := by
  rw [lookup_eq_none_iff_keys, dictOf_fst]

theorem invOf_lookup (d : List ByteString) (k : Nat) : (invOf d).lookup k = d[k]? := by
  cases h : (invOf d).lookup k with
  | none =>
    rw [lookup_eq_none_iff_keys, invOf_fst, List.mem_range, Nat.not_lt] at h
    rw [List.getElem?_eq_none h]
  | some e =>
    rw [lookup_eq_some_of_nodup (by rw [invOf_fst]; exact List.nodup_range), invOf, List.mem_map] at h
    obtain ⟨⟨e', k'⟩, hm, he⟩ := h
    cases he
    rw [List.mem_zipIdx_iff_getElem?] at hm
    exact hm.symm

theorem seedDict_eq : seedDict = dictOf seedStrings := by decide +kernel

theorem seedInv_eq : seedInv = invOf seedStrings := by decide +kernel

@[simp] theorem length_seedStrings : seedStrings.length = 256 := by simp [seedStrings]

theorem nodup_seedStrings : seedStrings.Nodup := by
  refine List.Nodup.map_on ?_ List.nodup_range
  intro a ha b hb h
  have h' := congrArg BitVec.toNat (List.cons.inj h).1
  rw [List.mem_range] at ha hb
  simpa [Nat.mod_eq_of_lt ha, Nat.mod_eq_of_lt hb] using h'

theorem seedStrings_ne_nil {e : ByteString} (h : e ∈ seedStrings) : e.length = 1 := by
  obtain ⟨b, -, rfl⟩ := List.mem_map.mp h; rfl

theorem getElem?_seedStrings {k : Nat} (h : k < 256) : seedStrings[k]? = some [BitVec.ofNat 8 k] := by
  simp [seedStrings, h]

theorem mem_seedStrings (c : Byte) : [c] ∈ seedStrings := by
  refine List.mem_of_getElem? (i := c.toNat) ?_
  rw [getElem?_seedStrings c.isLt]; simp

theorem idxOf_seedStrings (c : Byte) : seedStrings.idxOf [c] = c.toNat := by
  have h := List.getElem?_idxOf (mem_seedStrings c)
  have hlt : seedStrings.idxOf [c] < 256 := by
    have := List.idxOf_lt_length_of_mem (mem_seedStrings c)
    simpa using this
  rw [getElem?_seedStrings hlt] at h
  simp only [Option.some.injEq, List.cons.injEq, and_true] at h
  have h' := congrArg BitVec.toNat h
  rw [BitVec.toNat_ofNat, Nat.mod_eq_of_lt (by omega)] at h'
  exact h'

/-! ### The parse -/

/-- What R212 says of the dictionary and the phrase: no string twice or empty, the seed first, prefix-closed, the phrase a
string of the dictionary or empty. -/
structure ParseInv (d : List ByteString) (current : ByteString) : Prop where
  nodup : d.Nodup
  nonempty : ∀ e ∈ d, e ≠ []
  seed : seedStrings <+: d
  closed : ∀ e ∈ d, e.dropLast ≠ [] → e.dropLast ∈ d
  current : current = [] ∨ current ∈ d

theorem ParseInv.single {d : List ByteString} {cur : ByteString} (h : ParseInv d cur) (c : Byte) : [c] ∈ d :=
  h.seed.subset (mem_seedStrings c)

theorem parseInv_seed : ParseInv seedStrings [] where
  nodup := nodup_seedStrings
  nonempty := fun e he h => by have := seedStrings_ne_nil he; rw [h] at this; simp at this
  seed := List.prefix_refl _
  closed := fun e he h => by
    have := seedStrings_ne_nil he
    exact absurd (List.length_eq_zero_iff.mp (by simp [this])) h
  current := .inl rfl

theorem ParseInv.extend {d : List ByteString} {cur : ByteString} (h : ParseInv d cur) {c : Byte} (hc : cur ++ [c] ∈ d) :
    ParseInv d (cur ++ [c]) := ⟨h.nodup, h.nonempty, h.seed, h.closed, .inr hc⟩

/-- Where the extended phrase is no string of the dictionary, the phrase itself is one (R203). -/
theorem ParseInv.mem_current {d : List ByteString} {cur : ByteString} (h : ParseInv d cur) {c : Byte} (hc : cur ++ [c] ∉ d) :
    cur ∈ d := by
  rcases h.current with h' | h'
  · subst h'; exact absurd (h.single c) hc
  · exact h'

theorem ParseInv.insert {d : List ByteString} {cur : ByteString} (h : ParseInv d cur) {c : Byte} (hc : cur ++ [c] ∉ d) :
    ParseInv (d ++ [cur ++ [c]]) [c] where
  nodup := by
    rw [List.nodup_append]
    refine ⟨h.nodup, by simp, ?_⟩
    rintro a ha b hb rfl
    simp only [List.mem_singleton] at hb
    exact hc (hb ▸ ha)
  nonempty := by
    intro e he
    rcases List.mem_append.mp he with he | he
    · exact h.nonempty e he
    · simp only [List.mem_singleton] at he; subst he; simp
  seed := h.seed.trans (List.prefix_append _ _)
  closed := by
    intro e he hne
    rcases List.mem_append.mp he with he | he
    · exact List.mem_append_left _ (h.closed e he hne)
    · simp only [List.mem_singleton] at he; subst he
      rw [List.dropLast_concat]
      exact List.mem_append_left _ (h.mem_current hc)
  current := .inr (List.mem_append_left _ (h.single c))

/-- The invariants hold after every prefix of the input (R212 a, b, c). -/
theorem lzwParse_inv {x : ByteString} {d : List ByteString} {cur : ByteString} (h : ParseInv d cur) :
    ParseInv (lzwParse d cur x).1 (lzwParse d cur x).2.1 := by
  induction x generalizing d cur with
  | nil => exact h
  | cons c x ih =>
    unfold lzwParse
    split
    · rename_i hc; exact ih (h.extend hc)
    · rename_i hc; exact ih (h.insert hc)

/-- The dictionary only grows (R203). -/
theorem lzwParse_grows (x : ByteString) (d : List ByteString) (cur : ByteString) : d <+: (lzwParse d cur x).1 := by
  induction x generalizing d cur with
  | nil => exact List.prefix_refl _
  | cons c x ih =>
    unfold lzwParse
    split
    · exact ih _ _
    · exact (List.prefix_append _ _).trans (ih _ _)

/-- One code per insertion (R212 d). -/
theorem lzwParse_length (x : ByteString) (d : List ByteString) (cur : ByteString) :
    (lzwParse d cur x).1.length = d.length + (lzwParse d cur x).2.2.length := by
  induction x generalizing d cur with
  | nil => rfl
  | cons c x ih =>
    unfold lzwParse
    split
    · exact ih _ _
    · simp only [ih, List.length_append, List.length_cons, List.length_nil]; omega

theorem getElem?_of_le {α : Type} {a b : List α} (h : a <+: b) {k : Nat} {x : α} (hk : a[k]? = some x) : b[k]? = some x := by
  obtain ⟨t, rfl⟩ := h
  have hlt : k < a.length := by
    rw [List.getElem?_eq_some_iff] at hk; exact hk.1
  rw [List.getElem?_append_left hlt, hk]

/-- The strings of the emitted codes, then the phrase, are what has been read (R212 e). -/
theorem lzwParse_strings {x : ByteString} {d : List ByteString} {cur : ByteString} (h : ParseInv d cur) :
    ((lzwParse d cur x).2.2.flatMap fun k => ((lzwParse d cur x).1[k]?).getD []) ++ (lzwParse d cur x).2.1 = cur ++ x := by
  induction x generalizing d cur with
  | nil => simp [lzwParse]
  | cons c x ih =>
    unfold lzwParse
    split
    · rename_i hc; rw [ih (h.extend hc)]; simp
    · rename_i hc
      have h1 := getElem?_of_le ((List.prefix_append d [cur ++ [c]]).trans (lzwParse_grows x (d ++ [cur ++ [c]]) [c]))
        (List.getElem?_idxOf (h.mem_current hc))
      simp only [List.flatMap_cons, List.append_assoc, h1, Option.getD_some]
      rw [ih (h.insert hc)]
      simp

/-- The code emitted at emission number `j` is below the number of strings then in the dictionary (R212 f). -/
theorem lzwParse_code_lt {x : ByteString} {d : List ByteString} {cur : ByteString} (h : ParseInv d cur) {j k : Nat}
    (hk : (lzwParse d cur x).2.2[j]? = some k) : k < d.length + j := by
  induction x generalizing d cur j with
  | nil => simp [lzwParse] at hk
  | cons c x ih =>
    unfold lzwParse at hk
    split at hk
    · rename_i hc; exact ih (h.extend hc) hk
    · rename_i hc
      cases j with
      | zero =>
        simp only [List.getElem?_cons_zero, Option.some.injEq] at hk
        subst hk
        exact List.idxOf_lt_length_of_mem (h.mem_current hc)
      | succ j =>
        simp only [List.getElem?_cons_succ] at hk
        have := ih (h.insert hc) hk
        simp only [List.length_append, List.length_cons, List.length_nil] at this
        omega

/-- No more codes than symbols read (R205). -/
theorem lzwParse_codes_le (x : ByteString) (d : List ByteString) (cur : ByteString) :
    (lzwParse d cur x).2.2.length ≤ x.length := by
  induction x generalizing d cur with
  | nil => simp [lzwParse]
  | cons c x ih =>
    unfold lzwParse
    split
    · exact (ih _ _).trans (by simp)
    · have := ih (d ++ [cur ++ [c]]) [c]
      simp; omega

theorem lzwParse_current_ne_nil {x : ByteString} {d : List ByteString} {cur : ByteString} (h : cur ≠ [] ∨ x ≠ []) :
    (lzwParse d cur x).2.1 ≠ [] := by
  induction x generalizing d cur with
  | nil => simpa [lzwParse] using h
  | cons c x ih =>
    unfold lzwParse
    split
    · exact ih (.inl (by simp))
    · exact ih (.inl (by simp))

/-! ### The round trip of the codes -/

/-- In the decoder's terms the code of the encoder's phrase stands for that phrase, known or self-referring (R209, R210, R213). -/
theorem lzwEntryAt_lockstep {i : List ByteString} {w cur : ByteString} (hw : w ≠ []) (hd : (i ++ [w ++ cur.take 1]).Nodup)
    (hc : cur ∈ i ++ [w ++ cur.take 1]) :
    lzwEntryAt i w ((i ++ [w ++ cur.take 1]).idxOf cur) = some cur := by
  have h := List.getElem?_idxOf hc
  have hlt := List.idxOf_lt_length_of_mem hc
  generalize (i ++ [w ++ cur.take 1]).idxOf cur = k at *
  simp only [List.length_append, List.length_cons, List.length_nil] at hlt
  unfold lzwEntryAt
  split
  · rename_i hk
    rwa [List.getElem?_append_left hk] at h
  · have hk : k = i.length := by omega
    subst hk
    rw [if_pos rfl]
    rw [List.getElem?_append_right (le_refl _)] at h
    simp only [Nat.sub_self, List.getElem?_cons_zero, Option.some.injEq] at h
    obtain ⟨a, w', rfl⟩ := List.exists_cons_of_ne_nil hw
    have : cur.take 1 = [a] := by rw [← h]; simp
    rw [this] at h
    rw [← h]; simp

/-- The lock-step: from a dictionary that trails the encoder's by one insertion the decoder reads back what the encoder still had to
emit (R213). -/
theorem lzwRead_parse {x : ByteString} {i : List ByteString} {w cur : ByteString} (hw : w ≠ []) (hcur : cur ≠ [])
    (h : ParseInv (i ++ [w ++ cur.take 1]) cur) :
    lzwRead i w ((lzwParse (i ++ [w ++ cur.take 1]) cur x).2.2 ++
      lzwFlush (lzwParse (i ++ [w ++ cur.take 1]) cur x).1 (lzwParse (i ++ [w ++ cur.take 1]) cur x).2.1) = some (cur ++ x) := by
  have hm : cur ∈ i ++ [w ++ cur.take 1] := h.current.resolve_left hcur
  have he := lzwEntryAt_lockstep hw h.nodup hm
  induction x generalizing i w cur with
  | nil => simp [lzwParse, lzwFlush, hcur, lzwRead, he]
  | cons c x ih =>
    unfold lzwParse
    split
    · rename_i hc
      have ht : (cur ++ [c]).take 1 = cur.take 1 := by
        obtain ⟨a, w', rfl⟩ := List.exists_cons_of_ne_nil hcur; simp
      have h' : ParseInv (i ++ [w ++ (cur ++ [c]).take 1]) (cur ++ [c]) := by rw [ht]; exact h.extend hc
      have hm' := h'.current.resolve_left (by simp)
      have := ih hw (by simp) h' hm' (lzwEntryAt_lockstep hw h'.nodup hm')
      rw [ht] at this
      rw [this]; simp
    · rename_i hc
      have h' : ParseInv ((i ++ [w ++ cur.take 1]) ++ [cur ++ [c].take 1]) [c] := h.insert hc
      have hm' := h'.current.resolve_left (by simp)
      have := ih (i := i ++ [w ++ cur.take 1]) (w := cur) (cur := [c]) hcur (by simp) h' hm'
        (lzwEntryAt_lockstep hcur h'.nodup hm')
      simp only [List.take_succ_cons, List.take_zero] at this
      simp only [List.cons_append, lzwRead, he]
      rw [this]; simp

theorem lzwParse_seed_cons (c : Byte) (x : ByteString) : lzwParse seedStrings [] (c :: x) = lzwParse seedStrings [c] x := by
  conv_lhs => unfold lzwParse
  rw [if_pos (by simpa using mem_seedStrings c)]
  rfl

/-- The codes of an input stand for the input (R214). -/
theorem lzwBytesOf_lzwCodesOf (x : ByteString) : lzwBytesOf (lzwCodesOf x) = some x := by
  cases x with
  | nil => simp [lzwCodesOf, lzwParse, lzwFlush, lzwBytesOf]
  | cons c x =>
    unfold lzwCodesOf
    rw [lzwParse_seed_cons]
    have hc : ¬255 < c.toNat := by have := c.isLt; omega
    cases x with
    | nil => simp [lzwParse, lzwFlush, lzwBytesOf, lzwRead, idxOf_seedStrings, hc]
    | cons c' x =>
      have hn : [c] ++ [c'] ∉ seedStrings := by intro h; have := seedStrings_ne_nil h; simp at this
      have hinv : ParseInv seedStrings [c] := ⟨parseInv_seed.nodup, parseInv_seed.nonempty, parseInv_seed.seed,
        parseInv_seed.closed, .inr (mem_seedStrings c)⟩
      have := lzwRead_parse (x := x) (i := seedStrings) (w := [c]) (cur := [c']) (by simp) (by simp) (hinv.insert hn)
      simp only [List.take_succ_cons, List.take_zero] at this
      unfold lzwParse
      rw [if_neg hn]
      simp only [idxOf_seedStrings, List.cons_append, lzwBytesOf, if_neg hc, BitVec.ofNat_toNat, BitVec.setWidth_eq]
      simp only [List.cons_append, List.nil_append] at this ⊢
      rw [this]; simp

/-- The codes of a non-empty input: between one and as many as symbols, the first a seed code, each below `255 + m` (R205). -/
theorem lzwCodesOf_bounds {x : ByteString} (hx : x ≠ []) :
    1 ≤ (lzwCodesOf x).length ∧ (lzwCodesOf x).length ≤ x.length ∧
      ∀ j k, (lzwCodesOf x)[j]? = some k → k ≤ 255 + j := by
  have hne := lzwParse_current_ne_nil (d := seedStrings) (cur := []) (x := x) (.inr hx)
  have hinv := lzwParse_inv (x := x) parseInv_seed
  have hlen := lzwParse_length x seedStrings []
  have hcodes : lzwCodesOf x = (lzwParse seedStrings [] x).2.2 ++ [(lzwParse seedStrings [] x).1.idxOf (lzwParse seedStrings [] x).2.1] := by
    simp [lzwCodesOf, lzwFlush, hne]
  have hle : (lzwParse seedStrings [] x).2.2.length + 1 ≤ x.length := by
    obtain ⟨c, x, rfl⟩ := List.exists_cons_of_ne_nil hx
    rw [lzwParse_seed_cons]
    have := lzwParse_codes_le x seedStrings [c]
    simp; omega
  rw [hcodes]
  refine ⟨by simp, by simpa using hle, ?_⟩
  intro j k hk
  by_cases hj : j < (lzwParse seedStrings [] x).2.2.length
  · rw [List.getElem?_append_left hj] at hk
    have := lzwParse_code_lt parseInv_seed hk
    simp at this; omega
  · rw [List.getElem?_append_right (by omega)] at hk
    have hm := List.idxOf_lt_length_of_mem (hinv.current.resolve_left hne)
    rw [hlen, length_seedStrings] at hm
    have : j - (lzwParse seedStrings [] x).2.2.length = 0 := by
      by_contra h
      obtain ⟨n, hn⟩ := Nat.exists_eq_succ_of_ne_zero h
      rw [hn] at hk; simp at hk
    rw [this] at hk
    simp only [List.getElem?_cons_zero, Option.some.injEq] at hk
    omega

end Sys2Proof.Machine
end

