-- ==== Sys2Proof/Laws/LzwRun.lean ====
section
/-! SUPPORT. The phases of LZW.ENC and LZW.DEC run the parse and the reading of Lzw.lean (44_lzw.md R201 to R211): what each ends
with, and what they keep. -/

namespace Sys2Proof.Machine

/-! ### What the commands keep -/

/-- The part of the state no LZW command changes (R218): everything but PHASE, IPOS, OUTACC and the LZW working state. -/
def lzwKept (s : State) :=
  ((s.cfg, s.status, s.errCode, s.inLen, s.outLen, s.value, s.inBuf, s.outBuf),
   (s.latch, s.huf, s.params, s.pending, s.readLog, s.inEpoch, s.outEpoch))

/-- LZW.ENC also keeps INV and OUTACC (R201). -/
def lzwEncKept (s : State) := (lzwKept s, s.lzw.inv, s.outAcc)

/-- LZW.DEC also keeps DICT (R206). -/
def lzwDecKept (s : State) := (lzwKept s, s.lzw.dict)

theorem lzwScan_keeps (x : ByteString) (s : State) : (lzwScan x s).Keeps lzwEncKept (lzwEncKept s) := by
  induction x generalizing s with
  | nil => rfl
  | cons c x ih =>
    unfold lzwScan
    dsimp only
    split
    · exact ih _
    · split
      · trivial
      · split
        · rfl
        · exact ih _

theorem lzwEncPhases_keep (input : ByteString) :
    ∀ p ∈ lzwEncPhases input, ∀ s, (p.2 s).Keeps lzwEncKept (lzwEncKept s) := by
  intro p hp s
  simp only [lzwEncPhases, List.mem_cons, List.not_mem_nil, or_false] at hp
  rcases hp with rfl | rfl | rfl | rfl | rfl <;> dsimp only
  · unfold lzwEncEmpty; split <;> rfl
  · unfold lzwEncSeed; split <;> rfl
  · exact lzwScan_keeps _ _
  · unfold lzwEncFlush; split
    · rfl
    · split <;> first | rfl | trivial
  · rfl

theorem splitChunks_keeps (n : Nat) (x : ByteString) (s : State) :
    (splitChunks n x s).Keeps (fun t => (lzwDecKept t, t.lzw.inv)) (lzwDecKept s, s.lzw.inv) := by
  induction n generalizing x s with
  | zero => rfl
  | succ n ih =>
    unfold splitChunks
    dsimp only
    split
    · rfl
    · exact ih _ _

theorem lzwStep_keeps (ks : List Nat) (s : State) : (lzwStep ks s).Keeps lzwDecKept (lzwDecKept s) := by
  induction ks generalizing s with
  | nil => rfl
  | cons k ks ih =>
    unfold lzwStep
    split
    · rfl
    · trivial
    · trivial
    · dsimp only
      split
      · rfl
      · exact ih _

theorem lzwDecPhases_keep (input : ByteString) :
    ∀ p ∈ lzwDecPhases input, ∀ s, (p.2 s).Keeps lzwDecKept (lzwDecKept s) := by
  intro p hp s
  simp only [lzwDecPhases, List.mem_cons, List.not_mem_nil, or_false] at hp
  rcases hp with rfl | rfl | rfl | rfl | rfl | rfl <;> dsimp only
  · unfold lzwDecEmpty; split <;> rfl
  · unfold lzwDecSplit; split
    · rfl
    · exact (splitChunks_keeps _ _ _).map Prod.fst
  · unfold lzwDecSeed; split <;> rfl
  · unfold lzwDecFirst; split
    · trivial
    · split
      · rfl
      · split <;> first | rfl | trivial
  · exact lzwStep_keeps _ _
  · rfl

/-! ### LZW.ENC -/

/-- The encoder's working state, from the dictionary's strings, the phrase and the codes so far (R212). -/
def encState (l : LzwState) (d : List ByteString) (cur : ByteString) (codes : List Nat) : LzwState :=
  { l with dict := dictOf d, nextCode := d.length, current := cur, codes := codes }

/-- The scan is the parse (R203), unless `DICT_CAP` is passed. -/
theorem lzwScan_sat (x : ByteString) (s : State) (l : LzwState) (d : List ByteString) (cur : ByteString) (codes : List Nat)
    (h : s.lzw = encState l d cur codes) (hinv : ParseInv d cur) :
    (lzwScan x s).Sat
      (fun t => t.lzw = encState l (lzwParse d cur x).1 (lzwParse d cur x).2.1 (codes ++ (lzwParse d cur x).2.2))
      (fun _ _ _ => False)
      (fun t e => (∃ y, y <+: x ∧ t.lzw.dict = dictOf (lzwParse d cur y).1) ∧ LimitError s.params t e) := by
  induction x generalizing s d cur codes with
  | nil => simp [lzwScan, lzwParse, h]
  | cons c x ih =>
    have ext : ∀ (c : Byte) {y : ByteString}, y <+: x → (c :: y) <+: (c :: x) :=
      fun c _ hy => List.cons_prefix_cons.mpr ⟨rfl, hy⟩
    by_cases hc : cur ++ [c] ∈ d
    · obtain ⟨k, hk⟩ : ∃ k, (dictOf d).lookup (cur ++ [c]) = some k := ⟨_, dictOf_lookup hinv.nodup hc⟩
      have e : lzwScan (c :: x) s = lzwScan x { s.consume 1 with lzw := encState l d (cur ++ [c]) codes } := by
        conv_lhs => unfold lzwScan
        simp only [State.consume_lzw, h, encState, hk]
      rw [e]
      conv => arg 1; unfold lzwParse
      simp only [if_pos hc]
      refine (ih _ d (cur ++ [c]) codes rfl (hinv.extend hc)).mono (fun _ h => h) (fun _ _ _ h => h) ?_
      rintro t e ⟨⟨y, hy, hd⟩, he⟩
      refine ⟨⟨c :: y, ext c hy, ?_⟩, he⟩
      rw [hd, lzwParse, if_pos hc]
    · have hm := hinv.mem_current hc
      have e : lzwScan (c :: x) s =
          if dictBeyond s.params (d.length + 1) = true then
            .raise { s.consume 1 with lzw := encState l d cur (codes ++ [d.idxOf cur]) } .capacityExceeded
          else
            lzwScan x { s.consume 1 with lzw := encState l (d ++ [cur ++ [c]]) [c] (codes ++ [d.idxOf cur]) } := by
        conv_lhs => unfold lzwScan
        simp only [State.consume_lzw, State.consume_params, h, encState, dictOf_lookup_none.mpr hc,
          dictOf_lookup hinv.nodup hm, length_dictOf, dictOf_append, List.length_append, List.length_cons, List.length_nil]
      rw [e]
      conv => arg 1; unfold lzwParse
      simp only [if_neg hc]
      split
      · rename_i hl
        exact ⟨⟨[], List.nil_prefix, rfl⟩, rfl, dictBeyond_limit hl⟩
      · have := ih { s.consume 1 with lzw := encState l (d ++ [cur ++ [c]]) [c] (codes ++ [d.idxOf cur]) }
          (d ++ [cur ++ [c]]) [c] (codes ++ [d.idxOf cur]) rfl (hinv.insert hc)
        simp only [List.append_assoc, List.singleton_append] at this
        refine this.mono (fun _ h => h) (fun _ _ _ h => h) ?_
        rintro t e ⟨⟨y, hy, hd⟩, he⟩
        refine ⟨⟨c :: y, ext c hy, ?_⟩, he⟩
        rw [hd, lzwParse, if_neg hc]

/-- L4_FLUSH (R204). -/
theorem lzwEncFlush_eq {s : State} {l : LzwState} {d : List ByteString} {cur : ByteString} {codes : List Nat}
    (h : s.lzw = encState l d cur codes) (hinv : ParseInv d cur) :
    lzwEncFlush s = .go { s with lzw := encState l d cur (codes ++ lzwFlush d cur) } := by
  unfold lzwEncFlush lzwFlush
  rw [h]
  by_cases hc : cur = []
  · subst hc
    simp only [encState, if_true, List.append_nil]
    congr 1
    obtain ⟨⟩ := s
    simpa [encState] using h
  · simp [encState, hc, dictOf_lookup hinv.nodup (hinv.current.resolve_left hc)]

/-- DICT and INV after a command, as long as they were well-formed before (R37, R38). -/
def EncDict (s t : State) : Prop := t.lzw.dict = s.lzw.dict ∨ ∃ y, t.lzw.dict = dictOf (lzwParse seedStrings [] y).1

/-- LZW.ENC on a non-empty input (R201): it finishes with the words of the input's codes, unless `DICT_CAP` is passed. -/
theorem lzwEncPhases_sat {input : ByteString} (hne : input ≠ []) (s : State) :
    (runPhases (lzwEncPhases input) s).Sat (fun _ => False)
      (fun t out ovf =>
        t.lzw = encState s.lzw (lzwParse seedStrings [] input).1 (lzwParse seedStrings [] input).2.1 (lzwCodesOf input) ∧
          out = (lzwCodesOf input).flatMap s.serWord ∧ ovf = (lzwCodesOf input).any s.serOverflows)
      (fun t e => EncDict s t ∧ LimitError s.params t e) := by
  unfold lzwEncPhases
  refine runPhases_cons_sat _ _ _ _ ?_
  rw [lzwEncEmpty, if_neg hne, Ctl.sat_go]
  refine runPhases_cons_sat _ _ _ _ ?_
  unfold lzwEncSeed
  split
  · rename_i h; exact ⟨.inl rfl, rfl, dictBeyond_limit h⟩
  · rw [Ctl.sat_go]
    refine runPhases_cons_sat _ _ _ _ ?_
    generalize hs1 : State.enter _ Phase.l3Scan = s1
    have e1 : s1.lzw = encState s.lzw seedStrings [] [] ∧ s1.params = s.params ∧ s1.serWord = s.serWord ∧
        s1.serOverflows = s.serOverflows ∧ lzwKept s1 = lzwKept s1 := by
      subst hs1
      refine ⟨?_, rfl, rfl, rfl, rfl⟩
      simp only [encState, ← seedDict_eq, length_seedStrings]
      rfl
    refine ((lzwScan_sat input s1 _ _ _ _ e1.1 parseInv_seed).and_keeps (lzwScan_keeps input s1)).mono ?_
      (fun _ _ _ h => h.1.elim) ?_
    · rintro t ⟨ht, hk⟩
      have hcfg : t.cfg = s1.cfg := congrArg (fun k => k.1.1.1) hk
      have hpar : t.params = s1.params := congrArg (fun k => k.1.2.2.2.1) hk
      refine runPhases_cons_sat _ _ _ _ ?_
      rw [lzwEncFlush_eq (s := t.enter .l4Flush) ht (lzwParse_inv parseInv_seed), Ctl.sat_go]
      refine runPhases_cons_sat _ _ _ _ ?_
      refine ⟨by simp [lzwCodesOf, State.enter], ?_⟩
      have hw : ∀ v, State.serWord t v = s.serWord v := by
        intro v; rw [← e1.2.2.1]; unfold State.serWord State.wordBits State.mode; rw [hcfg, hpar]
      have ho : ∀ v, State.serOverflows t v = s.serOverflows v := by
        intro v; rw [← e1.2.2.2.1]; unfold State.serOverflows State.wordBits; rw [hcfg]
      refine ⟨?_, ?_⟩
      · show List.flatMap (State.serWord t) _ = _
        rw [funext hw]; simp [lzwCodesOf, encState, State.enter]
      · show List.any _ (State.serOverflows t) = _
        rw [funext ho]; simp [lzwCodesOf, encState, State.enter]
    · rintro t e ⟨⟨⟨y, -, hd⟩, he⟩, -⟩
      exact ⟨.inr ⟨y, hd⟩, he.1, by rw [← e1.2.1]; exact he.2⟩

/-! ### LZW.DEC -/

/-- The decoder's working state, from the dictionary's strings and the last entry (R209). -/
def decState (l : LzwState) (d : List ByteString) (cur : ByteString) : LzwState :=
  { l with inv := invOf d, nextCode := d.length, current := cur }

/-- INV after a command, as long as it was well-formed before (R38). -/
def DecDict (s t : State) : Prop :=
  t.lzw.inv = s.lzw.inv ∨ ∃ d, t.lzw.inv = invOf d ∧ seedStrings <+: d ∧ ∀ e ∈ d, e ≠ []

theorem lzwEntryOf_decState {l : LzwState} {d : List ByteString} {cur : ByteString} (hc : cur ≠ []) (k : Nat) :
    lzwEntryOf (decState l d cur) k =
      match lzwEntryAt d cur k with
      | none => .unexpected
      | some e => .entry e := by
  unfold lzwEntryOf lzwEntryAt decState
  dsimp only
  rw [invOf_lookup]
  by_cases hk : k < d.length
  · rw [if_pos hk, List.getElem?_eq_getElem hk]
  · rw [if_neg hk, List.getElem?_eq_none (Nat.le_of_not_lt hk)]
    obtain ⟨a, w, rfl⟩ := List.exists_cons_of_ne_nil hc
    by_cases h : k = d.length <;> simp [h]

theorem lzwEntryAt_ne_nil {d : List ByteString} {cur e : ByteString} {k : Nat} (hd : ∀ e ∈ d, e ≠ []) (hc : cur ≠ [])
    (h : lzwEntryAt d cur k = some e) : e ≠ [] := by
  unfold lzwEntryAt at h
  split at h
  · exact hd e (List.mem_of_getElem? h)
  · split at h
    · cases h; simp [hc]
    · cases h

/-- The loop of step 5 is the reading (R209), unless `DICT_CAP` is passed. -/
theorem lzwStep_sat (ks : List Nat) (s : State) (l : LzwState) (d : List ByteString) (cur : ByteString)
    (h : s.lzw = decState l d cur) (hc : cur ≠ []) (hd : ∀ e ∈ d, e ≠ []) (hs : seedStrings <+: d) :
    (lzwStep ks s).Sat
      (fun t => (∃ out, lzwRead d cur ks = some out ∧ t.outAcc = s.outAcc ++ out) ∧ t.lzw.nextCode = d.length + ks.length ∧
        t.lzw.codes = l.codes ∧ DecDict s t)
      (fun _ _ _ => False)
      (fun t e => ((e = .malformedInput ∧ lzwRead d cur ks = none) ∨ LimitError s.params t e) ∧ DecDict s t) := by
  induction ks generalizing s d cur with
  | nil =>
    refine ⟨⟨[], rfl, by simp⟩, ?_, ?_, .inl rfl⟩
    · rw [h]; rfl
    · rw [h]; rfl
  | cons k ks ih =>
    have hdict : ∀ t : State, DecDict s t ↔ DecDict s t := fun _ => Iff.rfl
    unfold lzwStep lzwRead
    rw [h, lzwEntryOf_decState hc]
    cases he : lzwEntryAt d cur k with
    | none => exact ⟨.inl ⟨rfl, rfl⟩, .inl rfl⟩
    | some e =>
      have hne := lzwEntryAt_ne_nil hd hc he
      obtain ⟨e0, es, rfl⟩ := List.exists_cons_of_ne_nil hne
      dsimp only
      split
      · rename_i hl; exact ⟨.inr ⟨rfl, dictBeyond_limit hl⟩, .inl (congrArg LzwState.inv h.symm)⟩
      · have hd' : ∀ x ∈ d ++ [cur ++ [e0]], x ≠ [] := by
          intro x hx
          rcases List.mem_append.mp hx with hx | hx
          · exact hd x hx
          · simp only [List.mem_singleton] at hx; subst hx; simp
        have hs' := hs.trans (List.prefix_append d [cur ++ [e0]])
        refine (ih _ (d ++ [cur ++ [e0]]) (e0 :: es) ?_ (by simp) hd' hs').mono ?_ (fun _ _ _ h => h) ?_
        · simp [decState, invOf_append]
        · rintro t ⟨⟨out, ho, ha⟩, hn, hcod, hdt⟩
          refine ⟨⟨(e0 :: es) ++ out, ?_, ?_⟩, ?_, hcod, ?_⟩
          · simp only [List.take_succ_cons, List.take_zero]
            rw [ho]; rfl
          · rw [ha]; simp
          · rw [hn]; simp; omega
          · rcases hdt with hdt | hdt
            · right
              refine ⟨_, hdt.trans ?_, hs', hd'⟩
              simp [decState, invOf_append]
            · exact .inr hdt
        · rintro t e ⟨he, hdt⟩
          refine ⟨?_, ?_⟩
          · rcases he with ⟨h1, h2⟩ | he
            · left
              refine ⟨h1, ?_⟩
              simp only [List.take_succ_cons, List.take_zero]
              rw [h2]; rfl
            · exact .inr he
          · rcases hdt with hdt | hdt
            · right
              refine ⟨_, hdt.trans ?_, hs', hd'⟩
              simp [decState, invOf_append]
            · exact .inr hdt

/-- A string whose length is a multiple of `n` is a concatenation of chunks of `n` bytes (R207). -/
theorem exists_chunks {n : Nat} (hn : 0 < n) (x : ByteString) (h : x.length % n = 0) :
    ∃ chunks : List ByteString, chunks.flatten = x ∧ (∀ c ∈ chunks, c.length = n) ∧ chunks.length = x.length / n := by
  obtain ⟨m, hm⟩ := Nat.dvd_of_mod_eq_zero h
  clear h
  induction m generalizing x with
  | zero =>
    have : x = [] := List.length_eq_zero_iff.mp (by simpa using hm)
    subst this; exact ⟨[], rfl, by simp, by simp⟩
  | succ m ih =>
    have hx : n ≤ x.length := by rw [hm, Nat.mul_succ]; omega
    obtain ⟨cs, h1, h2, h3⟩ := ih (x.drop n) (by rw [List.length_drop, hm, Nat.mul_succ]; omega)
    refine ⟨x.take n :: cs, ?_, ?_, ?_⟩
    · simp [h1]
    · intro c hc
      rcases List.mem_cons.mp hc with rfl | hc
      · simp [hx]
      · exact h2 c hc
    · rw [List.length_cons, h3, List.length_drop, hm, Nat.mul_div_cancel_left _ hn]
      rw [show n * (m + 1) - n = n * m by rw [Nat.mul_succ]; omega, Nat.mul_div_cancel_left _ hn]

/-- The loop of step 2 deserializes chunk by chunk (R207). -/
theorem splitChunks_sat (chunks : List ByteString) (s : State) (hlen : ∀ c ∈ chunks, c.length = s.sw) :
    (splitChunks chunks.length chunks.flatten s).Sat
      (fun t => ∃ ks, chunks.map (des s.wordBits s.mode) = ks.map .ok ∧ t.lzw.codes = s.lzw.codes ++ ks)
      (fun _ _ _ => False)
      (fun _ e => e = .malformedInput ∧ ∃ c ∈ chunks, ∃ e', des s.wordBits s.mode c = .error e') := by
  induction chunks generalizing s with
  | nil => exact ⟨[], rfl, by simp⟩
  | cons c cs ih =>
    have hc : c.length = s.sw := hlen c (by simp)
    have ht : (c ++ cs.flatten).take s.sw = c := by rw [← hc]; simp
    have hdrop : (c ++ cs.flatten).drop s.sw = cs.flatten := by rw [← hc]; simp
    have e : splitChunks (c :: cs).length (c :: cs).flatten s =
        match des s.wordBits s.mode c with
        | .error _ => .raise (s.consume s.sw) .malformedInput
        | .ok k => splitChunks cs.length cs.flatten
            { s.consume s.sw with lzw := { s.lzw with codes := s.lzw.codes ++ [k] } } := by
      conv_lhs => unfold splitChunks
      simp only [List.length_cons, List.flatten_cons]
      have h1 : (s.consume s.sw).sw = s.sw := rfl
      have h2 : (s.consume s.sw).wordBits = s.wordBits := rfl
      have h3 : (s.consume s.sw).mode = s.mode := rfl
      rw [h1, h2, h3, ht, hdrop]
      rfl
    rw [e]
    cases hd : des s.wordBits s.mode c with
    | error e' => exact ⟨rfl, c, by simp, e', hd⟩
    | ok k =>
      dsimp only
      refine (ih { s.consume s.sw with lzw := { s.lzw with codes := s.lzw.codes ++ [k] } }
        fun c hc => hlen c (by simp [hc])).mono ?_ (fun _ _ _ h => h) ?_
      · rintro t ⟨ks, h1, h2⟩
        refine ⟨k :: ks, ?_, ?_⟩
        · simp only [List.map_cons, hd]; exact congrArg _ h1
        · rw [h2]; simp
      · rintro t e ⟨h1, c', h2, h3⟩
        exact ⟨h1, c', by simp [h2], h3⟩

theorem map_ok_inj {α ε : Type} {a b : List α} (h : a.map (Except.ok (ε := ε)) = b.map .ok) : a = b :=
  List.map_injective_iff.mpr (fun _ _ h => by cases h; rfl) h

theorem splitChunks_of_codes {chunks : List ByteString} {s : State} {ks : List Nat}
    (hk : chunks.map (des s.wordBits s.mode) = ks.map .ok) (hlen : ∀ c ∈ chunks, c.length = s.sw) :
    (splitChunks chunks.length chunks.flatten s).Sat (fun t => t.lzw.codes = s.lzw.codes ++ ks)
      (fun _ _ _ => False) (fun _ _ => False) := by
  refine (splitChunks_sat chunks s hlen).mono ?_ (fun _ _ _ h => h) ?_
  · rintro t ⟨ks', h1, h2⟩
    rw [h2, map_ok_inj (h1.symm.trans hk)]
  · rintro t e ⟨-, c, hc, e', he⟩
    have : Except.error e' ∈ chunks.map (des s.wordBits s.mode) := by rw [← he]; exact List.mem_map_of_mem hc
    rw [hk] at this
    obtain ⟨k, -, hk⟩ := List.mem_map.mp this
    cases hk

theorem chunks_length_div {s : State} {chunks : List ByteString} (h : ∀ c ∈ chunks, c.length = s.sw) :
    chunks.flatten.length = chunks.length * s.sw := by
  induction chunks with
  | nil => simp
  | cons c cs ih =>
    rw [List.flatten_cons, List.length_append, ih fun c hc => h c (by simp [hc]), h c (by simp), List.length_cons, Nat.succ_mul]
    omega

/-- LZW.DEC's first two phases on whole chunks (R207). -/
theorem lzwDecSplit_chunks {s : State} {chunks : List ByteString} (h : ∀ c ∈ chunks, c.length = s.sw) :
    lzwDecSplit chunks.flatten s =
      splitChunks chunks.length chunks.flatten { s with lzw := { s.lzw with codes := [] } } := by
  unfold lzwDecSplit
  rw [chunks_length_div h, Nat.mul_mod_left, Nat.mul_div_cancel _ s.sw_pos]
  simp

/-- LZW.DEC after its first two phases, on the codes it has read (R208 to R211). -/
theorem lzwDecTail_sat (s : State) {k : Nat} {ks : List Nat} (hk : s.lzw.codes = k :: ks) :
    (runPhases [(.m3Seed, lzwDecSeed), (.m4First, lzwDecFirst), (.m5Step, lzwDecStep), (.m6Return, lzwDecReturn)] s).Sat
      (fun _ => False)
      (fun t out ovf => lzwBytesOf (k :: ks) = some out ∧ ovf = false ∧ t.outAcc = out ∧ t.lzw.codes = k :: ks ∧
        t.lzw.nextCode = 255 + (k :: ks).length ∧ DecDict s t)
      (fun t e => ((e = .malformedInput ∧ lzwBytesOf (k :: ks) = none) ∨ LimitError s.params t e) ∧ DecDict s t) := by
  refine runPhases_cons_sat _ _ _ _ ?_
  unfold lzwDecSeed
  split
  · rename_i hl; exact ⟨.inr ⟨rfl, dictBeyond_limit hl⟩, .inl rfl⟩
  rw [Ctl.sat_go]
  have hseed : ∀ e ∈ seedStrings, e ≠ [] := parseInv_seed.nonempty
  have shape : ∀ t u : State, t.lzw.inv = seedInv → DecDict t u → DecDict s u := by
    rintro t u ht (h | h)
    · exact .inr ⟨seedStrings, by rw [h, ht, seedInv_eq], List.prefix_refl _, hseed⟩
    · exact .inr h
  refine runPhases_cons_sat _ _ _ _ ?_
  generalize hs1 : State.enter _ Phase.m4First = s1
  have e1 : s1.lzw = { s.lzw with inv := seedInv, nextCode := 256 } ∧ s1.params = s.params := by subst hs1; exact ⟨rfl, rfl⟩
  unfold lzwDecFirst
  have hc1 : s1.lzw.codes = k :: ks := by rw [e1.1]; exact hk
  have hi1 : s1.lzw.inv = seedInv := by rw [e1.1]
  rw [hc1]
  dsimp only
  by_cases h255 : 255 < k
  · rw [if_pos h255]
    exact ⟨.inl ⟨rfl, by simp [lzwBytesOf, h255]⟩, shape s1 s1 hi1 (.inl rfl)⟩
  have hb : lzwBytesOf (k :: ks) = (lzwRead seedStrings [BitVec.ofNat 8 k] ks).map ([BitVec.ofNat 8 k] ++ ·) := by
    simp only [lzwBytesOf, if_neg h255]
  rw [if_neg h255, hi1, seedInv_eq, invOf_lookup, getElem?_seedStrings (by omega)]
  rw [Ctl.sat_go]
  refine runPhases_cons_sat _ _ _ _ ?_
  generalize hs2 : State.enter _ Phase.m5Step = s2
  have e2 : s2.lzw = decState { s1.lzw with current := [BitVec.ofNat 8 k] } seedStrings [BitVec.ofNat 8 k] ∧
      s2.outAcc = [BitVec.ofNat 8 k] ∧ s2.params = s.params := by
    subst hs2
    refine ⟨?_, rfl, e1.2⟩
    simp only [decState, ← seedInv_eq, length_seedStrings]
    rw [e1.1]; rfl
  have hc2 : s2.lzw.codes = k :: ks := by rw [e2.1]; exact hc1
  have hi2 : s2.lzw.inv = seedInv := by rw [e2.1, seedInv_eq]; rfl
  unfold lzwDecStep
  rw [hc2, List.drop_one, List.tail_cons]
  refine (lzwStep_sat ks s2 _ _ _ e2.1 (by simp) hseed (List.prefix_refl _)).mono ?_ (fun _ _ _ h => h.elim) ?_
  · rintro t ⟨⟨out, ho, ha⟩, hn, hcod, hd⟩
    refine runPhases_cons_sat _ _ _ _ ?_
    refine ⟨?_, rfl, rfl, ?_, ?_, shape s2 t hi2 hd⟩
    · rw [hb, ho]; rw [e2.2.1] at ha
      show _ = some (State.outAcc t)
      rw [ha]; rfl
    · exact hcod.trans hc1
    · rw [show (t.enter .m6Return).lzw.nextCode = t.lzw.nextCode from rfl, hn, length_seedStrings, List.length_cons]; omega
  · rintro t e ⟨he, hd⟩
    refine ⟨?_, shape s2 t hi2 hd⟩
    rcases he with ⟨h1, h2⟩ | he
    · exact .inl ⟨h1, by rw [hb, h2]; rfl⟩
    · right; rw [e2.2.2] at he; exact he

/-- LZW.DEC on a non-empty input (R206): it finishes with what its codes stand for, or raises MalformedInput exactly where the
input is no whole number of chunks, a chunk is not deserializable, or the codes stand for nothing; unless `DICT_CAP` is
passed. -/
theorem lzwDecPhases_sat {input : ByteString} (hne : input ≠ []) (s : State) :
    (runPhases (lzwDecPhases input) s).Sat (fun _ => False)
      (fun t out ovf => (∃ chunks ks, ChunksOf s input chunks ∧ chunks.map (des s.wordBits s.mode) = ks.map .ok ∧
        lzwBytesOf ks = some out ∧ t.lzw.codes = ks ∧ t.lzw.nextCode = 255 + ks.length) ∧ ovf = false ∧ t.outAcc = out ∧
        DecDict s t)
      (fun t e => ((e = .malformedInput ∧
          (input.length % s.sw ≠ 0 ∨
            ∃ chunks, ChunksOf s input chunks ∧
              ((∃ c ∈ chunks, ∃ e', des s.wordBits s.mode c = .error e') ∨
                ∃ ks, chunks.map (des s.wordBits s.mode) = ks.map .ok ∧ lzwBytesOf ks = none))) ∨
        LimitError s.params t e) ∧ DecDict s t) := by
  unfold lzwDecPhases
  refine runPhases_cons_sat _ _ _ _ ?_
  rw [lzwDecEmpty, if_neg hne, Ctl.sat_go]
  refine runPhases_cons_sat _ _ _ _ ?_
  by_cases hm : input.length % s.sw = 0
  · obtain ⟨chunks, h1, h2, -⟩ := exists_chunks s.sw_pos input hm
    have hch : ChunksOf s input chunks := ⟨h1, h2⟩
    subst h1
    rw [lzwDecSplit_chunks (s := (s.enter .m1Empty).enter .m2Split) h2]
    generalize hs0 : State.mk _ _ _ _ _ _ _ _ _ _ _ _ _ _ _ _ _ _ _ = s0
    have e0 : s0.sw = s.sw ∧ s0.wordBits = s.wordBits ∧ s0.mode = s.mode ∧ s0.lzw.codes = [] ∧ s0.params = s.params ∧
        s0.lzw.inv = s.lzw.inv := by
      subst hs0; exact ⟨rfl, rfl, rfl, rfl, rfl, rfl⟩
    have hd := splitChunks_sat chunks s0 (fun c hc => (h2 c hc).trans e0.1.symm)
    rw [e0.2.1, e0.2.2.1, e0.2.2.2.1] at hd
    refine (hd.and_keeps (splitChunks_keeps _ _ _)).mono ?_ (fun _ _ _ h => h.1.elim) ?_
    · rintro t ⟨⟨ks, hk, hc⟩, hkeep⟩
      have hc' : t.lzw.codes = ks := by rw [hc]; simp
      have hp : t.params = s.params := (congrArg (fun k => k.1.1.2.2.2.1) hkeep).trans e0.2.2.2.2.1
      have hi : t.lzw.inv = s.lzw.inv := (congrArg (fun k => k.2) hkeep).trans e0.2.2.2.2.2
      cases ks with
      | nil =>
        have : chunks = [] := by
          have := congrArg List.length hk
          simpa using this
        subst this; simp at hne
      | cons k ks =>
        have back : ∀ u, DecDict t u → DecDict s u := by
          rintro u (h | h)
          · exact .inl (h.trans hi)
          · exact .inr h
        refine (lzwDecTail_sat t hc').mono (fun _ h => h) ?_ ?_
        · rintro u out ovf ⟨g1, g2, g3, g4, g5, g6⟩
          exact ⟨⟨chunks, k :: ks, hch, hk, g1, g4, g5⟩, g2, g3, back u g6⟩
        · rintro u e ⟨g1, g2⟩
          refine ⟨?_, back u g2⟩
          rcases g1 with ⟨g1, g3⟩ | g1
          · exact .inl ⟨g1, .inr ⟨chunks, hch, .inr ⟨k :: ks, hk, g3⟩⟩⟩
          · right; rw [hp] at g1; exact g1
    · rintro t e ⟨⟨he, hx⟩, hkeep⟩
      have hi : t.lzw.inv = s.lzw.inv := (congrArg (fun k => k.2) hkeep).trans e0.2.2.2.2.2
      exact ⟨.inl ⟨he, .inr ⟨chunks, hch, .inl hx⟩⟩, .inl hi⟩
  · unfold lzwDecSplit
    simp only [State.sw_enter, ne_eq, hm, not_false_eq_true, if_true]
    exact ⟨.inl ⟨rfl, .inl trivial⟩, .inl rfl⟩

end Sys2Proof.Machine
end

