-- ==== Sys2Proof/Laws/Exec.lean ====
section
/-! SUPPORT. Every command as one end of its phases (`ctlOf`), and what holds of that end: it is `Finish` or `raise`, which errors it can
be, and what it keeps (40_command_interface.md R106, R110, R111, 60_exceptions.md R230). -/

namespace Sys2Proof.Machine

/-- The capacity check of R106 in front of the phases of a command that reads IN. -/
def guarded (s : State) (c : Ctl) : Ctl := if beyond s.params.capIn s.inLen.toNat then .raise s .capacityExceeded else c

/-- How a command's phases end, the capacity check of R106 first. -/
def ctlOf (i : Instr) (s : State) : Ctl :=
  match i with
  | .iwcSer => runPhases [(.sSer, iwcSerialize)] s
  | .iwcDes => guarded s (runPhases [(.sLen, iwcCheckLength s.input), (.sDigits, iwcDigits s.input)] s)
  | .iwcWidth => runPhases [(.sWidth, iwcReportWidth)] s
  | .hufEnc => guarded s (runPhases (hencPhases s.input) s)
  | .hufDec => guarded s (runPhases (hdecPhases s.input) s)
  | .lzwEnc => guarded s (runPhases (lzwEncPhases s.input) s)
  | .lzwDec => guarded s (runPhases (lzwDecPhases s.input) s)

theorem withInput_eq_conclude (s : State) (f : ByteString → Ctl) :
    withInput s (fun x => conclude (f x)) = conclude (guarded s (f s.input)) := by
  unfold withInput guarded
  split <;> rfl

/-- A command's outcome is the end of its phases (R106). -/
theorem exec_eq (i : Instr) (s : State) : exec i s = conclude (ctlOf i s) := by
  cases i with
  | iwcSer => rfl
  | iwcDes => exact withInput_eq_conclude s fun x => runPhases [(.sLen, iwcCheckLength x), (.sDigits, iwcDigits x)] s
  | iwcWidth => rfl
  | hufEnc => exact withInput_eq_conclude s fun x => runPhases (hencPhases x) s
  | hufDec => exact withInput_eq_conclude s fun x => runPhases (hdecPhases x) s
  | lzwEnc => exact withInput_eq_conclude s fun x => runPhases (lzwEncPhases x) s
  | lzwDec => exact withInput_eq_conclude s fun x => runPhases (lzwDecPhases x) s

theorem inputFits_iff {s : State} : s.inputFits ↔ beyond s.params.capIn s.inLen.toNat = false := beyond_eq_false.symm
theorem outputFits_iff {s : State} {n : Nat} : s.outputFits n ↔ beyond s.params.capOut n = false := beyond_eq_false.symm

theorem not_inputFits_iff {s : State} : ¬s.inputFits ↔ beyond s.params.capIn s.inLen.toNat = true := by
  rw [inputFits_iff, Bool.not_eq_false]

theorem not_outputFits_iff {s : State} {n : Nat} : ¬s.outputFits n ↔ beyond s.params.capOut n = true := by
  rw [outputFits_iff, Bool.not_eq_false]

theorem guarded_of_fits {s : State} (h : s.inputFits) (c : Ctl) : guarded s c = c := by
  simp [guarded, inputFits_iff.mp h]

theorem guarded_of_not_fits {s : State} (h : ¬s.inputFits) (c : Ctl) : guarded s c = .raise s .capacityExceeded := by
  simp [guarded, not_inputFits_iff.mp h]

theorem guarded_sat {s : State} {c : Ctl} {G F R} (h : s.inputFits → c.Sat G F R) (hc : ¬s.inputFits → R s .capacityExceeded) :
    (guarded s c).Sat G F R := by
  by_cases hs : s.inputFits
  · rw [guarded_of_fits hs]; exact h hs
  · rw [guarded_of_not_fits hs]; exact hc hs

theorem guarded_keeps {α} {π : State → α} {s : State} {c : Ctl} (h : c.Keeps π (π s)) : (guarded s c).Keeps π (π s) := by
  unfold guarded
  split
  · rfl
  · exact h

/-! ### The ends of IWC's commands -/

theorem ctlOf_iwcSer (s : State) :
    ctlOf .iwcSer s = .finish (s.enter .sSer) (s.serWord s.value.toNat) (s.serOverflows s.value.toNat) := rfl

theorem ctlOf_iwcWidth (s : State) :
    ctlOf .iwcWidth s = .finish { s.enter .sWidth with value := BitVec.ofNat 64 s.sw } [] false := rfl

/-- IWC.DES's phases: the length, then the digits (R122, R125). -/
theorem iwcDesPhases_eq (s : State) (x : ByteString) :
    runPhases [(.sLen, iwcCheckLength x), (.sDigits, iwcDigits x)] s =
      if x.length ≠ s.sw then .raise (s.enter .sLen) .lengthMismatch
      else
        match desDigits s.mode x with
        | .error e => .raise (((s.enter .sLen).enter .sDigits).consume (desConsumed s.mode x)) e
        | .ok v =>
          .finish { ((s.enter .sLen).enter .sDigits).consume (desConsumed s.mode x) with value := BitVec.ofNat 64 v } [] false := by
  have e : ∀ t : State, runPhases [(.sLen, iwcCheckLength x), (.sDigits, iwcDigits x)] t =
      match (if x.length ≠ t.sw then Ctl.raise (t.enter .sLen) .lengthMismatch else .go (t.enter .sLen)) with
      | .go s' => runPhases [(.sDigits, iwcDigits x)] s'
      | .finish s' o v => .finish s' o v
      | .raise s' e => .raise s' e
      | .undefined => .undefined := fun _ => rfl
  rw [e]
  by_cases h : x.length ≠ s.sw
  · rw [if_pos h, if_pos h]
  · rw [if_neg h, if_neg h]
    have e2 : iwcDigits x ((s.enter .sLen).enter .sDigits) =
        match desDigits s.mode x with
        | .error e => .raise (((s.enter .sLen).enter .sDigits).consume (desConsumed s.mode x)) e
        | .ok v =>
          .finish { ((s.enter .sLen).enter .sDigits).consume (desConsumed s.mode x) with value := BitVec.ofNat 64 v } [] false := rfl
    dsimp only
    unfold runPhases
    rw [e2]
    cases desDigits s.mode x <;> rfl

/-! ### What a command's end keeps -/

/-- What no command's phases change: everything the host sees but VALUE, the memories, the latch, the model's own fields. -/
def shellOf (s : State) :=
  ((s.cfg, s.status, s.errCode, s.inLen, s.outLen, s.inBuf, s.outBuf),
   (s.latch, s.params, s.pending, s.readLog, s.inEpoch, s.outEpoch))

theorem hencRun_keeps (x : ByteString) (s : State) : (runPhases (hencPhases x) s).Keeps hencKept (hencKept s) :=
  runPhases_keeps hencKept _ s (fun _ _ => rfl) (hencPhases_keep x)

theorem hdecRun_keeps (x : ByteString) (s : State) : (runPhases (hdecPhases x) s).Keeps hdecKept (hdecKept s) :=
  runPhases_keeps hdecKept _ s (fun _ _ => rfl) (hdecPhases_keep x)

theorem lzwEncRun_keeps (x : ByteString) (s : State) : (runPhases (lzwEncPhases x) s).Keeps lzwEncKept (lzwEncKept s) :=
  runPhases_keeps lzwEncKept _ s (fun _ _ => rfl) (lzwEncPhases_keep x)

theorem lzwDecRun_keeps (x : ByteString) (s : State) : (runPhases (lzwDecPhases x) s).Keeps lzwDecKept (lzwDecKept s) :=
  runPhases_keeps lzwDecKept _ s (fun _ _ => rfl) (lzwDecPhases_keep x)

theorem ite_keeps {α} {π : State → α} {a} {p : Prop} [Decidable p] {c d : Ctl} (hc : c.Keeps π a) (hd : d.Keeps π a) :
    (if p then c else d).Keeps π a := by split <;> assumption

theorem ctlOf_hufEnc_keeps (s : State) : (ctlOf .hufEnc s).Keeps hencKept (hencKept s) := guarded_keeps (hencRun_keeps _ s)
theorem ctlOf_hufDec_keeps (s : State) : (ctlOf .hufDec s).Keeps hdecKept (hdecKept s) := guarded_keeps (hdecRun_keeps _ s)
theorem ctlOf_lzwEnc_keeps (s : State) : (ctlOf .lzwEnc s).Keeps lzwEncKept (lzwEncKept s) := guarded_keeps (lzwEncRun_keeps _ s)
theorem ctlOf_lzwDec_keeps (s : State) : (ctlOf .lzwDec s).Keeps lzwDecKept (lzwDecKept s) := guarded_keeps (lzwDecRun_keeps _ s)

/-- The part of the state IWC's commands keep: everything but VALUE, PHASE, IPOS. -/
def iwcKept (s : State) := (shellOf s, s.huf, s.lzw, s.outAcc)

theorem ctlOf_iwc_keeps (i : Instr) (hi : i = .iwcSer ∨ i = .iwcDes ∨ i = .iwcWidth) (s : State) :
    (ctlOf i s).Keeps iwcKept (iwcKept s) := by
  rcases hi with rfl | rfl | rfl
  · rfl
  · refine guarded_keeps ?_
    rw [iwcDesPhases_eq]
    refine ite_keeps rfl ?_
    split <;> rfl
  · rfl

/-- Every command's phases keep the shell (R111). -/
theorem ctlOf_keeps_shell (i : Instr) (s : State) : (ctlOf i s).Keeps shellOf (shellOf s) := by
  cases i with
  | iwcSer => exact (ctlOf_iwc_keeps _ (.inl rfl) s).map Prod.fst
  | iwcDes => exact (ctlOf_iwc_keeps _ (.inr (.inl rfl)) s).map Prod.fst
  | iwcWidth => exact (ctlOf_iwc_keeps _ (.inr (.inr rfl)) s).map Prod.fst
  | hufEnc =>
    exact (ctlOf_hufEnc_keeps s).map fun k =>
      ((k.1.1, k.1.2.1, k.1.2.2.1, k.1.2.2.2.1, k.1.2.2.2.2.1, k.1.2.2.2.2.2.2.1, k.1.2.2.2.2.2.2.2),
        (k.2.1.1, k.2.2.1, k.2.2.2.1, k.2.2.2.2.1, k.2.2.2.2.2.1, k.2.2.2.2.2.2))
  | hufDec =>
    exact (ctlOf_hufDec_keeps s).map fun k =>
      ((k.1.1, k.1.2.1, k.1.2.2.1, k.1.2.2.2.1, k.1.2.2.2.2.1, k.1.2.2.2.2.2.2.1, k.1.2.2.2.2.2.2.2),
        (k.2.1.1, k.2.2.1, k.2.2.2.1, k.2.2.2.2.1, k.2.2.2.2.2.1, k.2.2.2.2.2.2))
  | lzwEnc =>
    exact (ctlOf_lzwEnc_keeps s).map fun k =>
      ((k.1.1.1, k.1.1.2.1, k.1.1.2.2.1, k.1.1.2.2.2.1, k.1.1.2.2.2.2.1, k.1.1.2.2.2.2.2.2.1, k.1.1.2.2.2.2.2.2.2),
        (k.1.2.1, k.1.2.2.2.1, k.1.2.2.2.2.1, k.1.2.2.2.2.2.1, k.1.2.2.2.2.2.2.1, k.1.2.2.2.2.2.2.2))
  | lzwDec =>
    exact (ctlOf_lzwDec_keeps s).map fun k =>
      ((k.1.1.1, k.1.1.2.1, k.1.1.2.2.1, k.1.1.2.2.2.1, k.1.1.2.2.2.2.1, k.1.1.2.2.2.2.2.2.1, k.1.1.2.2.2.2.2.2.2),
        (k.1.2.1, k.1.2.2.2.1, k.1.2.2.2.2.1, k.1.2.2.2.2.2.1, k.1.2.2.2.2.2.2.1, k.1.2.2.2.2.2.2.2))

theorem sameShell_of_shellOf {s t : State} (h : shellOf t = shellOf s) : SameShell s t where
  cfg := congrArg (fun k => k.1.1) h
  inLen := congrArg (fun k => k.1.2.2.2.1) h
  inBuf := congrArg (fun k => k.1.2.2.2.2.2.1) h
  latch := congrArg (fun k => k.2.1) h
  params := congrArg (fun k => k.2.2.1) h
  pending := congrArg (fun k => k.2.2.2.1) h
  readLog := congrArg (fun k => k.2.2.2.2.1) h
  inEpoch := congrArg (fun k => k.2.2.2.2.2.1) h
  outEpoch := congrArg (fun k => k.2.2.2.2.2.2) h

theorem shellOf_outBuf {s t : State} (h : shellOf t = shellOf s) : t.outBuf = s.outBuf := congrArg (fun k => k.1.2.2.2.2.2.2) h

theorem SameShell.trans {s t u : State} (h1 : SameShell s t) (h2 : SameShell t u) : SameShell s u where
  cfg := h2.cfg.trans h1.cfg
  inLen := h2.inLen.trans h1.inLen
  inBuf := h2.inBuf.trans h1.inBuf
  latch := h2.latch.trans h1.latch
  params := h2.params.trans h1.params
  pending := h2.pending.trans h1.pending
  readLog := h2.readLog.trans h1.readLog
  inEpoch := h2.inEpoch.trans h1.inEpoch
  outEpoch := h2.outEpoch.trans h1.outEpoch

theorem sameShell_raiseError (s : State) (e : ErrKind) : SameShell s (s.raiseError e) := ⟨rfl, rfl, rfl, rfl, rfl, rfl, rfl, rfl, rfl⟩
theorem sameShell_complete (s : State) (o : ByteString) (v : Bool) : SameShell s (s.complete o v) :=
  ⟨rfl, rfl, rfl, rfl, rfl, rfl, rfl, rfl, rfl⟩

theorem sameShell_finish (s : State) (o : ByteString) (v : Bool) : SameShell s (s.finish o v) := by
  rcases s.finish_cases o v with ⟨-, h⟩ | ⟨-, h⟩ <;> rw [h]
  · exact sameShell_raiseError s _
  · exact sameShell_complete s o v

/-- The two ends leave the shell of the state the command started in (R111). -/
theorem sameShell_finish_of {s s' : State} (h : shellOf s' = shellOf s) (o : ByteString) (v : Bool) : SameShell s (s'.finish o v) :=
  (sameShell_of_shellOf h).trans (sameShell_finish s' o v)

theorem sameShell_raiseError_of {s s' : State} (h : shellOf s' = shellOf s) (e : ErrKind) : SameShell s (s'.raiseError e) :=
  (sameShell_of_shellOf h).trans (sameShell_raiseError s' e)

/-- What `Finish` leaves beside the shell (R107). -/
theorem finish_other (s : State) (o : ByteString) (v : Bool) :
    (s.finish o v).value = s.value ∧ (s.finish o v).huf = s.huf ∧ (s.finish o v).lzw = s.lzw ∧
      (s.finish o v).outAcc = s.outAcc ∧ (s.finish o v).ipos = s.ipos := by
  rcases s.finish_cases o v with ⟨-, h⟩ | ⟨-, h⟩ <;> rw [h] <;> exact ⟨rfl, rfl, rfl, rfl, rfl⟩

/-- The four flags of a packed STATUS (10_state.md R24). -/
theorem packStatus_flags (b d e o : Bool) :
    (packStatus b d e o).getLsbD 0 = b ∧ (packStatus b d e o).getLsbD 1 = d ∧ (packStatus b d e o).getLsbD 2 = e ∧
      (packStatus b d e o).getLsbD 3 = o := by
  cases b <;> cases d <;> cases e <;> cases o <;> decide

theorem EndedWith.flags {t : State} {o : ByteString} {v : Bool} (h : EndedWith t o v) :
    t.done = true ∧ t.busy = false ∧ t.err = false ∧ t.ovf = v := by
  have := packStatus_flags false true false v
  unfold State.done State.busy State.err State.ovf
  rw [h.status]; exact ⟨this.2.1, this.1, this.2.2.1, this.2.2.2⟩

theorem FailedWith.flags {t : State} {e : ErrKind} (h : FailedWith t e) :
    t.done = true ∧ t.busy = false ∧ t.err = true ∧ t.ovf = false := by
  have := packStatus_flags false true true false
  unfold State.done State.busy State.err State.ovf
  rw [h.status]; exact ⟨this.2.1, this.1, this.2.2.1, this.2.2.2⟩

theorem failedWith_raiseError (s : State) (e : ErrKind) : FailedWith (s.raiseError e) e := ⟨rfl, rfl, rfl, rfl⟩

theorem endedWith_complete (s : State) (o : ByteString) (v : Bool) : EndedWith (s.complete o v) o v where
  status := rfl
  errCode := rfl
  phase := rfl
  outLen := fun h => outLenOf_of_lt h
  bytes := fun _ h => State.outByte_complete s o v h
  stored := fun i h => by
    rw [State.complete_outBuf, Memory.read_writeBytes]
    simp [h]

/-- `Finish` either ends the command with the output or, where it does not fit, reports CapacityExceeded (R107). -/
theorem finish_ends (s : State) (o : ByteString) (v : Bool) :
    (s.outputFits o.length → EndedWith (s.finish o v) o v) ∧
    (¬s.outputFits o.length → FailedWith (s.finish o v) .capacityExceeded) := by
  constructor
  · intro h
    rw [State.finish_of_fits (outputFits_iff.mp h)]
    exact endedWith_complete s o v
  · intro h
    have := not_outputFits_iff.mp h
    rw [State.finish, if_pos this]
    exact failedWith_raiseError s _

/-! ### Every command ends -/

/-- The errors a command's phases can raise (60_exceptions.md R230), those of `Finish` apart. -/
def CommandError (i : Instr) (s : State) (e : ErrKind) : Prop :=
  match i with
  | .iwcSer => False
  | .iwcDes =>
    (e = .capacityExceeded ∧ ¬s.inputFits) ∨ (e = .lengthMismatch ∧ s.inLen.toNat ≠ s.sw) ∨ e = .malformedInput
  | .iwcWidth => False
  | .hufEnc => e = .capacityExceeded ∧ (¬s.inputFits ∨ ¬s.params.noTableLimit)
  | .hufDec => e = .malformedInput ∨ (e = .capacityExceeded ∧ (¬s.inputFits ∨ ¬s.params.noTableLimit))
  | .lzwEnc => e = .capacityExceeded ∧ (¬s.inputFits ∨ ¬s.params.noTableLimit)
  | .lzwDec => e = .malformedInput ∨ (e = .capacityExceeded ∧ (¬s.inputFits ∨ ¬s.params.noTableLimit))

theorem desDigits_error {m : Mode} {x : ByteString} {e : ErrKind} (h : desDigits m x = .error e) :
    e = .malformedInput ∧ m = .hex ∧ ∃ c ∈ x, hexVal c = none := by
  cases m with
  | raw => simp [desDigits] at h
  | hex =>
    simp only [desDigits] at h
    split at h
    · rename_i hx; cases h; exact ⟨rfl, rfl, hexVals_eq_none.mp hx⟩
    · cases h

/-- Every command's phases end, by `Finish` or by one of the command's errors (R110). -/
theorem ctlOf_ends (i : Instr) (s : State) :
    (ctlOf i s).Sat (fun _ => False) (fun _ _ _ => True) (fun _ e => CommandError i s e) := by
  cases i with
  | iwcSer => trivial
  | iwcWidth => trivial
  | iwcDes =>
    refine guarded_sat (fun _ => ?_) fun h => .inl ⟨rfl, h⟩
    rw [iwcDesPhases_eq]
    by_cases hl : s.input.length ≠ s.sw
    · rw [if_pos hl]; rw [State.length_input] at hl; exact .inr (.inl ⟨rfl, hl⟩)
    · rw [if_neg hl]
      cases hd : desDigits s.mode s.input with
      | error e => exact .inr (.inr (desDigits_error hd).1)
      | ok v => trivial
  | hufEnc =>
    exact guarded_sat (fun _ => (hencPhases_end s.input s).mono (fun _ h => h) (fun _ _ _ h => h) fun _ _ h =>
      ⟨h.1, .inr h.2⟩) fun h => ⟨rfl, .inl h⟩
  | hufDec =>
    exact guarded_sat (fun _ => (hdecPhases_end s.input s).mono (fun _ h => h) (fun _ _ _ _ => trivial) fun _ _ h =>
      h.imp id fun h => ⟨h.1, .inr h.2⟩) fun h => .inr ⟨rfl, .inl h⟩
  | lzwEnc =>
    refine guarded_sat (fun _ => ?_) fun h => ⟨rfl, .inl h⟩
    by_cases hx : s.input = []
    · unfold lzwEncPhases
      refine runPhases_cons_sat _ _ _ _ ?_
      rw [lzwEncEmpty, if_pos hx]; trivial
    · exact (lzwEncPhases_sat hx s).mono (fun _ h => h) (fun _ _ _ _ => trivial) fun _ _ h => ⟨h.2.1, .inr h.2.2⟩
  | lzwDec =>
    refine guarded_sat (fun _ => ?_) fun h => .inr ⟨rfl, .inl h⟩
    by_cases hx : s.input = []
    · unfold lzwDecPhases
      refine runPhases_cons_sat _ _ _ _ ?_
      rw [lzwDecEmpty, if_pos hx]; trivial
    · exact (lzwDecPhases_sat hx s).mono (fun _ h => h) (fun _ _ _ _ => trivial) fun _ _ h =>
        h.1.imp (fun h => h.1) fun h => ⟨h.1, .inr h.2⟩

/-- A command that answers a next state ended by `Finish` or by one of its errors, from a state with the same shell. -/
theorem exec_cases {i : Instr} {s t : State} (h : exec i s = .next t) :
    (∃ s' o v, ctlOf i s = .finish s' o v ∧ t = s'.finish o v ∧ shellOf s' = shellOf s) ∨
    (∃ s' e, ctlOf i s = .raise s' e ∧ t = s'.raiseError e ∧ shellOf s' = shellOf s ∧ CommandError i s e) := by
  rw [exec_eq] at h
  have hk := ctlOf_keeps_shell i s
  have he := ctlOf_ends i s
  rcases conclude_cases h with ⟨s', o, v, hc, rfl⟩ | ⟨s', e, hc, rfl⟩
  · rw [hc] at hk; exact .inl ⟨s', o, v, hc, rfl, hk⟩
  · rw [hc] at hk he; exact .inr ⟨s', e, hc, rfl, hk, he⟩

end Sys2Proof.Machine
end

