-- ==== Sys2Proof/Laws/Lockstep.lean ====
section
/-! SUPPORT. LZW's lock-step (44_lzw.md R213) code by code: what the decoder holds after each of the encoder's codes. -/

namespace Sys2Proof.Machine

theorem lzwParse_cons (d : List ByteString) (cur : ByteString) (c : Byte) (x : ByteString) :
    lzwParse d cur (c :: x) =
      if cur ++ [c] ∈ d then lzwParse d (cur ++ [c]) x
      else
        ((lzwParse (d ++ [cur ++ [c]]) [c] x).1, (lzwParse (d ++ [cur ++ [c]]) [c] x).2.1,
          d.idxOf cur :: (lzwParse (d ++ [cur ++ [c]]) [c] x).2.2) := rfl

/-- Scanning an input in two parts (R203). -/
theorem lzwParse_append (y z : ByteString) (d : List ByteString) (cur : ByteString) :
    lzwParse d cur (y ++ z) =
      ((lzwParse (lzwParse d cur y).1 (lzwParse d cur y).2.1 z).1, (lzwParse (lzwParse d cur y).1 (lzwParse d cur y).2.1 z).2.1,
        (lzwParse d cur y).2.2 ++ (lzwParse (lzwParse d cur y).1 (lzwParse d cur y).2.1 z).2.2) := by
  induction y generalizing d cur with
  | nil => rfl
  | cons c y ih =>
    rw [List.cons_append, lzwParse_cons, lzwParse_cons]
    split
    · rw [ih]
    · rw [ih]; rfl

/-- The decoder's dictionary and last entry after some codes (R209). -/
def lzwFeed (d : List ByteString) (cur : ByteString) : List Nat → Option (List ByteString × ByteString)
  | [] => some (d, cur)
  | k :: ks =>
    match lzwEntryAt d cur k with
    | none => none
    | some e => lzwFeed (d ++ [cur ++ e.take 1]) e ks

theorem lzwFeed_nil {i D : List ByteString} {w e : ByteString} (h : i ++ [e] <+: D) :
    lzwFeed i w [] = some (D.take (i.length + 0), w) := by
  obtain ⟨r, rfl⟩ := h
  rw [List.append_assoc, List.take_left']
  · rfl
  · simp

/-- What the decoder holds after the first `m` codes the encoder still has to emit: the encoder's first `i.length + m` strings, and
the string of the last of these codes (R213). -/
theorem lzwFeed_parse {x : ByteString} {i : List ByteString} {w cur : ByteString} (hw : w ≠ []) (hcur : cur ≠ [])
    (h : ParseInv (i ++ [w ++ cur.take 1]) cur) {D : List ByteString} {C : List Nat}
    (hD : D = (lzwParse (i ++ [w ++ cur.take 1]) cur x).1)
    (hC : C = (lzwParse (i ++ [w ++ cur.take 1]) cur x).2.2 ++ lzwFlush D (lzwParse (i ++ [w ++ cur.take 1]) cur x).2.1)
    {m : Nat} (hm : m ≤ C.length) :
    ∃ u, lzwFeed i w (C.take m) = some (D.take (i.length + m), u) ∧ u ≠ [] ∧ (m = 0 → u = w) ∧
      ∀ n, m = n + 1 → ∃ k, C[n]? = some k ∧ D[k]? = some u := by
  induction x generalizing i w cur D C m with
  | nil =>
    have hmem := h.current.resolve_left hcur
    have he := lzwEntryAt_lockstep hw h.nodup hmem
    simp only [lzwParse] at hD hC
    subst hD
    simp only [lzwFlush, hcur, if_false, List.nil_append] at hC
    subst hC
    cases m with
    | zero => exact ⟨w, lzwFeed_nil (List.prefix_refl _), hw, fun _ => rfl, fun n hn => by omega⟩
    | succ m =>
      have hm0 : m = 0 := by simp at hm; omega
      subst hm0
      refine ⟨cur, ?_, hcur, fun h => by omega, ?_⟩
      · rw [List.take_succ_cons, List.take_zero]
        unfold lzwFeed
        rw [he]
        unfold lzwFeed
        rw [List.take_of_length_le (by simp)]
      · intro n hn
        have : n = 0 := by omega
        subst this
        exact ⟨_, rfl, List.getElem?_idxOf hmem⟩
  | cons c x ih =>
    rw [lzwParse_cons] at hD hC
    split at hD
    · rename_i hc
      rw [if_pos hc] at hC
      have ht : (cur ++ [c]).take 1 = cur.take 1 := by
        obtain ⟨a, w', rfl⟩ := List.exists_cons_of_ne_nil hcur; simp
      have h' : ParseInv (i ++ [w ++ (cur ++ [c]).take 1]) (cur ++ [c]) := by rw [ht]; exact h.extend hc
      rw [← ht] at hD hC
      exact ih hw (by simp) h' hD hC hm
    · rename_i hc
      rw [if_neg hc] at hC
      have hmem := h.current.resolve_left hcur
      have he := lzwEntryAt_lockstep hw h.nodup hmem
      have h' : ParseInv ((i ++ [w ++ cur.take 1]) ++ [cur ++ [c].take 1]) [c] := h.insert hc
      have hpre : i ++ [w ++ cur.take 1] <+: D := by
        rw [hD]; exact (List.prefix_append _ _).trans (lzwParse_grows _ _ _)
      cases m with
      | zero => exact ⟨w, lzwFeed_nil hpre, hw, fun _ => rfl, fun n hn => by omega⟩
      | succ m =>
        dsimp only at hD hC
        rw [List.cons_append] at hC
        generalize hC' : (lzwParse (i ++ [w ++ cur.take 1] ++ [cur ++ [c]]) [c] x).2.2 ++
          lzwFlush D (lzwParse (i ++ [w ++ cur.take 1] ++ [cur ++ [c]]) [c] x).2.1 = C' at hC
        subst hC
        obtain ⟨u, g1, g2, g3, g4⟩ := ih (i := i ++ [w ++ cur.take 1]) (w := cur) (cur := [c]) (D := D) (C := C') (m := m) hcur
          (by simp) h' hD hC'.symm (by simpa using hm)
        refine ⟨u, ?_, g2, fun h => by omega, ?_⟩
        · simp only [List.take_succ_cons, lzwFeed, he]
          rw [g1]
          congr 3
          simp; omega
        · intro n hn
          have hnm : n = m := by omega
          subst hnm
          cases n with
          | zero =>
            refine ⟨_, rfl, ?_⟩
            rw [g3 rfl]
            exact getElem?_of_le hpre (List.getElem?_idxOf hmem)
          | succ n => exact g4 n rfl

/-- The loop of step 5 holds what feeding the codes gives (R209), unless `DICT_CAP` is passed. -/
theorem lzwStep_feed {ks : List Nat} {s : State} {l : LzwState} {d d' : List ByteString} {cur cur' : ByteString}
    (hp : s.params.noTableLimit) (h : s.lzw = decState l d cur) (hc : cur ≠ []) (hd : ∀ e ∈ d, e ≠ [])
    (hf : lzwFeed d cur ks = some (d', cur')) :
    ∃ t, lzwStep ks s = .go t ∧ t.lzw = decState l d' cur' := by
  induction ks generalizing s d cur with
  | nil => cases hf; exact ⟨s, rfl, h⟩
  | cons k ks ih =>
    unfold lzwFeed at hf
    cases he : lzwEntryAt d cur k with
    | none => rw [he] at hf; cases hf
    | some e =>
      rw [he] at hf
      have hne := lzwEntryAt_ne_nil hd hc he
      obtain ⟨e0, es, rfl⟩ := List.exists_cons_of_ne_nil hne
      have hcap : ∀ n, dictBeyond s.params n = false := by intro n; simp [dictBeyond, hp.2.2.2, beyond]
      have hl : lzwEntryOf s.lzw k = .entry (e0 :: es) := by rw [h, lzwEntryOf_decState hc, he]
      conv => arg 1; ext t; unfold lzwStep
      rw [hl]
      simp only [hcap, Bool.false_eq_true, if_false]
      refine ih (d := d ++ [cur ++ [e0]]) (cur := e0 :: es) hp ?_ (by simp) ?_ hf
      · simp [h, decState, invOf_append]
      · intro x hx
        rcases List.mem_append.mp hx with hx | hx
        · exact hd x hx
        · simp only [List.mem_singleton] at hx; subst hx; simp

theorem lzwCodesOf_nil : lzwCodesOf [] = [] := by simp [lzwCodesOf, lzwParse, lzwFlush]

/-- After code `j` the decoder holds the encoder's first `256 + j` strings and the string of that code (R213). -/
theorem lzwFeed_codes {x : ByteString} {c0 : Nat} (h0 : (lzwCodesOf x)[0]? = some c0) {j : Nat} (hj : j < (lzwCodesOf x).length) :
   ∃ w u, seedStrings[c0]? = some w ∧ w ≠ [] ∧
     lzwFeed seedStrings w (((lzwCodesOf x).take (j + 1)).drop 1) = some ((lzwParse seedStrings [] x).1.take (256 + j), u) ∧
     ∃ k, (lzwCodesOf x)[j]? = some k ∧ (lzwParse seedStrings [] x).1[k]? = some u := by
  cases x with
  | nil => rw [lzwCodesOf_nil] at h0; cases h0
  | cons c x =>
    have hinv : ParseInv seedStrings [c] := ⟨parseInv_seed.nodup, parseInv_seed.nonempty, parseInv_seed.seed,
        parseInv_seed.closed, .inr (mem_seedStrings c)⟩
    have hc : seedStrings[c.toNat]? = some [c] := by rw [getElem?_seedStrings c.isLt]; simp
    unfold lzwCodesOf at h0 hj ⊢
    rw [lzwParse_seed_cons] at h0 hj ⊢
    cases x with
    | nil =>
      simp [lzwParse, lzwFlush, idxOf_seedStrings] at h0 hj ⊢
      subst h0; subst hj
      refine ⟨[c], hc, by simp, [c], ?_, by simpa using hc⟩
      simp [lzwFeed]
    | cons c' x =>
      have hn : [c] ++ [c'] ∉ seedStrings := by intro h; have := seedStrings_ne_nil h; simp at this
      rw [lzwParse_cons, if_neg hn] at h0 hj ⊢
      dsimp only at h0 hj ⊢
      rw [idxOf_seedStrings] at h0 hj ⊢
      rw [List.cons_append] at h0 hj ⊢
      cases h0
      generalize hC : (lzwParse (seedStrings ++ [[c] ++ [c']]) [c'] x).2.2 ++ lzwFlush (lzwParse (seedStrings ++ [[c] ++ [c']]) [c'] x).1 (lzwParse (seedStrings ++ [[c] ++ [c']]) [c'] x).2.1 = C at hj ⊢
      obtain ⟨u, g1, g2, g3, g4⟩ := lzwFeed_parse (i := seedStrings) (w := [c]) (cur := [c']) (x := x) (by simp) (by simp) (hinv.insert hn) rfl hC.symm (m := j) (by simpa using Nat.lt_succ_iff.mp hj)
      refine ⟨[c], u, hc, by simp, ?_, ?_⟩
      · rw [List.take_succ_cons, List.drop_one, List.tail_cons, g1, length_seedStrings]
        rfl
      · cases j with
        | zero =>
          refine ⟨_, rfl, ?_⟩
          rw [g3 rfl]
          exact getElem?_of_le ((List.prefix_append _ _).trans (lzwParse_grows _ _ _)) hc
        | succ j => exact g4 j rfl

end Sys2Proof.Machine
end

