-- ==== Sys2Proof/Laws/Commands.lean ====
section
/-! SUPPORT. The four codec commands with unbounded internal tables: how each ends on a non-empty input (42_huffman_encoder.md R140,
43_huffman_decoder.md R170, 44_lzw.md R201, R206). -/

namespace Sys2Proof.Machine

theorem input_ne_nil {s : State} (h : s.inLen ≠ 0#64) : s.input ≠ [] := fun h' => h (State.input_eq_nil.mp h')

/-- HUF.ENC finishes with the frame of what it has built (R140). -/
theorem ctlOf_hufEnc {s : State} (hf : s.inputFits) (hp : s.params.noTableLimit) (h0 : s.inLen ≠ 0#64) :
    ∃ s', ctlOf .hufEnc s = .finish s' (frameOf (s.serWord s'.huf.treeLen) s'.huf.tbuf (s'.bitsOf s.input))
        (s.serOverflows s'.huf.treeLen) ∧ HencText s.input s' ∧ shellOf s' = shellOf s := by
  have h := hencPhases_sat (input_ne_nil h0) s
  have hk := ctlOf_keeps_shell .hufEnc s
  have hc : ctlOf .hufEnc s = runPhases (hencPhases s.input) s := guarded_of_fits hf _
  rw [hc] at hk ⊢
  cases hr : runPhases (hencPhases s.input) s with
  | go t => rw [hr] at h; exact h.elim
  | finish t o v => rw [hr] at h hk; obtain ⟨h1, rfl, rfl⟩ := h; exact ⟨t, rfl, h1, hk⟩
  | raise t e => rw [hr] at h; exact absurd hp h.2
  | undefined => rw [hr] at h; exact h.elim

/-- The state after HUF.ENC holds what it has built, whether or not the output fitted (R155). -/
theorem hufEnc_built {s t : State} (hf : s.inputFits) (hp : s.params.noTableLimit) (h0 : s.inLen ≠ 0#64)
    (h : exec .hufEnc s = .next t) : HencText s.input t := by
  obtain ⟨s', hc, hb, -⟩ := ctlOf_hufEnc hf hp h0
  rw [exec_eq, hc] at h
  cases h
  exact hb.congr (finish_other s' _ _).2.1

theorem Decoded.isFrame {s t : State} {x out lenWord : ByteString} {es w : List (Byte × ByteString)}
    (h : Decoded s x t out lenWord es w) : FrameOf s x out :=
  ⟨lenWord, es, w, h.len, h.desLen, h.entries, h.mem, h.frame, h.outEq⟩

/-- HUF.DEC finishes exactly on the frames, with what they stand for, and raises MalformedInput on every other input (R170). -/
theorem ctlOf_hufDec {s : State} (hf : s.inputFits) (hp : s.params.noTableLimit) (h0 : s.inLen ≠ 0#64) :
    (∃ s' out lenWord es w, ctlOf .hufDec s = .finish s' out false ∧ Decoded s s.input s' out lenWord es w ∧ shellOf s' = shellOf s) ∨
    ((¬∃ out, FrameOf s s.input out) ∧ ∃ s', ctlOf .hufDec s = .raise s' .malformedInput ∧ shellOf s' = shellOf s) := by
  have h := (hdecPhases_inv (input_ne_nil h0) s).and (hdecPhases_end s.input s)
  have hk := ctlOf_keeps_shell .hufDec s
  have hc : ctlOf .hufDec s = runPhases (hdecPhases s.input) s := guarded_of_fits hf _
  rw [hc] at hk ⊢
  cases hr : runPhases (hdecPhases s.input) s with
  | go t => rw [hr] at h; exact h.1.elim
  | finish t o v =>
    rw [hr] at h hk
    obtain ⟨⟨lenWord, es, w, h1⟩, rfl⟩ := h
    exact .inl ⟨t, o, lenWord, es, w, rfl, h1, hk⟩
  | raise t e =>
    rw [hr] at h hk
    rcases h.2 with rfl | h
    · refine .inr ⟨?_, t, rfl, hk⟩
      rintro ⟨out, lenWord, es, w, h1, h2, h3, h4, h5, -⟩
      have := hdecPhases_frame s lenWord es w h1 h2 h3 h4
      rw [← h5, hr] at this
      exact this.2 hp
    · exact absurd hp h.2
  | undefined => rw [hr] at h; exact h.elim

/-- LZW.ENC finishes with the words of its codes (R201). -/
theorem ctlOf_lzwEnc {s : State} (hf : s.inputFits) (hp : s.params.noTableLimit) (h0 : s.inLen ≠ 0#64) :
    ∃ s', ctlOf .lzwEnc s = .finish s' ((lzwCodesOf s.input).flatMap s.serWord) ((lzwCodesOf s.input).any s.serOverflows) ∧
      s'.lzw = encState s.lzw (lzwParse seedStrings [] s.input).1 (lzwParse seedStrings [] s.input).2.1 (lzwCodesOf s.input) ∧
      shellOf s' = shellOf s := by
  have h := lzwEncPhases_sat (input_ne_nil h0) s
  have hk := ctlOf_keeps_shell .lzwEnc s
  have hc : ctlOf .lzwEnc s = runPhases (lzwEncPhases s.input) s := guarded_of_fits hf _
  rw [hc] at hk ⊢
  cases hr : runPhases (lzwEncPhases s.input) s with
  | go t => rw [hr] at h; exact h.elim
  | finish t o v => rw [hr] at h hk; obtain ⟨h1, rfl, rfl⟩ := h; exact ⟨t, rfl, h1, hk⟩
  | raise t e => rw [hr] at h; exact absurd hp h.2.2
  | undefined => rw [hr] at h; exact h.elim

/-- LZW.DEC finishes with what its codes stand for, or raises MalformedInput for one of its causes (R206). -/
theorem ctlOf_lzwDec {s : State} (hf : s.inputFits) (hp : s.params.noTableLimit) (h0 : s.inLen ≠ 0#64) :
    (∃ s' out, ctlOf .lzwDec s = .finish s' out false ∧
      (∃ chunks ks, ChunksOf s s.input chunks ∧ chunks.map (des s.wordBits s.mode) = ks.map .ok ∧
        lzwBytesOf ks = some out ∧ s'.lzw.codes = ks ∧ s'.lzw.nextCode = 255 + ks.length) ∧
      s'.outAcc = out ∧ shellOf s' = shellOf s) ∨
    ((s.input.length % s.sw ≠ 0 ∨
        ∃ chunks, ChunksOf s s.input chunks ∧
          ((∃ c ∈ chunks, ∃ e', des s.wordBits s.mode c = .error e') ∨
            ∃ ks, chunks.map (des s.wordBits s.mode) = ks.map .ok ∧ lzwBytesOf ks = none)) ∧
      ∃ s', ctlOf .lzwDec s = .raise s' .malformedInput ∧ shellOf s' = shellOf s) := by
  have h := lzwDecPhases_sat (input_ne_nil h0) s
  have hk := ctlOf_keeps_shell .lzwDec s
  have hc : ctlOf .lzwDec s = runPhases (lzwDecPhases s.input) s := guarded_of_fits hf _
  rw [hc] at hk ⊢
  cases hr : runPhases (lzwDecPhases s.input) s with
  | go t => rw [hr] at h; exact h.elim
  | finish t o v =>
    rw [hr] at h hk
    obtain ⟨h1, rfl, h3, -⟩ := h
    exact .inl ⟨t, o, rfl, h1, h3, hk⟩
  | raise t e =>
    rw [hr] at h hk
    rcases h.1 with ⟨rfl, hx⟩ | hx
    · exact .inr ⟨hx, t, rfl, hk⟩
    · exact absurd hp hx.2
  | undefined => rw [hr] at h; exact h.elim

/-! ### Reading codes and tree texts apart -/

/-- The chunks of a string are the only ones (20_memory.md R58). -/
theorem chunksOf_unique {s : State} {x : ByteString} {a b : List ByteString} (ha : ChunksOf s x a) (hb : ChunksOf s x b) : a = b := by
  obtain ⟨ha1, ha2⟩ := ha
  obtain ⟨hb1, hb2⟩ := hb
  subst ha1
  induction a generalizing b with
  | nil =>
    cases b with
    | nil => rfl
    | cons c b =>
      have := congrArg List.length hb1
      have hc := hb2 c (by simp)
      have := s.sw_pos
      simp at *
      rw [hb1.1] at hc; simp at hc; omega
  | cons c a ih =>
    have hc := ha2 c (by simp)
    cases b with
    | nil =>
      have hp := s.sw_pos
      have hb1' : c ++ a.flatten = [] := by simpa using hb1.symm
      have := (List.append_eq_nil_iff.mp hb1').1
      rw [this] at hc; simp at hc; omega
    | cons d b =>
      have hd := hb2 d (by simp)
      simp only [List.flatten_cons] at hb1
      obtain ⟨e1, e2⟩ := List.append_inj hb1 (hd.trans hc.symm)
      subst e1
      rw [ih (fun x hx => ha2 x (by simp [hx])) (fun x hx => hb2 x (by simp [hx])) e2]

theorem space_not_bit {c : ByteString} (hc : IsBits c) : chSpace ∉ c := by
  intro h
  rcases hc _ h with h | h <;> revert h <;> decide

/-- Up to the first space: two readings of the rest of an entry agree (30_encoding.md R80). -/
theorem append_space_inj {c d r q : ByteString} (hc : chSpace ∉ c) (hd : chSpace ∉ d) (h : c ++ chSpace :: r = d ++ chSpace :: q) :
    c = d ∧ r = q := by
  induction c generalizing d with
  | nil =>
    cases d with
    | nil => simpa using h
    | cons x d => simp only [List.nil_append, List.cons_append, List.cons.injEq] at h; exact absurd (h.1 ▸ List.mem_cons_self) hd
  | cons y c ih =>
    cases d with
    | nil => simp only [List.nil_append, List.cons_append, List.cons.injEq] at h; exact absurd (h.1 ▸ List.mem_cons_self) hc
    | cons x d =>
      simp only [List.cons_append, List.cons.injEq] at h
      obtain ⟨e1, e2⟩ := ih (fun h => hc (by simp [h])) (fun h => hd (by simp [h])) h.2
      exact ⟨by rw [h.1, e1], e2⟩

/-- A tree text has one reading (30_encoding.md R80): entries, then more text, against entries. -/
theorem entriesText_append_eq {es fs : List (Byte × ByteString)} {more : ByteString} (he : ∀ e ∈ es, IsBits e.2)
    (hf : ∀ e ∈ fs, IsBits e.2) (h : entriesText es ++ more = entriesText fs) :
    ∃ gs, fs = es ++ gs ∧ more = entriesText gs := by
  induction es generalizing fs with
  | nil => exact ⟨fs, rfl, by simpa [entriesText] using h⟩
  | cons e es ih =>
    obtain ⟨b, c⟩ := e
    have hc := he (b, c) (by simp)
    cases fs with
    | nil => simp [entriesText, treeEntry] at h
    | cons f fs =>
      obtain ⟨b', c'⟩ := f
      have hc' := hf (b', c') (by simp)
      rw [entriesText_cons, entriesText_cons] at h
      simp only [treeEntry, List.cons_append, List.append_assoc, List.cons.injEq, List.nil_append] at h
      obtain ⟨rfl, h⟩ := h
      obtain ⟨rfl, h'⟩ := append_space_inj (space_not_bit hc) (space_not_bit hc') h
      obtain ⟨gs, h1, h2⟩ := ih (fun e hx => he e (by simp [hx])) (fun e hx => hf e (by simp [hx])) h'
      exact ⟨gs, by rw [h1]; rfl, h2⟩

theorem entriesText_inj {es fs : List (Byte × ByteString)} (he : ∀ e ∈ es, IsBits e.2) (hf : ∀ e ∈ fs, IsBits e.2)
    (h : entriesText es = entriesText fs) : es = fs := by
  obtain ⟨gs, h1, h2⟩ := entriesText_append_eq (more := []) he hf (by simpa using h)
  cases gs with
  | nil => simpa using h1.symm
  | cons g gs => simp [entriesText, treeEntry] at h2

/-- A frame has one reading under a serializer (30_encoding.md R77). -/
theorem frameOf_inj {l l' t t' b b' : ByteString} (hl : l.length = l'.length) (ht : t.length = t'.length)
    (h : frameOf l t b = frameOf l' t' b') : l = l' ∧ t = t' ∧ b = b' := by
  unfold frameOf at h
  simp only [List.append_assoc] at h
  obtain ⟨h1, h⟩ := List.append_inj h hl
  simp only [List.singleton_append, List.cons.injEq, true_and] at h
  obtain ⟨h2, h⟩ := List.append_inj h ht
  simp only [List.cons.injEq, true_and] at h
  exact ⟨h1, h2, List.append_cancel_right h⟩

/-- The codes stand for something exactly when none is above the next one to be inserted (44_lzw.md R208, R209). -/
theorem lzwRead_isSome {ks : List Nat} {d : List ByteString} {cur : ByteString} :
    (lzwRead d cur ks).isSome ↔ ∀ j k, ks[j]? = some k → k ≤ d.length + j := by
  induction ks generalizing d cur with
  | nil => simp [lzwRead]
  | cons k ks ih =>
    have he : (lzwEntryAt d cur k).isSome ↔ k ≤ d.length := by
      unfold lzwEntryAt
      by_cases h1 : k < d.length
      · simp [h1]; omega
      · by_cases h2 : k = d.length
        · simp [h2]
        · simp [h1, h2]; omega
    unfold lzwRead
    cases hx : lzwEntryAt d cur k with
    | none =>
      rw [hx] at he
      simp only [Option.isSome_none, Bool.false_eq_true, false_iff]
      intro h
      exact absurd (he.mpr (h 0 k rfl)) (by simp)
    | some e =>
      rw [hx] at he
      have hk := he.mp rfl
      simp only [Option.isSome_map, ih, List.length_append, List.length_cons, List.length_nil, Nat.zero_add]
      constructor
      · intro h j
        cases j with
        | zero => intro m hm; cases hm; omega
        | succ j => intro m hm; have := h j m hm; omega
      · intro h j m hm
        have := h (j + 1) m hm; omega

theorem lzwBytesOf_isSome {ks : List Nat} : (lzwBytesOf ks).isSome ↔ ∀ j k, ks[j]? = some k → k ≤ 255 + j := by
  cases ks with
  | nil => simp [lzwBytesOf]
  | cons k ks =>
    have hu : lzwBytesOf (k :: ks) =
        if 255 < k then none else (lzwRead seedStrings [BitVec.ofNat 8 k] ks).map ([BitVec.ofNat 8 k] ++ ·) := rfl
    rw [hu]
    by_cases h : 255 < k
    · rw [if_pos h]
      simp only [Option.isSome_none, Bool.false_eq_true, false_iff]
      intro h'
      have := h' 0 k rfl; omega
    · rw [if_neg h, Option.isSome_map, lzwRead_isSome, length_seedStrings]
      constructor
      · intro h' j
        cases j with
        | zero => intro m hm; cases hm; omega
        | succ j => intro m hm; have := h' j m hm; omega
      · intro h' j m hm
        have := h' (j + 1) m hm; omega

/-! ### LZW's codes as bytes -/

theorem length_flatMap_serWord (s : State) (ks : List Nat) : (ks.flatMap s.serWord).length = s.sw * ks.length := by
  induction ks with
  | nil => rfl
  | cons k ks ih => rw [List.flatMap_cons, List.length_append, ih, State.length_serWord, List.length_cons, Nat.mul_succ, Nat.add_comm]

theorem ctlOf_lzwEnc_empty {s : State} (hf : s.inputFits) (h : s.inLen = 0#64) : ctlOf .lzwEnc s = .finish (s.enter .l1Empty) [] false := by
  show guarded s _ = _
  rw [guarded_of_fits hf, State.input_eq_nil.mpr h]; rfl

theorem ctlOf_lzwDec_empty {s : State} (hf : s.inputFits) (h : s.inLen = 0#64) : ctlOf .lzwDec s = .finish (s.enter .m1Empty) [] false := by
  show guarded s _ = _
  rw [guarded_of_fits hf, State.input_eq_nil.mpr h]; rfl

/-- LZW.ENC on any input, the empty one included (R201). -/
theorem ctlOf_lzwEnc_any {s : State} (hf : s.inputFits) (hp : s.params.noTableLimit) :
   ∃ s', ctlOf .lzwEnc s = .finish s' ((lzwCodesOf s.input).flatMap s.serWord) ((lzwCodesOf s.input).any s.serOverflows) ∧ shellOf s' = shellOf s ∧
     (s.inLen ≠ 0#64 → s'.lzw = encState s.lzw (lzwParse seedStrings [] s.input).1 (lzwParse seedStrings [] s.input).2.1 (lzwCodesOf s.input)) := by
  by_cases h0 : s.inLen = 0#64
  · rw [State.input_eq_nil.mpr h0, lzwCodesOf_nil]
    exact ⟨_, ctlOf_lzwEnc_empty hf h0, rfl, fun h => absurd h0 h⟩
  · obtain ⟨s', h1, h2, h3⟩ := ctlOf_lzwEnc hf hp h0
    exact ⟨s', h1, h3, fun _ => h2⟩

/-- No code exceeds `254 + m` (R205). -/
theorem lzwCodesOf_le {x : ByteString} (hx : x ≠ []) : ∀ k ∈ lzwCodesOf x, k ≤ 254 + x.length := by
  intro k hk
  obtain ⟨h1, h2, h3⟩ := lzwCodesOf_bounds hx
  obtain ⟨j, hj⟩ := List.mem_iff_getElem?.mp hk
  have := h3 j k hj
  have : j < (lzwCodesOf x).length := (List.getElem?_eq_some_iff.mp hj).1
  omega

/-- Whole chunks only (R207). -/
theorem chunksOf_mod {s : State} {x : ByteString} {c : List ByteString} (h : ChunksOf s x c) : x.length % s.sw = 0 := by
  obtain ⟨rfl, h⟩ := h
  rw [chunks_length_div h, Nat.mul_mod_left]

end Sys2Proof.Machine
end

