-- ==== Sys2Proof/Laws/Decode.lean ====
section
/-! SUPPORT. The decoder on every value written to CMD (30_encoding.md R70, R71, R90), by the value as a number. -/

namespace Sys2Proof

/-- A value below 8 has no bit above bit 2, and its `op` field is the value. -/
theorem cmdWord_of_lt_eight (v : Word) (h : v.toNat < 8) : CmdWord.narrow v = true ∧ CmdWord.reservedClear v = true ∧ (v.extractLsb' 0 3).toNat = v.toNat := by
  refine ⟨?_, ?_, ?_⟩
  · simp only [CmdWord.narrow, beq_iff_eq]; apply BitVec.eq_of_toNat_eq; simp [BitVec.extractLsb'_toNat, Nat.shiftRight_eq_div_pow]; omega
  · simp only [CmdWord.reservedClear, beq_iff_eq]; apply BitVec.eq_of_toNat_eq; simp [BitVec.extractLsb'_toNat, Nat.shiftRight_eq_div_pow]; omega
  · simp [BitVec.extractLsb'_toNat]; omega

/-- The values below 8 (R71). -/
theorem decodeCommand_small (v : Word) (h : v.toNat < 8) : decodeCommand v = match v.toNat with
  | 1 => .ok .iwcSer
  | 2 => .ok .iwcDes
  | 3 => .ok .iwcWidth
  | 4 => .ok .hufEnc
  | 5 => .ok .hufDec
  | 6 => .ok .lzwEnc
  | 7 => .ok .lzwDec
  | _ => .error .opZero := by
  obtain ⟨h1, h2, h3⟩ := cmdWord_of_lt_eight v h
  simp only [decodeCommand, h1, h2, decodeOp, h3]; rfl

/-- A value with a bit above bit 7 (40_command_interface.md R102). -/
theorem decodeCommand_wide (v : Word) (h : 256 ≤ v.toNat) : decodeCommand v = .error .wideWrite := by
  have : CmdWord.narrow v = false := by
    rw [Bool.eq_false_iff]; intro hh
    simp only [CmdWord.narrow, beq_iff_eq] at hh
    have := congrArg BitVec.toNat hh
    simp [BitVec.extractLsb'_toNat, Nat.shiftRight_eq_div_pow] at this
    have := v.isLt
    omega
  simp [decodeCommand, this]

/-- A value with a bit of 7:3 set (R70). -/
theorem decodeCommand_reserved (v : Word) (h : v.toNat < 256) (h8 : 8 ≤ v.toNat) : decodeCommand v = .error .reservedBits := by
  have hn : CmdWord.narrow v = true := by
    simp only [CmdWord.narrow, beq_iff_eq]; apply BitVec.eq_of_toNat_eq; simp [BitVec.extractLsb'_toNat, Nat.shiftRight_eq_div_pow]; omega
  have : CmdWord.reservedClear v = false := by
    rw [Bool.eq_false_iff]; intro hh
    simp only [CmdWord.reservedClear, beq_iff_eq] at hh
    have := congrArg BitVec.toNat hh
    simp [BitVec.extractLsb'_toNat, Nat.shiftRight_eq_div_pow] at this
    omega
  simp [decodeCommand, this, hn]

end Sys2Proof
end

