-- ==== Sys2Proof/Laws/HufFacts.lean ====
section
/-! SUPPORT. What HUF.ENC's codes and tree give (42_huffman_encoder.md R146 to R151), and what HUF.DEC reads (43_huffman_decoder.md R172 to R178). -/

namespace Sys2Proof.Machine

theorem State.bitsOf_congr {s t : State} (h : t.huf = s.huf) (x : ByteString) : t.bitsOf x = s.bitsOf x := by
  unfold State.bitsOf State.codeOf; rw [h]

/-- The counts of all byte values sum to the length (R142). -/
theorem sum_count_allBytes (x : ByteString) : (allBytes.map fun b => x.count b).sum = x.length := by
  rw [← sum_count_symbols x]
  unfold symbolsOf
  have : ∀ l : List Byte, (l.map fun b => x.count b).sum = ((l.filter fun b => decide (b ∈ x)).map fun b => x.count b).sum := by
    intro l
    induction l with
    | nil => rfl
    | cons b l ih =>
      by_cases hb : b ∈ x
      · simp [hb, ih]
      · simp [hb, ih, List.count_eq_zero_of_not_mem hb]
  exact this _

theorem symbolsOf_length_pos {x : ByteString} (hx : x ≠ []) : 1 ≤ (symbolsOf x).length := by
  obtain ⟨a, l, rfl⟩ := List.exists_cons_of_ne_nil hx
  exact List.length_pos_of_mem (mem_symbolsOf.mpr (by simp : a ∈ a :: l))

theorem symbolsOf_length_le {x : ByteString} : (symbolsOf x).length ≤ x.length := by
  have : (symbolsOf x).Subperm x := by
    rw [List.subperm_ext_iff]
    intro b hb
    rw [List.count_eq_one_of_mem (nodup_symbolsOf x) hb]
    exact List.count_pos_iff.mpr (mem_symbolsOf.mp hb)
  exact this.length_le

/-- The distinct symbols of an input of one symbol (R147). -/
theorem symbolsOf_single {x : ByteString} {b : Byte} (hx : x ≠ []) (h : ∀ y ∈ x, y = b) : symbolsOf x = [b] := by
  have h1 : ∀ y ∈ symbolsOf x, y = b := fun y hy => h y (mem_symbolsOf.mp hy)
  have h2 := nodup_symbolsOf x
  have h3 := symbolsOf_length_pos hx
  match hs : symbolsOf x with
  | [] => rw [hs] at h3; simp at h3
  | [a] => rw [hs] at h1; rw [h1 a (by simp)]
  | a :: a' :: l =>
    rw [hs] at h1 h2
    have e1 := h1 a (by simp); have e2 := h1 a' (by simp)
    subst e1; subst e2; simp at h2

/-- A single leaf entry merges to its leaf (R145). -/
theorem MergesTo.eq_leaf {f : Byte → Nat} {b : Byte} {t : Tree} (h : MergesTo [leafEntry f b] 0 t) : t = .leaf b := by
  obtain ⟨e, k⟩ | ⟨_, rest, e1, e2, k, t, hq, h1, h2, h⟩ := h
  · rfl
  · have := hq.length_eq; simp at this

/-- Every path to a leaf is that leaf's code (R146). -/
theorem leafCodes_of_symbolAt {t : Tree} {p c : ByteString} {b : Byte} (hc : IsBits c) (h : t.symbolAt c = some b) :
    (b, p ++ c) ∈ leafCodes t p := by
  induction t generalizing p c with
  | absent => simp [Tree.symbolAt] at h
  | leaf b' =>
    cases c with
    | nil => simp [Tree.symbolAt] at h; subst h; simp [leafCodes]
    | cons x c => simp [Tree.symbolAt] at h
  | node l r ihl ihr =>
    cases c with
    | nil => simp [Tree.symbolAt] at h
    | cons x c =>
      obtain ⟨hx, hc'⟩ := isBits_cons.mp hc
      unfold Tree.symbolAt at h
      unfold leafCodes
      rw [List.mem_append]
      split at h
      · rename_i hz
        left
        have := ihl (p := p ++ [chZero]) hc' h
        rw [hz]; simpa using this
      · rename_i hz
        right
        have := ihr (p := p ++ [chOne]) hc' h
        rw [hx.resolve_left hz]; simpa using this

theorem Tree.exists_node {t : Tree} (hf : t.full = true) (h : 2 ≤ t.leaves.length) : ∃ l r, t = .node l r := by
  cases t with
  | absent => simp [Tree.full] at hf
  | leaf b => simp [Tree.leaves] at h
  | node l r => exact ⟨l, r, rfl⟩

/-- CODETAB holds the tree's codes only (R146). -/
theorem HencText.mem_codesOf {x : ByteString} {t : State} (hb : HencText x t) {b : Byte} {c : ByteString} (h : t.codeOf b = some c) : (b, c) ∈ codesOf t.huf.tree := by
  by_cases hm : b ∈ x
  · obtain ⟨c', h1, h2⟩ := hb.toHencCodes.codeOf_mem hm
    rw [h] at h2; cases h2; exact h1
  · rw [hb.noCode b hm] at h; cases h

/-- The tree text by symbols (R148). -/
theorem entriesText_eq_flatMap {t : State} {es : List (Byte × ByteString)} (h : ∀ e ∈ es, t.codeOf e.1 = some e.2) :
   entriesText es = ((es.map Prod.fst).flatMap fun b => [b] ++ (t.codeOf b).getD [] ++ [chSpace]) := by
  induction es with
  | nil => rfl
  | cons e es ih =>
    rw [entriesText_cons, List.map_cons, List.flatMap_cons, ← ih (fun e he => h e (by simp [he])), h e (by simp)]
    simp [treeEntry]

theorem lt_of_bit {p c d : ByteString} (hc : (p ++ [chZero]) <+: c) (hd : (p ++ [chOne]) <+: d) : c < d := by
  obtain ⟨c', rfl⟩ := hc
  obtain ⟨d', rfl⟩ := hd
  induction p with
  | nil => exact List.Lex.rel (by decide)
  | cons a p ih => exact List.Lex.cons ih

/-- In pre-order the codes ascend (R148). -/
theorem leafCodes_sorted (t : Tree) (p : ByteString) : (leafCodes t p).Pairwise fun a b => a.2 < b.2 := by
  induction t generalizing p with
  | absent => simp [leafCodes]
  | leaf b => simp [leafCodes]
  | node l r ihl ihr =>
    unfold leafCodes
    rw [List.pairwise_append]
    exact ⟨ihl _, ihr _, fun a ha b hb => lt_of_bit (leafCodes_extend ha) (leafCodes_extend hb)⟩

theorem codesOf_sorted (t : Tree) : (codesOf t).Pairwise fun a b => a.2 < b.2 := by
  cases t with
  | absent => simp [codesOf]
  | leaf b => simp [codesOf]
  | node l r => exact leafCodes_sorted _ _

theorem pairwise_of_mem {α : Type} {R : α → α → Prop} {l : List α} (h : l.Pairwise R) (hs : ∀ a b, R a b → R b a) {a b : α} (ha : a ∈ l) (hb : b ∈ l) (hne : a ≠ b) : R a b := by
  induction h with
  | nil => cases ha
  | cons h1 h2 ih =>
    rcases List.mem_cons.mp ha with ha' | ha' <;> rcases List.mem_cons.mp hb with hb' | hb'
    · exact absurd (ha'.trans hb'.symm) hne
    · subst ha'; exact h1 _ hb'
    · subst hb'; exact hs _ _ (h1 _ ha')
    · exact ih ha' hb'

/-- A sum over an input, symbol by symbol (R150). -/
theorem sum_map_eq_sum_counts (f : Byte → Nat) (x : ByteString) (l : List Byte) (hl : l.Nodup) (hx : ∀ b ∈ x, b ∈ l) :
    (x.map f).sum = (l.map fun b => x.count b * f b).sum := by
  induction x with
  | nil => simp
  | cons c x ih =>
    rw [List.map_cons, List.sum_cons, ih (fun b hb => hx b (by simp [hb]))]
    have hc := hx c (by simp)
    clear ih hx
    induction l with
    | nil => cases hc
    | cons a l ih2 =>
      rw [List.nodup_cons] at hl
      rw [List.map_cons, List.map_cons, List.sum_cons, List.sum_cons]
      by_cases hac : a = c
      · subst hac
        have : (l.map fun b => (a :: x).count b * f b) = (l.map fun b => x.count b * f b) := by
          apply List.map_congr_left
          intro b hb
          rw [List.count_cons_of_ne (fun h => hl.1 (by rw [h]; exact hb))]
        rw [this, List.count_cons_self]; ring
      · rw [← ih2 hl.2 (by rcases List.mem_cons.mp hc with h | h; exact absurd h.symm hac; exact h), List.count_cons_of_ne (fun h => hac h.symm)]
        omega

theorem State.length_bitsOf (t : State) (x : ByteString) : (t.bitsOf x).length = (x.map fun b => ((t.codeOf b).getD []).length).sum := by
  unfold State.bitsOf; rw [List.length_flatMap]

/-- A sum over the symbols and their codes is one over the tree's codes. -/
theorem HencText.sum_symbols {x : ByteString} {t : State} (hb : HencText x t) {β : Type} [AddCommMonoid β] (f : Byte → ByteString → β) :
   ((symbolsOf x).map fun b => f b ((t.codeOf b).getD [])).sum = ((codesOf t.huf.tree).map fun e => f e.1 e.2).sum := by
  have h1 : ((codesOf t.huf.tree).map fun e => f e.1 e.2) = (t.huf.tree.leaves.map fun b => f b ((t.codeOf b).getD [])) := by
    rw [← codesOf_fst, List.map_map]
    apply List.map_congr_left
    intro e he
    simp [hb.code e he]
  rw [h1]
  exact (List.Perm.map _ hb.leaves).sum_eq.symm

/-- The codes' lengths sum to at most `(n - 1) * (n + 2) / 2` (30_encoding.md R82). -/
theorem HencText.codeLengths_le {x : ByteString} {t : State} (hb : HencText x t) (h2 : 2 ≤ (symbolsOf x).length) :
   2 * codeLengths (codesOf t.huf.tree) ≤ ((symbolsOf x).length - 1) * ((symbolsOf x).length + 2) := by
  have hn : t.huf.tree.leaves.length = (symbolsOf x).length := hb.leaves.length_eq
  obtain ⟨l, r, htree⟩ := Tree.exists_node hb.full (by rw [hn]; exact h2)
  have hcodes : codesOf t.huf.tree = leafCodes t.huf.tree [] := by rw [htree]; rfl
  have := codeLengths_leafCodes_le hb.full []
  rw [hcodes]
  rw [hn] at this
  simp at this
  generalize (symbolsOf x).length = n at *
  obtain ⟨m, rfl⟩ := Nat.exists_eq_add_of_le h2
  have e : (2 + m - 1) * (2 + m + 2) + 2 = (2 + m) * (2 + m) + (2 + m) := by
    have : 2 + m - 1 = m + 1 := by omega
    rw [this]; ring
  omega

/-! ### HUF.DEC -/

/-- HUF.DEC on a frame (R170). -/
theorem ctlOf_hufDec_frame {s : State} {lenWord : ByteString} {es w : List (Byte × ByteString)} (hf : s.inputFits) (hp : s.params.noTableLimit)
    (h1 : lenWord.length = s.sw) (h2 : des s.wordBits s.mode lenWord = .ok (entriesText es).length) (h3 : CodeEntries es) (h4 : ∀ e ∈ w, e ∈ es)
    (h5 : s.input = frameOf lenWord (entriesText es) (w.flatMap Prod.snd)) :
    ∃ s', ctlOf .hufDec s = .finish s' (w.map Prod.fst) false ∧ shellOf s' = shellOf s ∧ s'.outAcc = w.map Prod.fst ∧
      s'.huf.treeLen = (entriesText es).length ∧ s'.huf.tbuf = entriesText es ∧ s'.huf.bits = w.flatMap Prod.snd ∧
      ∀ c b, IsBits c → (s'.huf.tree.symbolAt c = some b ↔ (b, c) ∈ es) := by
  have h0 : s.inLen ≠ 0#64 := by
    intro h
    have := congrArg List.length h5
    rw [State.input_eq_nil.mpr h, length_frameOf] at this; simp at this
  have hd := hdecPhases_frame s lenWord es w h1 h2 h3 h4
  rw [← h5] at hd
  rcases ctlOf_hufDec hf hp h0 with ⟨s', out, lw, es', w', hc, g, hk⟩ | ⟨hx, -⟩
  · have hc' : runPhases (hdecPhases s.input) s = .finish s' out false := by
      rw [← hc]; exact (guarded_of_fits hf _).symm
    rw [hc'] at hd
    obtain ⟨rfl, -⟩ := hd
    have hfr := g.frame
    rw [h5] at hfr
    have e1 : lenWord = lw := by
      unfold frameOf at hfr
      simp only [List.append_assoc] at hfr
      exact (List.append_inj hfr (h1.trans g.len.symm)).1
    subst e1
    have e2 : (entriesText es).length = (entriesText es').length := by
      have := h2.symm.trans g.desLen; injection this
    obtain ⟨-, e3, e4⟩ := frameOf_inj rfl e2 hfr
    have e5 := entriesText_inj h3.bits g.entries.bits e3
    subst e5
    exact ⟨s', hc, hk, g.outAcc, g.treeLen, g.tbuf, by rw [g.bits, e4], g.tree⟩
  · exact absurd ⟨_, lenWord, es, w, h1, h2, h3, h4, h5, rfl⟩ hx

/-- An input that passes all the framing checks (R172, R173). -/
def FramingOk (s : State) (x : ByteString) : Prop :=
  s.sw + 1 ≤ x.length ∧ ∃ n, des s.wordBits s.mode (x.take s.sw) = .ok n ∧ x[s.sw]? = some chNewline ∧ s.sw + n + 3 ≤ x.length ∧
    x[s.sw + 1 + n]? = some chNewline ∧ x[x.length - 1]? = some chNewline

/-- Every other non-empty input is rejected before the tree is rebuilt. -/
theorem hdecPhases_bad_framing {input : ByteString} (hne : input ≠ []) (s : State) (hg : ¬FramingOk s input) :
    (runPhases (hdecPhases input) s).Sat (fun _ => False) (fun _ _ _ => False)
      (fun _ e => e = .malformedInput) := by
  unfold hdecPhases
  refine runPhases_cons_sat _ _ _ _ ?_
  rw [hdecEmpty, if_neg hne, Ctl.sat_go]
  refine runPhases_cons_sat _ _ _ _ ?_
  unfold hdecPrefix
  split
  · rfl
  rename_i hlen
  simp only [State.sw_enter] at hlen
  rw [Ctl.sat_go]
  refine runPhases_cons_sat _ _ _ _ ?_
  unfold hdecTreeLen
  split
  swap
  · rfl
  rename_i n hn
  rw [Ctl.sat_go]
  refine runPhases_cons_sat _ _ _ _ ?_
  generalize hs3 : State.enter _ Phase.d3TreeSlice = s3
  have e3 : s3.sw = s.sw ∧ s3.treeStart = s.sw + 1 ∧ s3.treeEnd = s.sw + 1 + n := by subst hs3; exact ⟨rfl, rfl, rfl⟩
  have hn' : des s.wordBits s.mode (input.take s.sw) = .ok n := hn
  unfold hdecTreeSlice
  rw [e3.1, e3.2.1, e3.2.2]
  split
  · rfl
  rename_i h1
  split
  · rfl
  rename_i h2
  split
  · rfl
  rename_i h3
  rw [Ctl.sat_go]
  refine runPhases_cons_sat _ _ _ _ ?_
  generalize hs4 : State.enter _ Phase.d4BitSlice = s4
  have e4 : s4.treeEnd = s.sw + 1 + n := by
    subst hs4; exact e3.2.2
  unfold hdecBitSlice
  rw [e4]
  split
  · rfl
  rename_i h4
  split
  · rfl
  rename_i h5
  rw [not_not] at h1 h3 h5
  exact absurd ⟨by omega, n, hn', h1, by omega, h3, h5⟩ hg

/-- The frame HUF.DEC read is the frame the input is. -/
theorem Decoded.eq_of_frame {s t : State} {out lw lenWord T bits : ByteString} {es w : List (Byte × ByteString)} (h1 : lenWord.length = s.sw)
    (h2 : des s.wordBits s.mode lenWord = .ok T.length) (h5 : s.input = frameOf lenWord T bits) (g : Decoded s s.input t out lw es w) :
    T = entriesText es ∧ bits = w.flatMap Prod.snd := by
  have hfr := g.frame
  rw [h5] at hfr
  have e1 : lenWord = lw := by
    unfold frameOf at hfr
    simp only [List.append_assoc] at hfr
    exact (List.append_inj hfr (h1.trans g.len.symm)).1
  subst e1
  have e2 : T.length = (entriesText es).length := by
    have := h2.symm.trans g.desLen; injection this
  obtain ⟨-, e3, e4⟩ := frameOf_inj rfl e2 hfr
  exact ⟨e3, e4⟩

/-- After a bit string, the first byte that is no bit is determined. -/
theorem bits_stop_inj {c d r q : ByteString} {x y : Byte} (hc : IsBits c) (hd : IsBits d) (hx : x ≠ chZero ∧ x ≠ chOne) (hy : y ≠ chZero ∧ y ≠ chOne)
    (h : c ++ x :: r = d ++ y :: q) : x = y := by
  induction c generalizing d with
  | nil =>
    cases d with
    | nil => simp at h; exact h.1
    | cons a d => simp at h; rcases hd a (by simp) with e | e <;> rw [← h.1] at e; exact absurd e hx.1; exact absurd e hx.2
  | cons a c ih =>
    cases d with
    | nil => simp at h; rcases hc a (by simp) with e | e <;> rw [h.1] at e; exact absurd e hy.1; exact absurd e hy.2
    | cons b d =>
      simp at h
      exact ih (fun z hz => hc z (by simp [hz])) (fun z hz => hd z (by simp [hz])) h.2

end Sys2Proof.Machine
end

