-- ==== Sys2Proof/Laws/Relate.lean ====
section
/-! SUPPORT. Two runs of a command on one input, under one CFG and the same parameters (10_state.md R39, 42_huffman_encoder.md R154):
phase by phase the working state a later phase reads has been written by an earlier one, so the runs end alike, by the same
output or the same error. -/

namespace Sys2Proof.Machine

/-- What a phase reads of the state besides the working state and its input: CFG and the parameters. -/
def State.key (s : State) : BitVec 3 × Params := (s.cfg, s.params)

/-- Two ways to end a phase, alike; where both go on, the states are related by `P` as well. -/
def Ctl.Rel (P : State → State → Prop) : Ctl → Ctl → Prop
  | .go s, .go u => s.key = u.key ∧ P s u
  | .finish s o v, .finish u o' v' => s.key = u.key ∧ o = o' ∧ v = v'
  | .raise s e, .raise u e' => s.key = u.key ∧ e = e'
  | .undefined, .undefined => True
  | _, _ => False

theorem Ctl.Rel.mono {P Q : State → State → Prop} {c d : Ctl} (h : c.Rel P d) (hPQ : ∀ s u, P s u → Q s u) : c.Rel Q d := by
  cases c <;> cases d <;> first | exact h | exact ⟨h.1, hPQ _ _ h.2⟩

theorem rel_ite {P : State → State → Prop} {p q : Prop} [Decidable p] [Decidable q] {a b a' b' : Ctl} (h : p ↔ q)
    (ha : q → a.Rel P a') (hb : ¬q → b.Rel P b') : (if p then a else b).Rel P (if q then a' else b') := by
  by_cases hq : q
  · rw [if_pos hq, if_pos (h.mpr hq)]; exact ha hq
  · rw [if_neg hq, if_neg (fun hp => hq (h.mp hp))]; exact hb hq

/-- A phase that turns states related by `P` into states related by `Q`. -/
def PhaseRel (P Q : State → State → Prop) (f : State → Ctl) : Prop :=
  ∀ s u, s.key = u.key → P s u → (f s).Rel Q (f u)

theorem key_cfg {s u : State} (h : s.key = u.key) : s.cfg = u.cfg := congrArg Prod.fst h
theorem key_params {s u : State} (h : s.key = u.key) : s.params = u.params := congrArg Prod.snd h
theorem key_sw {s u : State} (h : s.key = u.key) : s.sw = u.sw := by
  unfold State.sw State.wordBits State.mode; rw [key_cfg h]
theorem key_serWord {s u : State} (h : s.key = u.key) : s.serWord = u.serWord := by
  funext v; unfold State.serWord State.wordBits State.mode; rw [key_cfg h, key_params h]
theorem key_serOverflows {s u : State} (h : s.key = u.key) : s.serOverflows = u.serOverflows := by
  funext v; unfold State.serOverflows State.wordBits; rw [key_cfg h]

/-- Two phases in a row. -/
theorem phaseRel_cons {P Q R : State → State → Prop} {f : State → Ctl} {ph : Phase} {rest : List (Phase × (State → Ctl))}
    (hf : PhaseRel P Q f) (hP : ∀ s u, P s u → P (State.enter s ph) (State.enter u ph)) (hr : PhaseRel Q R (runPhases rest)) :
    PhaseRel P R (runPhases ((ph, f) :: rest)) := by
  intro s u hv hp
  have h := hf (s.enter ph) (u.enter ph) hv (hP s u hp)
  unfold runPhases
  cases hs : f (s.enter ph) <;> cases hu : f (u.enter ph) <;> rw [hs, hu] at h <;> first | exact h.elim | exact h | skip
  exact hr _ _ h.1 h.2

theorem phaseRel_nil {P : State → State → Prop} : PhaseRel P (fun _ _ => False) (runPhases []) := fun _ _ _ _ => trivial

/-- No relation. -/
def anyTwo (_ _ : State) : Prop := True

/-! ### HUF.ENC -/

def sameFreq (s u : State) : Prop := s.huf.freq = u.huf.freq
def sameQueue (s u : State) : Prop := s.huf.pq = u.huf.pq ∧ s.huf.merges = u.huf.merges
def sameTree (s u : State) : Prop := s.huf.tree = u.huf.tree
def sameCodes (s u : State) : Prop := s.huf.tree = u.huf.tree ∧ s.huf.codeTab = u.huf.codeTab
def sameText (s u : State) : Prop := s.huf.codeTab = u.huf.codeTab ∧ s.huf.tbuf = u.huf.tbuf ∧ s.huf.treeLen = u.huf.treeLen

theorem hencEmpty_rel (input : ByteString) : PhaseRel anyTwo anyTwo (hencEmpty input) := by
  intro s u hv _
  unfold hencEmpty
  split
  · exact ⟨hv, rfl, rfl⟩
  · exact ⟨hv, trivial⟩

theorem countBytes_rel (bs : ByteString) : PhaseRel sameFreq sameFreq (countBytes bs) := by
  induction bs with
  | nil => intro s u hv h; exact ⟨hv, h⟩
  | cons b bs ih =>
    intro s u hv h
    have h' : s.huf.freq = u.huf.freq := h
    unfold countBytes
    dsimp only
    refine rel_ite (by simp only [State.consume_params, State.consume_huf, h', key_params hv]) (fun _ => ⟨hv, rfl⟩) fun _ => ?_
    refine ih _ _ hv ?_
    show tabSet s.huf.freq _ _ = tabSet u.huf.freq _ _
    simp only [State.consume_huf, h']

theorem hencCount_rel (input : ByteString) : PhaseRel anyTwo sameFreq (hencCount input) := fun _ _ hv _ =>
  countBytes_rel input _ _ hv rfl

theorem queueLeaves_rel (bs : List Byte) :
    PhaseRel (fun s u => sameFreq s u ∧ sameQueue s u) sameQueue (queueLeaves bs) := by
  induction bs with
  | nil => intro s u hv h; exact ⟨hv, h.2⟩
  | cons b bs ih =>
    rintro s u hv ⟨h1, h2, h3⟩
    have h1' : s.huf.freq = u.huf.freq := h1
    unfold queueLeaves
    dsimp only
    refine rel_ite (by rw [h1']) (fun _ => ih _ _ hv ⟨h1, h2, h3⟩) fun _ => ?_
    refine rel_ite (by rw [h2, key_params hv]) (fun _ => ⟨hv, rfl⟩) fun _ => ih _ _ hv ⟨h1, ?_, h3⟩
    show insertEntry _ s.huf.pq = insertEntry _ u.huf.pq
    rw [h1', h2]

theorem hencQueue_rel : PhaseRel sameFreq sameQueue hencQueue := fun _ _ hv h => queueLeaves_rel allBytes _ _ hv ⟨h, rfl, rfl⟩

theorem mergeLoop_rel (fuel : Nat) : PhaseRel sameQueue sameQueue (mergeLoop fuel) := by
  induction fuel with
  | zero => intro s u hv h; exact ⟨hv, h⟩
  | succ fuel ih =>
    rintro s u hv ⟨h1, h2⟩
    unfold mergeLoop
    rw [h1]
    split
    · dsimp only
      refine rel_ite (by rw [key_params hv]) (fun _ => ⟨hv, rfl⟩) fun _ => ?_
      refine rel_ite (by rw [h2, key_params hv]) (fun _ => ⟨hv, rfl⟩) fun _ => ih _ _ hv ⟨?_, ?_⟩
      · show insertEntry _ _ = insertEntry _ _; rw [h2]
      · show s.huf.merges + 1 = u.huf.merges + 1; rw [h2]
    · exact ⟨hv, h1, h2⟩
    · exact ⟨hv, h1, h2⟩

theorem hencMerge_rel : PhaseRel sameQueue sameTree hencMerge := by
  rintro s u hv ⟨h1, h2⟩
  have h := mergeLoop_rel u.huf.pq.length s u hv ⟨h1, h2⟩
  unfold hencMerge
  rw [h1]
  cases hs : mergeLoop u.huf.pq.length s <;> cases hu : mergeLoop u.huf.pq.length u <;> rw [hs, hu] at h <;>
    first | exact h.elim | exact h | skip
  obtain ⟨g1, g2, -⟩ := h
  unfold takeRoot
  dsimp only
  rw [g2]
  split
  · exact ⟨g1, rfl⟩
  · trivial
  · trivial

theorem fillCodes_rel (es : List (Byte × ByteString)) : PhaseRel sameCodes sameCodes (fillCodes es) := by
  induction es with
  | nil => intro s u hv h; exact ⟨hv, h⟩
  | cons e es ih =>
    rintro s u hv ⟨h1, h2⟩
    obtain ⟨b, c⟩ := e
    unfold fillCodes
    refine rel_ite (by rw [key_params hv]) (fun _ => ⟨hv, rfl⟩) fun _ => ih _ _ hv ⟨h1, ?_⟩
    show tabSet s.huf.codeTab _ _ = tabSet u.huf.codeTab _ _
    rw [h2]

theorem hencCodes_rel : PhaseRel sameTree sameCodes hencCodes := by
  intro s u hv h
  have h' : s.huf.tree = u.huf.tree := h
  unfold hencCodes
  rw [h']
  exact fillCodes_rel _ _ _ hv ⟨h', rfl⟩

theorem hencTreeText_rel : PhaseRel sameCodes sameText hencTreeText := by
  rintro s u hv ⟨h1, h2⟩
  unfold hencTreeText
  rw [h1, h2]
  split
  · exact ⟨hv, h2, rfl, rfl⟩
  · trivial

theorem hencFrame_rel (input : ByteString) : PhaseRel sameText (fun _ _ => False) (hencFrame input) := by
  rintro s u hv ⟨h1, h2, h3⟩
  unfold hencFrame
  rw [h1, h2, h3, key_serWord hv, key_serOverflows hv]
  split
  · exact ⟨hv, rfl, rfl⟩
  · trivial

theorem hencPhases_rel (input : ByteString) : PhaseRel anyTwo (fun _ _ => False) (runPhases (hencPhases input)) :=
  phaseRel_cons (hencEmpty_rel input) (fun _ _ h => h) <|
  phaseRel_cons (hencCount_rel input) (fun _ _ h => h) <|
  phaseRel_cons hencQueue_rel (fun _ _ h => h) <|
  phaseRel_cons hencMerge_rel (fun _ _ h => h) <|
  phaseRel_cons hencCodes_rel (fun _ _ h => h) <|
  phaseRel_cons hencTreeText_rel (fun _ _ h => h) <|
  phaseRel_cons (hencFrame_rel input) (fun _ _ h => h) fun _ _ _ h => h.elim

/-! ### HUF.DEC -/

def sameLen (s u : State) : Prop := s.huf.treeLen = u.huf.treeLen
def sameTbuf (s u : State) : Prop := s.huf.treeLen = u.huf.treeLen ∧ s.huf.tbuf = u.huf.tbuf
def sameSlices (s u : State) : Prop := s.huf.tbuf = u.huf.tbuf ∧ s.huf.bits = u.huf.bits
def sameRebuilt (s u : State) : Prop := s.huf.tree = u.huf.tree ∧ s.huf.bits = u.huf.bits
def sameWalk (s u : State) : Prop := s.huf.tree = u.huf.tree ∧ s.huf.nodePtr = u.huf.nodePtr ∧ s.outAcc = u.outAcc
def sameAcc (s u : State) : Prop := s.outAcc = u.outAcc

theorem hdecEmpty_rel (input : ByteString) : PhaseRel anyTwo anyTwo (hdecEmpty input) := by
  intro s u hv _
  unfold hdecEmpty
  split
  · exact ⟨hv, rfl, rfl⟩
  · exact ⟨hv, trivial⟩

theorem hdecPrefix_rel (input : ByteString) : PhaseRel anyTwo anyTwo (hdecPrefix input) := by
  intro s u hv _
  unfold hdecPrefix
  exact rel_ite (by rw [key_sw hv]) (fun _ => ⟨hv, rfl⟩) fun _ => ⟨hv, trivial⟩

theorem hdecTreeLen_rel (input : ByteString) : PhaseRel anyTwo sameLen (hdecTreeLen input) := by
  intro s u hv _
  have hd : des s.wordBits s.mode (input.take s.sw) = des u.wordBits u.mode (input.take u.sw) := by
    unfold State.wordBits State.mode; rw [key_sw hv, key_cfg hv]
  unfold hdecTreeLen
  rw [hd]
  split
  · exact ⟨hv, rfl⟩
  · exact ⟨hv, rfl⟩

theorem hdecTreeSlice_rel (input : ByteString) : PhaseRel sameLen sameTbuf (hdecTreeSlice input) := by
  intro s u hv h
  have h' : s.huf.treeLen = u.huf.treeLen := h
  have hst : s.treeStart = u.treeStart := by unfold State.treeStart; rw [key_sw hv]
  have hend : s.treeEnd = u.treeEnd := by unfold State.treeEnd; rw [hst, h']
  unfold hdecTreeSlice
  refine rel_ite (by rw [key_sw hv]) (fun _ => ⟨hv, rfl⟩) fun _ => ?_
  refine rel_ite (by rw [hend]) (fun _ => ⟨hv, rfl⟩) fun _ => ?_
  refine rel_ite (by rw [hend]) (fun _ => ⟨hv, rfl⟩) fun _ => ⟨hv, h', ?_⟩
  show slice input s.treeStart s.treeEnd = slice input u.treeStart u.treeEnd
  rw [hst, hend]

theorem hdecBitSlice_rel (input : ByteString) : PhaseRel sameTbuf sameSlices (hdecBitSlice input) := by
  rintro s u hv ⟨h1, h2⟩
  have hend : s.treeEnd = u.treeEnd := by unfold State.treeEnd State.treeStart; rw [key_sw hv, h1]
  unfold hdecBitSlice
  refine rel_ite (by rw [hend]) (fun _ => ⟨hv, rfl⟩) fun _ => ?_
  refine rel_ite Iff.rfl (fun _ => ⟨hv, rfl⟩) fun _ => ⟨hv, h2, ?_⟩
  show slice input (s.treeEnd + 1) _ = slice input (u.treeEnd + 1) _
  rw [hend]

theorem rebuildTree_rel (text : ByteString) (o : Option (Byte × ByteString)) :
    PhaseRel sameRebuilt sameRebuilt (rebuildTree text o) := by
  induction text generalizing o with
  | nil => intro s u hv h; cases o <;> first | exact ⟨hv, h⟩ | exact ⟨hv, rfl⟩
  | cons c rest ih =>
    rintro s u hv ⟨h1, h2⟩
    cases o with
    | none => exact ih _ _ _ hv ⟨h1, h2⟩
    | some e =>
      obtain ⟨sym, code⟩ := e
      unfold rebuildTree
      dsimp only
      have hp : (s.consume 1).params = (u.consume 1).params := key_params hv
      have ht : (s.consume 1).huf.tree = (u.consume 1).huf.tree := h1
      refine rel_ite Iff.rfl (fun _ => rel_ite Iff.rfl (fun _ => ⟨hv, rfl⟩) fun _ => ?_) fun _ =>
        rel_ite Iff.rfl (fun _ => ⟨hv, rfl⟩) fun _ => rel_ite (by rw [hp]) (fun _ => ⟨hv, rfl⟩) fun _ => ih _ _ _ hv ⟨h1, h2⟩
      rw [ht]
      split
      · exact ⟨hv, rfl⟩
      · exact rel_ite (by rw [hp]) (fun _ => ⟨hv, rfl⟩) fun _ => ih _ _ _ hv ⟨rfl, h2⟩

theorem hdecRebuild_rel : PhaseRel sameSlices sameRebuilt hdecRebuild := by
  rintro s u hv ⟨h1, h2⟩
  unfold hdecRebuild
  rw [h1]
  exact rebuildTree_rel _ _ _ _ hv ⟨rfl, h2⟩

theorem walkBits_rel (bits : ByteString) : PhaseRel sameWalk sameAcc (walkBits bits) := by
  induction bits with
  | nil =>
    rintro s u hv ⟨h1, h2, h3⟩
    unfold walkBits
    exact rel_ite (by rw [h2]) (fun _ => ⟨hv, h3⟩) fun _ => ⟨hv, rfl⟩
  | cons c rest ih =>
    rintro s u hv ⟨h1, h2, h3⟩
    unfold walkBits
    dsimp only
    refine rel_ite Iff.rfl (fun _ => ⟨hv, rfl⟩) fun _ => ?_
    · rw [show (s.consume 1).huf.nodePtr = (u.consume 1).huf.nodePtr from h2]
      split
      · exact ⟨hv, rfl⟩
      · refine ih _ _ hv ⟨h1, ?_, ?_⟩
        · show NodePtr.mk _ _ = NodePtr.mk _ _; rw [show (s.consume 1).huf.tree = (u.consume 1).huf.tree from h1]
        · show _ ++ _ = _ ++ _; rw [show (s.consume 1).outAcc = (u.consume 1).outAcc from h3]
      · exact ih _ _ hv ⟨h1, rfl, h3⟩

theorem hdecWalk_rel : PhaseRel sameRebuilt sameAcc hdecWalk := by
  rintro s u hv ⟨h1, h2⟩
  unfold hdecWalk
  rw [h2]
  refine walkBits_rel _ _ _ hv ⟨h1, ?_, rfl⟩
  show NodePtr.mk _ _ = NodePtr.mk _ _; rw [h1]

theorem hdecReturn_rel : PhaseRel sameAcc (fun _ _ => False) hdecReturn := fun _ _ hv h => ⟨hv, h, rfl⟩

theorem hdecPhases_rel (input : ByteString) : PhaseRel anyTwo (fun _ _ => False) (runPhases (hdecPhases input)) :=
  phaseRel_cons (hdecEmpty_rel input) (fun _ _ h => h) <|
  phaseRel_cons (hdecPrefix_rel input) (fun _ _ h => h) <|
  phaseRel_cons (hdecTreeLen_rel input) (fun _ _ h => h) <|
  phaseRel_cons (hdecTreeSlice_rel input) (fun _ _ h => h) <|
  phaseRel_cons (hdecBitSlice_rel input) (fun _ _ h => h) <|
  phaseRel_cons hdecRebuild_rel (fun _ _ h => h) <|
  phaseRel_cons hdecWalk_rel (fun _ _ h => h) <|
  phaseRel_cons hdecReturn_rel (fun _ _ h => h) fun _ _ _ h => h.elim

/-! ### LZW.ENC and LZW.DEC -/

def sameEnc (s u : State) : Prop :=
  s.lzw.dict = u.lzw.dict ∧ s.lzw.nextCode = u.lzw.nextCode ∧ s.lzw.current = u.lzw.current ∧ s.lzw.codes = u.lzw.codes
def sameList (s u : State) : Prop := s.lzw.codes = u.lzw.codes
def sameInv (s u : State) : Prop :=
  s.lzw.codes = u.lzw.codes ∧ s.lzw.inv = u.lzw.inv ∧ s.lzw.nextCode = u.lzw.nextCode
def sameDec (s u : State) : Prop := sameInv s u ∧ s.lzw.current = u.lzw.current ∧ s.outAcc = u.outAcc

theorem lzwEncEmpty_rel (input : ByteString) : PhaseRel anyTwo anyTwo (lzwEncEmpty input) := by
  intro s u hv _
  unfold lzwEncEmpty
  split
  · exact ⟨hv, rfl, rfl⟩
  · exact ⟨hv, trivial⟩

theorem lzwEncSeed_rel : PhaseRel anyTwo sameEnc lzwEncSeed := by
  intro s u hv _
  unfold lzwEncSeed
  exact rel_ite (by rw [key_params hv]) (fun _ => ⟨hv, rfl⟩) fun _ => ⟨hv, rfl, rfl, rfl, rfl⟩

theorem lzwScan_rel (x : ByteString) : PhaseRel sameEnc sameEnc (lzwScan x) := by
  induction x with
  | nil => intro s u hv h; exact ⟨hv, h⟩
  | cons c x ih =>
    rintro s u hv ⟨h1, h2, h3, h4⟩
    unfold lzwScan
    dsimp only
    have d1 : (s.consume 1).lzw.dict = (u.consume 1).lzw.dict := h1
    have d2 : (s.consume 1).lzw.nextCode = (u.consume 1).lzw.nextCode := h2
    have d3 : (s.consume 1).lzw.current = (u.consume 1).lzw.current := h3
    have d4 : (s.consume 1).lzw.codes = (u.consume 1).lzw.codes := h4
    have d5 : (s.consume 1).params = (u.consume 1).params := key_params hv
    have hv : (s.consume 1).key = (u.consume 1).key := hv
    generalize s.consume 1 = s' at *
    generalize u.consume 1 = u' at *
    rw [d1, d3]
    split
    · exact ih _ _ hv ⟨rfl, d2, rfl, d4⟩
    · split
      · trivial
      · refine rel_ite (by rw [d5]) (fun _ => ⟨hv, rfl⟩) fun _ => ih _ _ hv ⟨?_, ?_, rfl, ?_⟩
        · show _ ++ _ = _ ++ _; rw [d2]
        · show s'.lzw.nextCode + 1 = u'.lzw.nextCode + 1; rw [d2]
        · show _ ++ _ = _ ++ _; rw [d4]

theorem lzwEncFlush_rel : PhaseRel sameEnc sameList lzwEncFlush := by
  rintro s u hv ⟨h1, h2, h3, h4⟩
  unfold lzwEncFlush
  refine rel_ite (by rw [h3]) (fun _ => ⟨hv, h4⟩) fun _ => ?_
  rw [h1, h3]
  split
  · trivial
  · refine ⟨hv, ?_⟩
    show _ ++ _ = _ ++ _
    rw [h4]

theorem lzwEncOutput_rel : PhaseRel sameList (fun _ _ => False) lzwEncOutput := by
  intro s u hv h
  have h' : s.lzw.codes = u.lzw.codes := h
  unfold lzwEncOutput
  rw [h', key_serWord hv, key_serOverflows hv]
  exact ⟨hv, rfl, rfl⟩

theorem lzwEncPhases_rel (input : ByteString) : PhaseRel anyTwo (fun _ _ => False) (runPhases (lzwEncPhases input)) :=
  phaseRel_cons (lzwEncEmpty_rel input) (fun _ _ h => h) <|
  phaseRel_cons lzwEncSeed_rel (fun _ _ h => h) <|
  phaseRel_cons (lzwScan_rel input) (fun _ _ h => h) <|
  phaseRel_cons lzwEncFlush_rel (fun _ _ h => h) <|
  phaseRel_cons lzwEncOutput_rel (fun _ _ h => h) fun _ _ _ h => h.elim

theorem lzwDecEmpty_rel (input : ByteString) : PhaseRel anyTwo anyTwo (lzwDecEmpty input) := by
  intro s u hv _
  unfold lzwDecEmpty
  split
  · exact ⟨hv, rfl, rfl⟩
  · exact ⟨hv, trivial⟩

theorem splitChunks_rel (n : Nat) (x : ByteString) : PhaseRel sameList sameList (splitChunks n x) := by
  induction n generalizing x with
  | zero => intro s u hv h; exact ⟨hv, h⟩
  | succ n ih =>
    intro s u hv h
    have h' : s.lzw.codes = u.lzw.codes := h
    have e : ∀ t : State, splitChunks (n + 1) x t =
        match des (widthOf t.cfg) (modeOf t.cfg) (x.take t.sw) with
        | .error _ => .raise (t.consume t.sw) .malformedInput
        | .ok k => splitChunks n (x.drop t.sw) { t.consume t.sw with lzw := { t.lzw with codes := t.lzw.codes ++ [k] } } :=
      fun _ => rfl
    rw [e, e, key_sw hv, key_cfg hv]
    split
    · exact ⟨hv, rfl⟩
    · refine ih _ _ _ hv ?_
      show _ ++ _ = _ ++ _
      rw [h']

theorem lzwDecSplit_rel (input : ByteString) : PhaseRel anyTwo sameList (lzwDecSplit input) := by
  intro s u hv _
  unfold lzwDecSplit
  refine rel_ite (by rw [key_sw hv]) (fun _ => ⟨hv, rfl⟩) fun _ => ?_
  rw [key_sw hv]
  exact splitChunks_rel _ _ _ _ hv rfl

theorem lzwDecSeed_rel : PhaseRel sameList sameInv lzwDecSeed := by
  intro s u hv h
  unfold lzwDecSeed
  exact rel_ite (by rw [key_params hv]) (fun _ => ⟨hv, rfl⟩) fun _ => ⟨hv, h, rfl, rfl⟩

theorem lzwDecFirst_rel : PhaseRel sameInv sameDec lzwDecFirst := by
  rintro s u hv ⟨h1, h2, h3⟩
  unfold lzwDecFirst
  rw [h1, h2]
  split
  · trivial
  · split
    · exact ⟨hv, rfl⟩
    · split
      · trivial
      · exact ⟨hv, ⟨h1, h2, h3⟩, rfl, rfl⟩

theorem lzwStep_rel (ks : List Nat) : PhaseRel sameDec sameAcc (lzwStep ks) := by
  induction ks with
  | nil => intro s u hv h; exact ⟨hv, h.2.2⟩
  | cons k ks ih =>
    rintro s u hv ⟨⟨h1, h2, h3⟩, h4, h5⟩
    have he : lzwEntryOf s.lzw k = lzwEntryOf u.lzw k := by unfold lzwEntryOf; rw [h2, h3, h4]
    unfold lzwStep
    rw [he]
    split
    · exact ⟨hv, rfl⟩
    · trivial
    · trivial
    · dsimp only
      refine rel_ite (by rw [h2, key_params hv]) (fun _ => ⟨hv, rfl⟩) fun _ => ih _ _ hv ⟨⟨h1, ?_, ?_⟩, rfl, ?_⟩
      · show _ ++ _ = _ ++ _; rw [h2, h3, h4]
      · show s.lzw.nextCode + 1 = u.lzw.nextCode + 1; rw [h3]
      · show _ ++ _ = _ ++ _; rw [h5]

theorem lzwDecStep_rel : PhaseRel sameDec sameAcc lzwDecStep := by
  intro s u hv h
  unfold lzwDecStep
  rw [h.1.1]
  exact lzwStep_rel _ _ _ hv h

theorem lzwDecReturn_rel : PhaseRel sameAcc (fun _ _ => False) lzwDecReturn := fun _ _ hv h => ⟨hv, h, rfl⟩

theorem lzwDecPhases_rel (input : ByteString) : PhaseRel anyTwo (fun _ _ => False) (runPhases (lzwDecPhases input)) :=
  phaseRel_cons (lzwDecEmpty_rel input) (fun _ _ h => h) <|
  phaseRel_cons (lzwDecSplit_rel input) (fun _ _ h => h) <|
  phaseRel_cons lzwDecSeed_rel (fun _ _ h => h) <|
  phaseRel_cons lzwDecFirst_rel (fun _ _ h => h) <|
  phaseRel_cons lzwDecStep_rel (fun _ _ h => h) <|
  phaseRel_cons lzwDecReturn_rel (fun _ _ h => h) fun _ _ _ h => h.elim

end Sys2Proof.Machine
end

