-- ==== Sys2Proof/Laws/Outcome.lean ====
section
/-! SUPPORT. What holds of every command's end: its shell, its errors, the invariants, and that equal inputs end alike
(40_command_interface.md R107, R111, 10_state.md R39, R43, 42_huffman_encoder.md R154). -/

namespace Sys2Proof.Machine

/-- `Finish` ends normally, or by CapacityExceeded (R107). -/
theorem finish_ends_or (s : State) (o : ByteString) (v : Bool) : EndedWith (s.finish o v) o v ∨ FailedWith (s.finish o v) .capacityExceeded := by
  by_cases h : s.outputFits o.length
  · exact .inl ((finish_ends s o v).1 h)
  · exact .inr ((finish_ends s o v).2 h)

/-- A command that answers a next state ended normally or by an error (R110). -/
theorem exec_ended_or_failed {i : Instr} {s t : State} (h : exec i s = .next t) : (∃ out ovf, EndedWith t out ovf) ∨ ∃ e, FailedWith t e := by
  rcases exec_cases h with ⟨s', o, v, -, rfl, -⟩ | ⟨s', e, -, rfl, -⟩
  · rcases finish_ends_or s' o v with h | h
    · exact .inl ⟨_, _, h⟩
    · exact .inr ⟨_, h⟩
  · exact .inr ⟨_, failedWith_raiseError _ _⟩

/-- A command leaves the shell (R111). -/
theorem sameShell_exec {i : Instr} {s t : State} (h : exec i s = .next t) : SameShell s t := by
  rcases exec_cases h with ⟨s', o, v, -, rfl, hk⟩ | ⟨s', e, -, rfl, hk, -⟩
  · exact sameShell_finish_of hk _ _
  · exact sameShell_raiseError_of hk _

/-- The error kinds have different codes (60_exceptions.md R230). -/
theorem ErrKind.code_inj {e e' : ErrKind} (h : e.code = e'.code) : e = e' := by cases e <;> cases e' <;> first | rfl | (revert h; decide)

theorem outputFits_of_shell {s s' : State} (h : shellOf s' = shellOf s) (n : Nat) : s'.outputFits n ↔ s.outputFits n := by
  unfold State.outputFits; rw [(sameShell_of_shellOf h).params]

/-- Two runs that end by the same output and flag, or by the same error, with the same VALUE. -/
def Alike (c d : Ctl) : Prop :=
  (∃ s' u' o v, c = .finish s' o v ∧ d = .finish u' o v ∧ s'.value = u'.value) ∨
  (∃ s' u' e, c = .raise s' e ∧ d = .raise u' e ∧ s'.value = u'.value)

theorem alike_of_rel {c d : Ctl} {s u : State} {α} {π : State → α} {f : α → Word} (hf : ∀ t, f (π t) = t.value)
   (h : c.Rel (fun _ _ => False) d) (he : c.Sat (fun _ => False) (fun _ _ _ => True) (fun _ _ => True))
   (hc : c.Keeps π (π s)) (hd : d.Keeps π (π u)) (hv : s.value = u.value) : Alike c d := by
  have val : ∀ {s' s : State}, π s' = π s → s'.value = s.value := fun {s' s} h => by rw [← hf, ← hf, h]
  cases c <;> cases d <;> first | exact h.elim | exact he.elim | exact h.2.elim | skip
  · obtain ⟨-, rfl, rfl⟩ := h
    exact .inl ⟨_, _, _, _, rfl, rfl, (val hc).trans (hv.trans (val hd).symm)⟩
  · obtain ⟨-, rfl⟩ := h
    exact .inr ⟨_, _, _, rfl, rfl, (val hc).trans (hv.trans (val hd).symm)⟩

theorem guarded_alike {s u : State} {c d : Ctl} (hp : s.params = u.params) (hl : s.inLen = u.inLen) (hv : s.value = u.value)
   (h : Alike c d) : Alike (guarded s c) (guarded u d) := by
  unfold guarded
  rw [hp, hl]
  split
  · exact .inr ⟨_, _, _, rfl, rfl, hv⟩
  · exact h

theorem Ctl.Sat.ends {F R} {c : Ctl} (h : c.Sat (fun _ => False) F R) : c.Sat (fun _ => False) (fun _ _ _ => True) (fun _ _ => True) :=
  h.mono (fun _ h => h) (fun _ _ _ _ => trivial) (fun _ _ _ => trivial)

/-- Equal CFG, parameters, inputs and VALUE: the command ends alike (R39, R154). -/
theorem ctlOf_alike (i : Instr) (s u : State) (hc : s.cfg = u.cfg) (hp : s.params = u.params) (hi : s.input = u.input)
    (hv : s.value = u.value) (hlen : s.inLen = u.inLen) : Alike (ctlOf i s) (ctlOf i u) := by
  have hk : s.key = u.key := by unfold State.key; rw [hc, hp]
  have hen : ∀ (i : Instr), (ctlOf i s).Sat (fun _ => False) (fun _ _ _ => True) (fun _ _ => True) := fun i => Ctl.Sat.ends (ctlOf_ends i s)
  cases i with
  | iwcSer =>
    rw [ctlOf_iwcSer, ctlOf_iwcSer, key_serWord hk, key_serOverflows hk, hv]
    exact .inl ⟨_, _, _, _, rfl, rfl, hv⟩
  | iwcWidth =>
    rw [ctlOf_iwcWidth, ctlOf_iwcWidth, key_sw hk]
    exact .inl ⟨_, _, _, _, rfl, rfl, rfl⟩
  | iwcDes =>
    refine guarded_alike hp hlen hv ?_
    have hm : s.mode = u.mode := by unfold State.mode; rw [hc]
    rw [iwcDesPhases_eq, iwcDesPhases_eq, hi, key_sw hk, hm]
    split
    · exact .inr ⟨_, _, _, rfl, rfl, hv⟩
    · split
      · exact .inr ⟨_, _, _, rfl, rfl, hv⟩
      · exact .inl ⟨_, _, _, _, rfl, rfl, rfl⟩
  | hufEnc =>
    refine guarded_alike hp hlen hv ?_
    rw [hi]
    exact alike_of_rel (π := hencKept) (f := fun k => k.1.2.2.2.2.2.1) (fun _ => rfl) (hencPhases_rel _ s u hk trivial) (Ctl.Sat.ends (hencPhases_end _ _)) (hencRun_keeps _ _) (hencRun_keeps _ _) hv
  | hufDec =>
    refine guarded_alike hp hlen hv ?_
    rw [hi]
    exact alike_of_rel (π := hdecKept) (f := fun k => k.1.2.2.2.2.2.1) (fun _ => rfl) (hdecPhases_rel _ s u hk trivial) (Ctl.Sat.ends (hdecPhases_end _ _)) (hdecRun_keeps _ _) (hdecRun_keeps _ _) hv
  | lzwEnc =>
    refine guarded_alike hp hlen hv ?_
    rw [hi]
    refine alike_of_rel (π := lzwEncKept) (f := fun k => k.1.1.2.2.2.2.2.1) (fun _ => rfl) (lzwEncPhases_rel _ s u hk trivial) ?_ (lzwEncRun_keeps _ _) (lzwEncRun_keeps _ _) hv
    by_cases hx : u.input = []
    · unfold lzwEncPhases
      refine runPhases_cons_sat _ _ _ _ ?_
      rw [lzwEncEmpty, if_pos hx]; trivial
    · exact Ctl.Sat.ends (lzwEncPhases_sat hx s)
  | lzwDec =>
    refine guarded_alike hp hlen hv ?_
    rw [hi]
    refine alike_of_rel (π := lzwDecKept) (f := fun k => k.1.1.2.2.2.2.2.1) (fun _ => rfl) (lzwDecPhases_rel _ s u hk trivial) ?_ (lzwDecRun_keeps _ _) (lzwDecRun_keeps _ _) hv
    by_cases hx : u.input = []
    · unfold lzwDecPhases
      refine runPhases_cons_sat _ _ _ _ ?_
      rw [lzwDecEmpty, if_pos hx]; trivial
    · exact Ctl.Sat.ends (lzwDecPhases_sat hx s)

/-- The error exit keeps the interface invariant (R43). -/
theorem inv_raiseError {s s' : State} (hi : s.Inv) (hk : shellOf s' = shellOf s) (e : ErrKind) : (s'.raiseError e).Inv := by
  have a := sameShell_of_shellOf hk
  have b := shellOf_outBuf hk
  refine ⟨by simp [State.raiseError, packStatus], by simp [State.busy, State.raiseError, packStatus], fun _ => rfl, ?_, ?_, fun _ => rfl, fun c _ => Nat.zero_le _, ?_, ?_, ?_, ?_, ?_⟩
  · have h1 : (s'.raiseError e).errCode = e.code := rfl
    have h2 : (s'.raiseError e).err = true := by simp [State.err, State.raiseError, packStatus]
    rw [h1, h2]; cases e <;> decide
  · show e.code.toNat ≤ 4; cases e <;> decide
  · intro i hi; simp [State.raiseError] at hi
  · show Memory.wf s'.inBuf; rw [a.inBuf]; exact hi.inWf
  · show Memory.wf s'.outBuf; rw [b]; exact hi.outWf
  · show Memory.within s'.params.capIn s'.inBuf; rw [a.inBuf, a.params]; exact hi.inWithin
  · show Memory.within s'.params.capOut s'.outBuf; rw [b, a.params]; exact hi.outWithin

/-- OUT_LEN never exceeds the length of the output, also where 64 bits cannot hold it. -/
theorem outLenOf_le (ep n : Nat) : (outLenOf ep n).toNat ≤ n := by
  by_cases h : n < 2^64
  · rw [outLenOf_of_lt h]; simp; omega
  · have := (outLenOf ep n).isLt; omega

/-- `Finish` keeps the interface invariant (R43). -/
theorem inv_finish {s s' : State} (hi : s.Inv) (hk : shellOf s' = shellOf s) (o : ByteString) (v : Bool) : (s'.finish o v).Inv := by
  have a := sameShell_of_shellOf hk
  have b := shellOf_outBuf hk
  rcases s'.finish_cases o v with ⟨-, h⟩ | ⟨hf, h⟩ <;> rw [h]
  · exact inv_raiseError hi hk _
  have hfit : s'.outputFits o.length := outputFits_iff.mpr hf
  have hst : (s'.complete o v).status = packStatus false true false v := rfl
  have hl : (s'.complete o v).outLen = outLenOf s'.outEpoch o.length := rfl
  have hle := outLenOf_le s'.outEpoch o.length
  refine ⟨?_, ?_, fun _ => rfl, ?_, ?_, ?_, ?_, ?_, ?_, ?_, ?_, ?_⟩
  · rw [hst]; cases v <;> decide
  · intro hb; rw [(endedWith_complete s' o v).flags.2.1] at hb; cases hb
  · rw [(endedWith_complete s' o v).flags.2.2.1]; exact ⟨fun _ => rfl, fun _ => rfl⟩
  · exact Nat.zero_le _
  · intro hn; rw [hst] at hn; exact absurd (by cases v <;> decide) hn
  · intro c hc; rw [hl]; exact hle.trans (hfit c hc)
  · intro i hi
    rw [hl] at hi
    rw [(endedWith_complete s' o v).stored i (by omega), List.getElem?_eq_getElem (by omega)]; rfl
  · show Memory.wf s'.inBuf; rw [a.inBuf]; exact hi.inWf
  · rw [State.complete_outBuf]; exact Memory.wf_writeBytes _ _ (by rw [b]; exact hi.outWf)
  · show Memory.within s'.params.capIn s'.inBuf; rw [a.inBuf, a.params]; exact hi.inWithin
  · rw [State.complete_outBuf]
    refine Memory.within_writeBytes _ _ ?_ ?_
    · show Memory.within s'.params.capOut s'.outBuf; rw [b, a.params]; exact hi.outWithin
    · intro k hk; rw [Nat.zero_add]; exact hfit k hk

/-- The dictionary of a parse is a prefix-closed map (44_lzw.md R212). -/
theorem dictWf_dictOf {d : List ByteString} {cur : ByteString} (h : ParseInv d cur) : DictWf (dictOf d) ∧ DictPrefixClosed (dictOf d) := by
  refine ⟨⟨?_, ?_, ?_, ?_⟩, ?_⟩
  · simp [dictOf, List.range_eq_range']
  · rw [seedDict_eq]
    obtain ⟨r, rfl⟩ := h.seed
    unfold dictOf; rw [List.zipIdx_append]; exact List.prefix_append _ _
  · rw [dictOf_fst]; exact h.nodup
  · intro e he; exact h.nonempty _ (by rw [← dictOf_fst d]; exact List.mem_map_of_mem he)
  · intro e he hn
    rw [dictOf_fst]
    exact h.closed _ (by rw [← dictOf_fst d]; exact List.mem_map_of_mem he) hn

/-- A list of non-empty strings from the seed up is a map from its codes (44_lzw.md R209). -/
theorem invWf_invOf {d : List ByteString} (h : seedStrings <+: d) (hn : ∀ e ∈ d, e ≠ []) : InvWf (invOf d) := by
  refine ⟨?_, ?_, ?_⟩
  · rw [invOf_fst]; simp [invOf]
  · rw [seedInv_eq]
    obtain ⟨r, rfl⟩ := h
    unfold invOf; rw [List.zipIdx_append, List.map_append]; exact List.prefix_append _ _
  · intro e he
    unfold invOf at he
    obtain ⟨⟨a, b⟩, hm, rfl⟩ := List.mem_map.mp he
    have := List.mem_zipIdx_iff_getElem?.mp hm
    exact hn _ (List.mem_of_getElem? this)

/-- What DICT and INV are after a command: what they were, or what LZW.ENC or LZW.DEC built (44_lzw.md R218). -/
theorem ctlOf_dicts (i : Instr) (s : State) : (ctlOf i s).Sat (fun _ => True) (fun t _ _ => (EncDict s t) ∧ DecDict s t) (fun t _ => EncDict s t ∧ DecDict s t) := by
  have keepBoth : ∀ {t : State}, t.lzw.dict = s.lzw.dict → t.lzw.inv = s.lzw.inv → EncDict s t ∧ DecDict s t := fun h1 h2 => ⟨.inl h1, .inl h2⟩
  have viaLzw : ∀ {c : Ctl} {α} {π : State → α} {f : α → LzwState}, (∀ t, f (π t) = t.lzw) → c.Keeps π (π s) → c.Sat (fun _ => False) (fun _ _ _ => True) (fun _ _ => True) → c.Sat (fun _ => True) (fun t _ _ => (EncDict s t) ∧ DecDict s t) (fun t _ => EncDict s t ∧ DecDict s t) := by
    intro c α π f hf hk he
    cases c with
    | go t => trivial
    | undefined => exact he
    | finish t o v =>
      have : t.lzw = s.lzw := by rw [← hf, ← hf, show π t = π s from hk]
      exact keepBoth (by rw [this]) (by rw [this])
    | raise t e =>
      have : t.lzw = s.lzw := by rw [← hf, ← hf, show π t = π s from hk]
      exact keepBoth (by rw [this]) (by rw [this])
  have hen : (ctlOf i s).Sat (fun _ => False) (fun _ _ _ => True) (fun _ _ => True) := Ctl.Sat.ends (ctlOf_ends i s)
  cases i with
  | iwcSer => exact viaLzw (f := fun k => k.2.2.1) (fun _ => rfl) (ctlOf_iwc_keeps _ (.inl rfl) s) hen
  | iwcDes => exact viaLzw (f := fun k => k.2.2.1) (fun _ => rfl) (ctlOf_iwc_keeps _ (.inr (.inl rfl)) s) hen
  | iwcWidth => exact viaLzw (f := fun k => k.2.2.1) (fun _ => rfl) (ctlOf_iwc_keeps _ (.inr (.inr rfl)) s) hen
  | hufEnc => exact viaLzw (f := fun k => k.2.1.2.1) (fun _ => rfl) (ctlOf_hufEnc_keeps s) hen
  | hufDec => exact viaLzw (f := fun k => k.2.1.2.1) (fun _ => rfl) (ctlOf_hufDec_keeps s) hen
  | lzwEnc =>
    refine guarded_sat (fun _ => ?_) fun _ => keepBoth rfl rfl
    have hk := lzwEncRun_keeps s.input s
    by_cases hx : s.input = []
    · unfold lzwEncPhases
      refine runPhases_cons_sat _ _ _ _ ?_
      rw [lzwEncEmpty, if_pos hx]; exact keepBoth rfl rfl
    · refine ((lzwEncPhases_sat hx s).and_keeps hk).mono (fun _ h => trivial) ?_ ?_
      · rintro t o v ⟨⟨h1, -⟩, h2⟩
        exact ⟨.inr ⟨_, by rw [h1]; rfl⟩, .inl (congrArg (fun k => k.2.1) h2)⟩
      · rintro t e ⟨⟨h1, -⟩, h2⟩
        exact ⟨h1, .inl (congrArg (fun k => k.2.1) h2)⟩
  | lzwDec =>
    refine guarded_sat (fun _ => ?_) fun _ => keepBoth rfl rfl
    have hk := lzwDecRun_keeps s.input s
    by_cases hx : s.input = []
    · unfold lzwDecPhases
      refine runPhases_cons_sat _ _ _ _ ?_
      rw [lzwDecEmpty, if_pos hx]; exact keepBoth rfl rfl
    · refine ((lzwDecPhases_sat hx s).and_keeps hk).mono (fun _ h => trivial) ?_ ?_
      · rintro t o v ⟨⟨-, -, -, h1⟩, h2⟩
        exact ⟨.inl (congrArg (fun k => k.2) h2), h1⟩
      · rintro t e ⟨⟨-, h1⟩, h2⟩
        exact ⟨.inl (congrArg (fun k => k.2) h2), h1⟩

/-- Such dictionaries keep the invariant. -/
theorem dictInv_of_dicts {s t : State} (h : s.DictInv) (h1 : EncDict s t) (h2 : DecDict s t) : t.DictInv := by
  have a : DictWf t.lzw.dict ∧ DictPrefixClosed t.lzw.dict := by
    rcases h1 with h1 | ⟨y, h1⟩ <;> rw [h1]
    · exact ⟨h.1, h.2⟩
    · exact dictWf_dictOf (lzwParse_inv parseInv_seed)
  refine ⟨a.1, a.2, ?_⟩
  rcases h2 with h2 | ⟨d, h2, h3, h4⟩ <;> rw [h2]
  · exact h.3
  · exact invWf_invOf h3 h4

end Sys2Proof.Machine
end

