-- ==== Sys2Proof/Laws/PerInstr.lean ====
section
/-! SUPPORT. A law of every command as syntax, one lemma per constructor (30_encoding.md R70, R71). -/

namespace Sys2Proof.Laws.CommandWordLegal

/-- The value a host writes to issue the command passes the three checks of a command word, and its `op` field is the whole of it. -/
def Statement (i : Instr) : Prop :=
  CmdWord.wellFormed (encodeWrite i) = true ∧ ((encodeWrite i).extractLsb' 0 3).setWidth 64 = encodeWrite i

theorem iwcSer : Statement .iwcSer := by unfold Statement; decide
theorem iwcDes : Statement .iwcDes := by unfold Statement; decide
theorem iwcWidth : Statement .iwcWidth := by unfold Statement; decide
theorem hufEnc : Statement .hufEnc := by unfold Statement; decide
theorem hufDec : Statement .hufDec := by unfold Statement; decide
theorem lzwEnc : Statement .lzwEnc := by unfold Statement; decide
theorem lzwDec : Statement .lzwDec := by unfold Statement; decide

end Sys2Proof.Laws.CommandWordLegal
end

