-- ==== Sys2Proof/Tests/Slice0.lean ====
section
/-! SUPPORT. The model's own tests: the checks of a command word, decoding, one or two steps per command on vectors of the spec, and for
every statement that has hypotheses a state and operands that meet them. Expected results are the spec's; each test names its source. -/

set_option Elab.async false

namespace Sys2Proof.Tests

open Sys2Proof.Machine

/-- An idle block with CFG, VALUE and the input written by the host, otherwise as after reset. -/
def ready (cfg : BitVec 3) (value : Word) (input : ByteString) : State :=
  { State.reset with cfg := cfg, value := value, inLen := BitVec.ofNat 64 input.length, inBuf := Memory.writeBytes [] 0 input }

/-- The same block with finite CAP_IN and CAP_OUT. -/
def readyCapped (capIn capOut : Nat) (cfg : BitVec 3) (input : ByteString) : State :=
  { ready cfg 0#64 input with params := { Params.default with capIn := some capIn, capOut := some capOut } }

/-- The state a command ends in. -/
def after (i : Instr) (s : State) : State :=
  match exec i s with
  | .next t => t
  | .fault _ => s
  | .refused _ => s

theorem exec_after (i : Instr) (s : State) : exec i s = .next (after i s) := by
  have h := ctlOf_ends i s
  unfold after
  rw [exec_eq]
  cases hc : ctlOf i s <;> rw [hc] at h <;> first | rfl | exact h.elim

/-- What the host reads after a command: STATUS, ERRCODE, OUT_LEN, VALUE and the output. -/
def seen (i : Instr) (s : State) : Nat × Nat × Nat × Nat × ByteString :=
  ((after i s).status.toNat, (after i s).errCode.toNat, (after i s).outLen.toNat, (after i s).value.toNat, (after i s).output)

/-! ### Command words -/

/-- Each check of a command word refuses an ill-formed one and lets a legal one pass (30_encoding.md R70, R71, R90). -/
theorem test_wide_word_refused : CmdWord.narrow 0x101#64 = false ∧ CmdWord.wellFormed 0x101#64 = false := by decide
theorem test_reserved_bit_refused : CmdWord.reservedClear 0x09#64 = false ∧ CmdWord.wellFormed 0x09#64 = false := by decide
theorem test_op_zero_refused : CmdWord.opNamed 0x00#64 = false ∧ CmdWord.wellFormed 0x00#64 = false := by decide
theorem test_legal_words : [1#64, 2#64, 3#64, 4#64, 5#64, 6#64, 7#64].all CmdWord.wellFormed = true := by decide

/-- The words of R71, bit by bit: bits 7:3 zero, bits 2:0 the operation. -/
theorem test_decode_iwc :
    decodeTableWord 8 0b00000001 = some .iwcSer ∧ decodeTableWord 8 0b00000010 = some .iwcDes ∧
      decodeTableWord 8 0b00000011 = some .iwcWidth := by decide
theorem test_decode_huf : decodeTableWord 8 0b00000100 = some .hufEnc ∧ decodeTableWord 8 0b00000101 = some .hufDec := by decide
theorem test_decode_lzw : decodeTableWord 8 0b00000110 = some .lzwEnc ∧ decodeTableWord 8 0b00000111 = some .lzwDec := by decide
theorem test_decode_illegal :
    decodeCommand 0x00#64 = .error .opZero ∧ decodeCommand 0x08#64 = .error .reservedBits ∧ decodeCommand 0xFF#64 = .error .reservedBits ∧
      decodeCommand 0x100#64 = .error .wideWrite ∧ decodeCommand 0x101#64 = .error .wideWrite := by decide

/-- Right after reset the next step runs the placed word: IWC.WIDTH under CFG = 5 gives 8 (R126). -/
theorem test_fetch_width :
    (match step (State.reset.withFetchWord 8 0x03) with
      | .next t => some (t.value, t.status)
      | .fault _ => none
      | .refused _ => none) = some (8#64, 2#4) := by decide +kernel

/-! ### Commands -/

/-- 95_test_vectors.md V-S1, R124: CFG = 5, VALUE = 305419896 gives `"12345678"`. -/
theorem test_iwcSer_hex : seen .iwcSer (ready 5#3 305419896#64 []) =
    (2, 0, 8, 305419896, [0x31#8, 0x32#8, 0x33#8, 0x34#8, 0x35#8, 0x36#8, 0x37#8, 0x38#8]) := by decide +kernel

/-- R123, R124: 0x1AB does not fit 8 bits; the low byte is written, and OVF is set. -/
theorem test_iwcSer_overflow : seen .iwcSer (ready 0#3 0x1AB#64 []) = (0b1010, 0, 1, 0x1AB, [0xAB#8]) := by decide +kernel

/-- V-S2, R125. -/
theorem test_iwcDes_hex : seen .iwcDes (ready 5#3 7#64 [0x31#8, 0x32#8, 0x33#8, 0x34#8, 0x35#8, 0x36#8, 0x37#8, 0x38#8]) =
    (2, 0, 0, 305419896, []) := by decide +kernel

/-- R125: `"1234"` under CFG = 5 is too short; ERRCODE 1, VALUE kept. -/
theorem test_iwcDes_short : seen .iwcDes (ready 5#3 7#64 [0x31#8, 0x32#8, 0x33#8, 0x34#8]) = (6, 1, 0, 7, []) := by decide +kernel

/-- 95_test_vectors.md, IWC.WIDTH: CFG = 5 gives 8, CFG = 4 gives 4. -/
theorem test_iwcWidth : seen .iwcWidth (ready 5#3 0#64 []) = (2, 0, 0, 8, []) ∧ seen .iwcWidth (ready 4#3 0#64 []) = (2, 0, 0, 4, []) := by
  decide +kernel

/-- 95_test_vectors.md V-HE7: `"abababa"`: `"00000006\nb0 a1 \n1010101\n"`; `b` is rarer, so it goes left. -/
theorem test_hufEnc_two_symbols : seen .hufEnc (ready 5#3 0#64 [0x61#8, 0x62#8, 0x61#8, 0x62#8, 0x61#8, 0x62#8, 0x61#8]) =
    (2, 0, 24, 0, [0x30#8, 0x30#8, 0x30#8, 0x30#8, 0x30#8, 0x30#8, 0x30#8, 0x36#8, 0x0A#8, 0x62#8, 0x30#8, 0x20#8, 0x61#8, 0x31#8,
      0x20#8, 0x0A#8, 0x31#8, 0x30#8, 0x31#8, 0x30#8, 0x31#8, 0x30#8, 0x31#8, 0x0A#8]) := by decide +kernel

/-- 42_huffman_encoder.md R147: a single space, a tree of one leaf and the code `"0"`: `"00000003\n 0 \n0\n"` (V-HE15). -/
theorem test_hufEnc_one_space :
    (fun t : State => (t.output, t.huf.tree, t.codeOf 0x20#8)) (after .hufEnc (ready 5#3 0#64 [0x20#8])) =
      ([0x30#8, 0x30#8, 0x30#8, 0x30#8, 0x30#8, 0x30#8, 0x30#8, 0x33#8, 0x0A#8, 0x20#8, 0x30#8, 0x20#8, 0x0A#8, 0x30#8, 0x0A#8],
        .leaf 0x20#8, some [chZero]) := by decide +kernel

/-- The input of 43_huffman_decoder.md R182, `"00000006\nb0 a1 \n110\n"`. -/
def hufFrame : ByteString :=
  [0x30#8, 0x30#8, 0x30#8, 0x30#8, 0x30#8, 0x30#8, 0x30#8, 0x36#8, 0x0A#8, 0x62#8, 0x30#8, 0x20#8, 0x61#8, 0x31#8, 0x20#8, 0x0A#8,
    0x31#8, 0x31#8, 0x30#8, 0x0A#8]

/-- R182: the output is `"aab"`. -/
theorem test_hufDec_frame : seen .hufDec (ready 5#3 0#64 hufFrame) = (2, 0, 3, 0, [0x61#8, 0x61#8, 0x62#8]) := by decide +kernel

/-- R178: without its last bit the walk of `"01"` for one entry `b01` stops inside the tree (raw, 8 bits). -/
theorem test_hufDec_mid_walk : seen .hufDec (ready 0#3 0#64 [4#8, 0x0A#8, 0x62#8, 0x30#8, 0x31#8, 0x20#8, 0x0A#8, 0x30#8, 0x0A#8]) =
    (6, 2, 0, 0, []) := by decide +kernel

/-- 44_lzw.md R215 under raw 16 bits: `"abababa"` gives the codes 97, 98, 256, 258. -/
theorem test_lzwEnc_codes : seen .lzwEnc (ready 2#3 0#64 [0x61#8, 0x62#8, 0x61#8, 0x62#8, 0x61#8, 0x62#8, 0x61#8]) =
    (2, 0, 8, 0, [0#8, 97#8, 0#8, 98#8, 1#8, 0#8, 1#8, 2#8]) := by decide +kernel

/-- R205: under 8 bits code 256 of `"aaa"` is truncated to 0, and OVF is set. -/
theorem test_lzwEnc_overflow : seen .lzwEnc (ready 0#3 0#64 [0x61#8, 0x61#8, 0x61#8]) = (0b1010, 0, 2, 0, [97#8, 0#8]) := by
  decide +kernel

/-- R216: the codes 97, 98, 256, 258 give `"abababa"`; the last one is the self-reference. -/
theorem test_lzwDec_codes : seen .lzwDec (ready 2#3 0#64 [0#8, 97#8, 0#8, 98#8, 1#8, 0#8, 1#8, 2#8]) =
    (2, 0, 7, 0, [0x61#8, 0x62#8, 0x61#8, 0x62#8, 0x61#8, 0x62#8, 0x61#8]) := by decide +kernel

/-- R209: 257 after one code is neither in the dictionary nor the next code. -/
theorem test_lzwDec_out_of_range : seen .lzwDec (ready 2#3 0#64 [0#8, 97#8, 1#8, 1#8]) = (6, 2, 0, 0, []) := by decide +kernel

/-! ### Witnesses: states and operands that meet the hypotheses of the statements

One theorem per statement, named after it; statements without hypotheses need none. -/

/-- An idle block with the turns to come. -/
def withTurns (ts : List Turn) : State := { State.reset with pending := ts }

/-- A block with a command started and its turn next. -/
def started (v : Word) : State := State.start State.reset v

/-- The sequencer's step runs the command started. -/
theorem step_started {v : Word} {i : Instr} (h : decodeCommand v = .ok i) : step (started v) = exec i (started v) := by
  have hb : (started v).busy = true := by simp [started, State.start, State.busy, packStatus]
  show sequencerTurn (started v) = _
  unfold sequencerTurn
  rw [if_pos hb]
  show (match decodeCommand v with | .ok i => exec i (started v) | .error _ => .next ((started v).raiseError .illegalCommand)) = _
  rw [h]

/-- A block whose parameters limit nothing. -/
theorem fits_ready (cfg : BitVec 3) (value : Word) (input : ByteString) :
    (ready cfg value input).inputFits ∧ (ready cfg value input).params.noTableLimit ∧ (ready cfg value input).params.unbounded ∧
      ∀ n, (ready cfg value input).outputFits n := by
  have hp : (ready cfg value input).params = Params.default := rfl
  have hn : (ready cfg value input).params.noTableLimit := by rw [hp]; exact ⟨rfl, rfl, rfl, rfl⟩
  have hi : ∀ c, c ∉ (ready cfg value input).params.capIn := by intro c hc; rw [hp] at hc; cases hc
  have ho : ∀ c, c ∉ (ready cfg value input).params.capOut := by intro c hc; rw [hp] at hc; cases hc
  exact ⟨fun c hc => absurd hc (hi c), hn, ⟨rfl, rfl, hn⟩, fun n c hc => absurd hc (ho c)⟩

theorem witness_OpcodeMapDecodes : (0 < 256 ∧ 0 = 0) ∧ (8 < 256 ∧ 8 ≤ 8) ∧ (255 < 256 ∧ 8 ≤ 255) := by decide

/-- Both sides hold of the first and the last command word, and neither of the words next to them. -/
theorem witness_DecodeInvertsEncodeOnAllWords :
    decodeCommand 1#64 = .ok .iwcSer ∧ 1#64 = encodeWrite .iwcSer ∧ decodeCommand 7#64 = .ok .lzwDec ∧ 7#64 = encodeWrite .lzwDec ∧
      (∀ i, 0#64 ≠ encodeWrite i) ∧ ∀ i, 8#64 ≠ encodeWrite i := by
  refine ⟨by decide, by decide, by decide, by decide, ?_, ?_⟩ <;> intro i <;> cases i <;> decide

theorem witness_IllegalWordsRejectedByName :
    256 ≤ (256#64).toNat ∧ 256 ≤ (BitVec.allOnes 64).toNat ∧ ((8#64).toNat < 256 ∧ 8 ≤ (8#64).toNat) ∧
      ((255#64).toNat < 256 ∧ 8 ≤ (255#64).toNat) ∧ (0#64).toNat = 0 ∧ (1 ≤ (1#64).toNat ∧ (1#64).toNat ≤ 7) ∧
      (1 ≤ (7#64).toNat ∧ (7#64).toNat ≤ 7) := by decide

theorem witness_StepRunsLatchedCommand :
    ((started 7#64).busy = true ∧ decodeCommand (started 7#64).latch = .ok .lzwDec ∧ (started 7#64).pending = []) ∧
      ({ started 7#64 with pending := [.sequencer] } : State).pending = .sequencer :: [] ∧
      decodeTableWord 8 0x01 = some .iwcSer ∧ (State.reset.busy = false ∧ State.reset.pending = []) ∧
      ((withTurns [.sequencer]).busy = false ∧ (withTurns [.sequencer]).pending = .sequencer :: []) := by decide

theorem witness_StepTakesHostTurnOrReset :
    (withTurns [.host (.rd 0)]).pending = .host (.rd 0) :: [] ∧ (withTurns [.reset]).pending = .reset :: [] := by decide

theorem witness_IllegalCommandReported :
    State.reset.busy = false ∧ (0#64).toNat = 0 ∧ 8 ≤ (8#64).toNat ∧ 8 ≤ (256#64).toNat ∧ 8 ≤ (BitVec.allOnes 64).toNat := by decide

theorem witness_CommandStartWrites : State.reset.busy = false := by decide

/-- An idle block; registers 0, 1, 4, 6 and, for the last clause, 2, 3, 5, 7; a value with bit 8 set. -/
theorem witness_RegisterWriteEffects :
    State.reset.busy = false ∧ 256 ≤ (0x100#64).toNat ∧ ∀ n ∈ [2, 3, 5, 7], n ≠ 0 ∧ n ≠ 1 ∧ n ≠ 4 ∧ n ≠ 6 := by decide

theorem witness_RegisterReadValues :
    (State.reset.busy = false) ∧ ((started 1#64).busy = true ∧ (1 : Nat) ≠ 2) ∧ 7 ≤ 7 := by decide

/-- Index 1 is inside a CAP_IN of 2, index 2 is not. -/
theorem witness_InputByteWriteEffect :
    (readyCapped 2 2 5#3 []).busy = false ∧ (∀ c ∈ (readyCapped 2 2 5#3 []).params.capIn, 1 < c) ∧
      ∃ c ∈ (readyCapped 2 2 5#3 []).params.capIn, c ≤ 2 := by
  refine ⟨by decide, ?_, 2, rfl, by decide⟩
  intro c hc; cases hc; decide

/-- The state after IWC.WIDTH and IWC.SER: an output of one byte, read at its last index. -/
theorem witness_OutputByteReadValue :
    (after .iwcSer (ready 0#3 5#64 [])).busy = false ∧ 0 < (after .iwcSer (ready 0#3 5#64 [])).outLen.toNat ∧
      Memory.read (after .iwcSer (ready 0#3 5#64 [])).outBuf 0 = some 5#8 ∧
      EndedWith (after .iwcSer (ready 0#3 5#64 [])) [5#8] false := by
  refine ⟨by decide +kernel, by decide +kernel, by decide +kernel, by decide +kernel, by decide +kernel, by decide +kernel, fun _ => by decide +kernel,
    ?_, ?_⟩
  · intro i hi
    have h1 : (after .iwcSer (ready 0#3 5#64 [])).outLen.toNat = 1 := by decide +kernel
    have : i = 0 := by omega
    subst this; decide +kernel
  · intro i hi
    have : i = 0 := by simp at hi; omega
    subst this; decide +kernel

/-- The block with a command started is in the interface invariant. -/
theorem witness_BusyAccessesRefused : (started 1#64).Inv ∧ (started 1#64).busy = true ∧ HostAccess.rd 1 ≠ .rd 2 := by
  refine ⟨⟨by decide, by decide, by decide, by decide, by decide, by decide, ?_, ?_, List.Pairwise.nil, List.Pairwise.nil, ?_, ?_⟩, by decide,
    by decide⟩
  · intro c hc; cases hc
  · intro i hi; simp [started, State.start] at hi
  · intro c hc; cases hc
  · intro c hc; cases hc

theorem witness_ResetFromAnyState :
    ({ started 4#64 with pending := [.reset] } : State).pending = .reset :: [] ∧ (started 4#64).busy = true := by decide

/-- CAP_OUT = 2: outputs of 2 bytes fit, of 3 do not. -/
theorem witness_FinishWritesOutput :
    (readyCapped 2 2 5#3 []).outputFits [0x61#8, 0x62#8].length ∧ ¬(readyCapped 2 2 5#3 []).outputFits [0x61#8, 0x62#8, 0x63#8].length := by
  refine ⟨fun c hc => by cases hc; decide, fun h => absurd (h 2 rfl) (by decide)⟩

theorem witness_SerializedDigits : (255 < 2 ^ 8 ∧ 0 < serWidth 8 .raw) ∧ (2 ^ 64 - 1 < 2 ^ 64 ∧ 15 < serWidth 64 .hex) := by decide

theorem witness_DeserializedValue :
    ([0x31#8].length ≠ serWidth 8 .hex) ∧ ([0xFF#8].length = serWidth 8 .raw) ∧
      ([0x31#8, 0x67#8].length = serWidth 8 .hex ∧ ∃ c ∈ [0x31#8, 0x67#8], hexVal c = none) ∧
      ([0x66#8, 0x46#8].length = serWidth 8 .hex ∧ ∀ c ∈ [0x66#8, 0x46#8], (hexVal c).isSome = true) ∧
      des 8 .hex [0x66#8, 0x46#8] = .ok 255 := by decide

theorem witness_WordSerializerLaws :
    (255 < 2 ^ 8) ∧ des 8 .raw [0x41#8] = .ok 0x41 ∧ des 8 .hex [0x41#8, 0x31#8] = .ok 0xA1 := by decide

theorem witness_IwcSerResult :
    (readyCapped 8 8 5#3 []).outputFits (readyCapped 8 8 5#3 []).sw ∧ ¬(readyCapped 8 7 5#3 []).outputFits (readyCapped 8 7 5#3 []).sw := by
  refine ⟨fun c hc => by cases hc; decide, fun h => absurd (h 7 rfl) (by decide)⟩

/-- The right length in both forms, a bad digit, and the empty input. -/
theorem witness_IwcDesResult :
    ((ready 0#3 0#64 [0xFF#8]).inputFits ∧ (ready 0#3 0#64 [0xFF#8]).inLen.toNat = (ready 0#3 0#64 [0xFF#8]).sw ∧
        (ready 0#3 0#64 [0xFF#8]).mode = .raw) ∧
      ((ready 1#3 0#64 [0x66#8, 0x30#8]).inLen.toNat = (ready 1#3 0#64 [0x66#8, 0x30#8]).sw ∧
        ∀ c ∈ (ready 1#3 0#64 [0x66#8, 0x30#8]).input, (hexVal c).isSome = true) ∧
      ((ready 1#3 0#64 [0x66#8, 0x67#8]).inLen.toNat = (ready 1#3 0#64 [0x66#8, 0x67#8]).sw ∧
        (ready 1#3 0#64 [0x66#8, 0x67#8]).mode = .hex ∧ ∃ c ∈ (ready 1#3 0#64 [0x66#8, 0x67#8]).input, hexVal c = none) ∧
      (ready 5#3 0#64 []).inLen.toNat ≠ (ready 5#3 0#64 []).sw :=
  ⟨⟨(fits_ready _ _ _).1, by decide +kernel, by decide⟩, by decide +kernel, by decide +kernel, by decide +kernel⟩

theorem witness_IwcWidthResult : (ready 5#3 0#64 []).cfg = 5#3 ∧ (ready 4#3 0#64 []).cfg = 4#3 := by decide

theorem witness_EmptyInputGivesEmptyOutput : (ready 5#3 0#64 []).inLen = 0#64 := by decide

/-- Two symbols, for HUF.ENC's statements: no limit, a non-empty input, and the next state. -/
theorem witness_HufEnc :
    (ready 5#3 0#64 [0x61#8, 0x62#8, 0x61#8]).inputFits ∧ (ready 5#3 0#64 [0x61#8, 0x62#8, 0x61#8]).params.noTableLimit ∧
      (ready 5#3 0#64 [0x61#8, 0x62#8, 0x61#8]).inLen ≠ 0#64 ∧ (∀ n, (ready 5#3 0#64 [0x61#8, 0x62#8, 0x61#8]).outputFits n) ∧
      exec .hufEnc (ready 5#3 0#64 [0x61#8, 0x62#8, 0x61#8]) = .next (after .hufEnc (ready 5#3 0#64 [0x61#8, 0x62#8, 0x61#8])) ∧
      2 ≤ (symbolsOf (ready 5#3 0#64 [0x61#8, 0x62#8, 0x61#8]).input).length :=
  ⟨(fits_ready _ _ _).1, (fits_ready _ _ _).2.1, by decide, (fits_ready _ _ _).2.2.2, exec_after _ _, by decide +kernel⟩

/-- CAP_OUT = 2 is too small for any frame. -/
theorem witness_HufEncWritesFrame :
    (readyCapped 2 2 5#3 [0x61#8]).inputFits ∧ (readyCapped 2 2 5#3 [0x61#8]).params.noTableLimit ∧
      (readyCapped 2 2 5#3 [0x61#8]).inLen ≠ 0#64 ∧ ¬(readyCapped 2 2 5#3 [0x61#8]).outputFits 15 :=
  ⟨fun c hc => by cases hc; decide, ⟨rfl, rfl, rfl, rfl⟩, by decide, fun h => absurd (h 2 rfl) (by decide)⟩

/-- In `"aba"` the byte `c` does not occur; `a` and `b` occur and differ (R146, R151 c). -/
theorem witness_HufEncCodesArePaths_TreeAndCodes :
    (0x63#8 : Byte) ∉ (ready 5#3 0#64 [0x61#8, 0x62#8, 0x61#8]).input ∧ (0x61#8 : Byte) ∈ (ready 5#3 0#64 [0x61#8, 0x62#8, 0x61#8]).input ∧
      (0x62#8 : Byte) ∈ (ready 5#3 0#64 [0x61#8, 0x62#8, 0x61#8]).input ∧ (0x61#8 : Byte) ≠ 0x62#8 := by decide +kernel

/-- One distinct symbol, for R147 and the clauses about one symbol. -/
theorem witness_HufEncSingleSymbolCode :
    (∀ x ∈ (ready 5#3 0#64 [0x20#8]).input, x = 0x20#8) ∧ symbolsOf (ready 5#3 0#64 [0x20#8]).input = [0x20#8] ∧
      (ready 5#3 0#64 [0x20#8]).inLen ≠ 0#64 ∧
      exec .hufEnc (ready 5#3 0#64 [0x20#8]) = .next (after .hufEnc (ready 5#3 0#64 [0x20#8])) :=
  ⟨by decide +kernel, by decide +kernel, by decide, exec_after _ _⟩

/-- Every width above 8, and a tree text of 256 bytes or more under 8 bits. -/
theorem witness_HufEncSizes : 16 ≤ (ready 2#3 0#64 [0x61#8]).wordBits ∧ (ready 0#3 0#64 [0x61#8]).serOverflows 256 = true := by decide

/-- The frame `"\x03\na0 \n00\n"` under raw, 8 bits. -/
theorem witness_HufDecDecodesFrames :
    (ready 0#3 0#64 [3#8, 0x0A#8, 0x61#8, 0x30#8, 0x20#8, 0x0A#8, 0x30#8, 0x30#8, 0x0A#8]).inputFits ∧
      (ready 0#3 0#64 [3#8, 0x0A#8, 0x61#8, 0x30#8, 0x20#8, 0x0A#8, 0x30#8, 0x30#8, 0x0A#8]).params.noTableLimit ∧
      ([3#8] : ByteString).length = (ready 0#3 0#64 []).sw ∧
      des (ready 0#3 0#64 []).wordBits (ready 0#3 0#64 []).mode [3#8] = .ok (entriesText [(0x61#8, [chZero])]).length ∧
      CodeEntries [(0x61#8, [chZero])] ∧ (∀ e ∈ [(0x61#8, [chZero]), (0x61#8, [chZero])], e ∈ [((0x61#8 : Byte), [chZero])]) ∧
      (ready 0#3 0#64 [3#8, 0x0A#8, 0x61#8, 0x30#8, 0x20#8, 0x0A#8, 0x30#8, 0x30#8, 0x0A#8]).input =
        [3#8] ++ [chNewline] ++ entriesText [(0x61#8, [chZero])] ++ [chNewline] ++ [(0x61#8, [chZero]), (0x61#8, [chZero])].flatMap Prod.snd ++
          [chNewline] :=
  ⟨(fits_ready _ _ _).1, (fits_ready _ _ _).2.1, by decide, by decide, ⟨by simp [IsBits], by simp, by simp⟩, by decide, by decide +kernel⟩

/-- The empty input apart, every input is a case of this statement: an accepted one, and a single byte. -/
theorem witness_HufDecAcceptsExactlyFrames :
    (ready 5#3 0#64 hufFrame).inLen ≠ 0#64 ∧ (seen .hufDec (ready 5#3 0#64 hufFrame)).1 = 2 ∧
      (ready 5#3 0#64 [0x0A#8]).inLen ≠ 0#64 ∧ (seen .hufDec (ready 5#3 0#64 [0x0A#8])).1 = 6 := by decide +kernel

/-- Each framing check fails on some input (raw 8 bits, `sw` = 1; hex 8 bits for the bad digit). -/
theorem witness_HufDecRejectsBadFraming :
    (ready 0#3 0#64 [0#8]).inLen.toNat < (ready 0#3 0#64 [0#8]).sw + 1 ∧
      (∃ e, des 8 .hex ((ready 1#3 0#64 [0x67#8, 0x30#8, 0x0A#8]).input.take 2) = .error e) ∧
      (ready 0#3 0#64 [0#8, 0x20#8, 0x0A#8, 0x0A#8]).input[1]? ≠ some chNewline ∧
      (des 8 .raw ((ready 0#3 0#64 [0#8, 0x0A#8, 0x0A#8]).input.take 1) = .ok 0 ∧ (ready 0#3 0#64 [0#8, 0x0A#8, 0x0A#8]).inLen.toNat < 1 + 0 + 3) ∧
      (ready 0#3 0#64 [0#8, 0x0A#8, 0x20#8, 0x0A#8]).input[1 + 1 + 0]? ≠ some chNewline ∧
      (ready 0#3 0#64 [0#8, 0x0A#8, 0x0A#8, 0x20#8]).input[4 - 1]? ≠ some chNewline := by
  refine ⟨by decide, ⟨.malformedInput, by decide +kernel⟩, by decide +kernel, by decide +kernel, by decide +kernel, by decide +kernel⟩

/-- After the entry `a0`: no space, an empty code, a byte that is no bit, and a code that passes through a leaf. -/
theorem witness_HufDecRejectsBadTreeText :
    CodeEntries [((0x61#8 : Byte), [chZero])] ∧ chSpace ∉ [chOne] ∧ (∃ rest, [chSpace] = chSpace :: rest) ∧
      (∃ c x rest, IsBits c ∧ x ≠ chZero ∧ x ≠ chOne ∧ x ≠ chSpace ∧ [chOne, 0x78#8, chSpace] = c ++ x :: rest) ∧
      (∃ c rest, IsBits c ∧ [chZero, chOne, chSpace] = c ++ chSpace :: rest ∧ ∃ e ∈ [((0x61#8 : Byte), [chZero])], ¬Incomparable e.2 c) ∧
      (ready 0#3 0#64 [5#8, 0x0A#8, 0x61#8, 0x30#8, 0x20#8, 0x62#8, 0x31#8, 0x0A#8, 0x30#8, 0x0A#8]).input =
        frameOf [5#8] (entriesText [(0x61#8, [chZero])] ++ 0x62#8 :: [chOne]) [0x30#8] ∧
      ([5#8] : ByteString).length = (ready 0#3 0#64 []).sw ∧
      des 8 .raw [5#8] = .ok (entriesText [(0x61#8, [chZero])] ++ 0x62#8 :: [chOne]).length := by
  refine ⟨⟨by simp [IsBits], by simp, by simp⟩, by decide, ⟨[], rfl⟩, ⟨[chOne], 0x78#8, [chSpace], by simp [IsBits], by decide, by decide,
    by decide, rfl⟩, ⟨[chZero, chOne], [], by simp [IsBits], rfl, (0x61#8, [chZero]), by simp, fun h => h.1 ⟨[chOne], rfl⟩⟩, by decide +kernel, by decide, by decide⟩

/-- `"1"` is no concatenation of the one code `"0"`. -/
theorem witness_HufDecRejectsBadBits :
    CodeEntries [((0x61#8 : Byte), [chZero])] ∧
      (ready 0#3 0#64 [3#8, 0x0A#8, 0x61#8, 0x30#8, 0x20#8, 0x0A#8, 0x31#8, 0x0A#8]).input =
        frameOf [3#8] (entriesText [(0x61#8, [chZero])]) [0x31#8] ∧
      ([3#8] : ByteString).length = (ready 0#3 0#64 []).sw ∧ des 8 .raw [3#8] = .ok (entriesText [(0x61#8, [chZero])]).length ∧
      ¬∃ w : List (Byte × ByteString), (∀ e ∈ w, e ∈ [(0x61#8, [chZero])]) ∧ [0x31#8] = w.flatMap Prod.snd := by
  refine ⟨⟨by simp [IsBits], by simp, by simp⟩, by decide +kernel, by decide, by decide, ?_⟩
  rintro ⟨w, hw, h⟩
  cases w with
  | nil => simp at h
  | cons e w =>
    have := hw e (by simp)
    simp only [List.mem_singleton] at this
    subst this
    simp [chZero] at h

/-- HUF.ENC of one symbol under raw, 8 bits, ends with ERR = 0 and OVF = 0, and a decoder holds its output. -/
theorem witness_HufRoundTrip :
    exec .hufEnc (ready 0#3 0#64 [0x61#8]) = .next (after .hufEnc (ready 0#3 0#64 [0x61#8])) ∧
      (fun t : State => (t.err, t.ovf, t.output)) (after .hufEnc (ready 0#3 0#64 [0x61#8])) =
        (false, false, [3#8, 0x0A#8, 0x61#8, 0x30#8, 0x20#8, 0x0A#8, 0x30#8, 0x0A#8]) ∧
      (ready 0#3 0#64 [3#8, 0x0A#8, 0x61#8, 0x30#8, 0x20#8, 0x0A#8, 0x30#8, 0x0A#8]).input =
        [3#8, 0x0A#8, 0x61#8, 0x30#8, 0x20#8, 0x0A#8, 0x30#8, 0x0A#8] :=
  ⟨exec_after _ _, by decide +kernel, by decide +kernel⟩

/-- An empty and a non-empty input; CAP_OUT = 0 leaves no room for a code. -/
theorem witness_LzwEncWritesCodes :
    (ready 2#3 0#64 [0x61#8]).inputFits ∧ (ready 2#3 0#64 [0x61#8]).params.noTableLimit ∧ (ready 2#3 0#64 [0x61#8]).inLen ≠ 0#64 ∧
      254 + (ready 2#3 0#64 [0x61#8]).inLen.toNat < 2 ^ (ready 2#3 0#64 [0x61#8]).wordBits ∧
      ¬(readyCapped 1 0 2#3 [0x61#8]).outputFits 2 :=
  ⟨(fits_ready _ _ _).1, (fits_ready _ _ _).2.1, by decide, by decide, fun h => absurd (h 0 rfl) (by decide)⟩

/-- The state a phase goes on in. -/
def goOf : Ctl → State
  | .go s => s
  | .finish s _ _ => s
  | .raise s _ => s
  | .undefined => State.reset

/-- Whether a phase goes on. -/
def goes : Ctl → Bool
  | .go _ => true
  | .finish _ _ _ => false
  | .raise _ _ => false
  | .undefined => false

theorem eq_goOf {c : Ctl} (h : goes c = true) : c = .go (goOf c) := by cases c <;> first | rfl | cases h

theorem witness_LzwEncoderInvariants :
    lzwEncSeed State.reset = .go (goOf (lzwEncSeed State.reset)) ∧
      lzwScan [0x61#8, 0x61#8] (goOf (lzwEncSeed State.reset)) = .go (goOf (lzwScan [0x61#8, 0x61#8] (goOf (lzwEncSeed State.reset)))) ∧
      (goOf (lzwScan [0x61#8, 0x61#8] (goOf (lzwEncSeed State.reset)))).lzw.codes[0]? = some 97 :=
  ⟨eq_goOf (by decide +kernel), eq_goOf (by decide +kernel), by decide +kernel⟩

/-- Two codes, the second the self-reference at its bound; and a second code above the bound. -/
theorem witness_LzwDecReadsCodes :
    ChunksOf (ready 2#3 0#64 [0#8, 97#8, 1#8, 0#8]) (ready 2#3 0#64 [0#8, 97#8, 1#8, 0#8]).input [[0#8, 97#8], [1#8, 0#8]] ∧
      [[0#8, 97#8], [1#8, 0#8]].map (des 16 .raw) = [97, 256].map .ok ∧ (∀ j k, [97, 256][j]? = some k → k ≤ 255 + j) ∧
      lzwBytesOf [97, 257] = none := by
  refine ⟨⟨by decide +kernel, by decide⟩, by decide, ?_, by decide +kernel⟩
  intro j k h
  match j with
  | 0 => cases h; decide
  | 1 => cases h; decide
  | j + 2 => simp at h

/-- A byte too few, a bad digit, a code above the bound. -/
theorem witness_LzwDecRejects :
    (ready 2#3 0#64 [0#8]).inLen.toNat % (ready 2#3 0#64 [0#8]).sw ≠ 0 ∧
      (ChunksOf (ready 1#3 0#64 [0x67#8, 0x30#8]) (ready 1#3 0#64 [0x67#8, 0x30#8]).input [[0x67#8, 0x30#8]] ∧
        ∃ e, des 8 .hex [0x67#8, 0x30#8] = .error e) ∧
      (ChunksOf (ready 2#3 0#64 [1#8, 0#8]) (ready 2#3 0#64 [1#8, 0#8]).input [[1#8, 0#8]] ∧
        [[1#8, 0#8]].map (des 16 .raw) = [256].map .ok ∧ ∃ j k, [256][j]? = some k ∧ 255 + j < k) :=
  ⟨by decide, ⟨⟨by decide +kernel, by decide⟩, .malformedInput, by decide⟩, ⟨by decide +kernel, by decide⟩, by decide, 0, 256, rfl, by decide⟩

/-- A decoder's state after its step 4 on code 97. -/
def decoderAt97 : State := { State.reset with lzw := { LzwState.reset with current := [0x61#8] }, outAcc := [0x61#8] }

theorem witness_LzwSelfReference :
    decoderAt97.params.noTableLimit ∧ decoderAt97.lzw.inv.lookup decoderAt97.lzw.nextCode = none ∧ decoderAt97.lzw.current = [0x61#8] :=
  ⟨⟨rfl, rfl, rfl, rfl⟩, by decide +kernel, rfl⟩

/-- The input `"aaa"` after its first two symbols, and the decoder on the codes 97, 256. -/
theorem witness_LzwLockstep :
    lzwEncSeed State.reset = .go (goOf (lzwEncSeed State.reset)) ∧
      lzwScan [0x61#8, 0x61#8] (goOf (lzwEncSeed State.reset)) = .go (goOf (lzwScan [0x61#8, 0x61#8] (goOf (lzwEncSeed State.reset)))) ∧
      lzwCodesOf ([0x61#8, 0x61#8] ++ [0x61#8]) = [97, 256] ∧ decoderAt97.params.noTableLimit ∧ decoderAt97.lzw.inv = seedInv ∧
      decoderAt97.lzw.nextCode = 256 ∧ seedInv.lookup 97 = some decoderAt97.lzw.current :=
  ⟨witness_LzwEncoderInvariants.1, witness_LzwEncoderInvariants.2.1, by decide +kernel, ⟨rfl, rfl, rfl, rfl⟩, rfl, rfl, by decide +kernel⟩

/-- LZW.ENC of `"aaa"` under 16 bits ends with ERR = 0 and OVF = 0, and a decoder holds its output. -/
theorem witness_LzwRoundTrip :
    exec .lzwEnc (ready 2#3 0#64 [0x61#8, 0x61#8, 0x61#8]) = .next (after .lzwEnc (ready 2#3 0#64 [0x61#8, 0x61#8, 0x61#8])) ∧
      (after .lzwEnc (ready 2#3 0#64 [0x61#8, 0x61#8, 0x61#8])).err = false ∧
      (after .lzwEnc (ready 2#3 0#64 [0x61#8, 0x61#8, 0x61#8])).ovf = false ∧
      (ready 2#3 0#64 [0#8, 97#8, 1#8, 0#8]).input = (after .lzwEnc (ready 2#3 0#64 [0x61#8, 0x61#8, 0x61#8])).output :=
  ⟨exec_after _ _, by decide +kernel, by decide +kernel, by decide +kernel⟩

theorem witness_StartedCommandEndsInTwoSteps :
    (withTurns [.host (.wr 1 7#64), .sequencer]).busy = false ∧
      (withTurns [.host (.wr 1 7#64), .sequencer]).pending = .host (.wr 1 7#64) :: .sequencer :: [] := by decide

/-- IWC.DES on the empty input reports LengthMismatch; every command answers a next state. -/
theorem witness_ErrorKindsByCommand :
    exec .iwcDes (ready 5#3 0#64 []) = .next (after .iwcDes (ready 5#3 0#64 [])) ∧
      (after .iwcDes (ready 5#3 0#64 [])).errCode = ErrKind.lengthMismatch.code ∧ (ready 5#3 0#64 []).inputFits ∧
      (ready 5#3 0#64 []).inLen.toNat ≠ (ready 5#3 0#64 []).sw :=
  ⟨exec_after _ _, by decide +kernel, (fits_ready _ _ _).1, by decide +kernel⟩

theorem witness_NoCapacityErrorByDefault :
    (ready 5#3 0#64 []).params.unbounded ∧ exec .lzwEnc (ready 5#3 0#64 []) = .next (after .lzwEnc (ready 5#3 0#64 [])) :=
  ⟨(fits_ready _ _ _).2.2.1, exec_after _ _⟩

/-- An input of one byte more than CAP_IN; a command of each sort. -/
theorem witness_InputCapacityJudgedFirst :
    ¬(readyCapped 1 8 5#3 [0x61#8, 0x62#8]).inputFits ∧ readsInput .hufEnc = true ∧ readsInput .iwcSer = false :=
  ⟨fun h => absurd (h 1 rfl) (by decide), rfl, rfl⟩

/-- A command that changes VALUE, one that ends by an error, one that ends normally. -/
theorem witness_CommandFrame :
    exec .iwcWidth (ready 5#3 0#64 []) = .next (after .iwcWidth (ready 5#3 0#64 [])) ∧
      (after .iwcWidth (ready 5#3 0#64 [])).value ≠ (ready 5#3 0#64 []).value ∧ (after .iwcDes (ready 5#3 0#64 [])).err = true ∧
      (after .iwcSer (ready 5#3 0#64 [])).err = false :=
  ⟨exec_after _ _, by decide +kernel, by decide +kernel, by decide +kernel⟩

theorem witness_MemoryFrame :
    (after .iwcDes (ready 5#3 0#64 [])).err = true ∧ (after .iwcSer (ready 5#3 0#64 [])).err = false ∧
      exec .iwcSer (ready 5#3 0#64 []) = .next (after .iwcSer (ready 5#3 0#64 [])) :=
  ⟨by decide +kernel, by decide +kernel, exec_after _ _⟩

/-- A step that changes CFG, one that changes IN_LEN, IN and VALUE in turn. -/
theorem witness_WhoChangesHostRegisters :
    step (withTurns [.host (.wr 0 0#64)]) = .next { State.reset with cfg := 0#3 } ∧
      step (withTurns [.host (.wr 4 1#64)]) = .next { State.reset with inLen := 1#64 } ∧
      step (withTurns [.host (.wrb 0 5#8)]) = .next { State.reset with inBuf := [(0, 5#8)] } ∧
      step (withTurns [.host (.wr 6 1#64)]) = .next { State.reset with value := 1#64 } :=
  ⟨rfl, rfl, rfl, rfl⟩

/-- Two states that differ in working state only. -/
theorem witness_WorkingStateUnobservable :
    (decoderAt97.visible = State.reset.visible) ∧ decoderAt97 ≠ State.reset := by
  refine ⟨rfl, ?_⟩
  intro h
  have := congrArg State.outAcc h
  simp [decoderAt97, State.reset] at this

theorem witness_EqualInputsEndAlike :
    decoderAt97.cfg = State.reset.cfg ∧ decoderAt97.params = State.reset.params ∧ decoderAt97.input = State.reset.input ∧
      decoderAt97.value = State.reset.value := by decide

/-- A state of the interface invariant and a step from it: the start of a command. -/
theorem witness_InterfaceInvariantKept :
    (started 1#64).Inv ∧ step (started 1#64) = .next (after .iwcSer (started 1#64)) :=
  ⟨witness_BusyAccessesRefused.1, (step_started (by decide)).trans (exec_after _ _)⟩

/-- Both dictionaries at the seed, and a step from there that builds one. -/
theorem witness_DictionariesKept :
    (started 6#64).DictInv ∧ step (started 6#64) = .next (after .lzwEnc (started 6#64)) := by
  have hd : (started 6#64).lzw.dict = dictOf seedStrings := seedDict_eq
  have hi : (started 6#64).lzw.inv = invOf seedStrings := seedInv_eq
  refine ⟨⟨?_, ?_, ?_⟩, (step_started (by decide)).trans (exec_after _ _)⟩
  · rw [hd]; exact (dictWf_dictOf parseInv_seed).1
  · rw [hd]; exact (dictWf_dictOf parseInv_seed).2
  · rw [hi]; exact invWf_invOf parseInv_seed.seed parseInv_seed.nonempty

end Sys2Proof.Tests
end

section
/-! SUPPORT. Proofs of the statements of 10_state.md: what one step can do, said once; the two invariants and who changes the
host's registers derived from it; and that the working state an earlier command left has no influence (R39). -/

namespace Sys2Proof.Machine

/-! ### What a step can do -/

/-- What the host's access changes (40_command_interface.md R101 to R104): reads the log only, a write one register or one byte of IN,
or it starts a command. -/
theorem State.access_cases (s : State) (a : HostAccess) :
    (∃ log, s.access a = { s with readLog := log }) ∨
    (∃ v, a = .wr 0 v ∧ s.access a = { s with cfg := v.extractLsb' 0 3 }) ∨
    (∃ v, a = .wr 1 v ∧ s.access a = s.start v) ∨
    (∃ v, a = .wr 4 v ∧ s.access a = { s with inLen := v }) ∨
    (∃ v, a = .wr 6 v ∧ s.access a = { s with value := v }) ∨
    (∃ i b, a = .wrb i b ∧ beyond s.params.capIn (i + 1) = false ∧
      s.access a = { s with inBuf := Memory.write s.inBuf i b }) := by
  cases a with
  | rd n => exact .inl ⟨_, rfl⟩
  | rdb i => exact .inl ⟨_, rfl⟩
  | wr n v =>
    match n with
    | 0 => exact .inr (.inl ⟨v, rfl, rfl⟩)
    | 1 => exact .inr (.inr (.inl ⟨v, rfl, rfl⟩))
    | 4 => exact .inr (.inr (.inr (.inl ⟨v, rfl, rfl⟩)))
    | 6 => exact .inr (.inr (.inr (.inr (.inl ⟨v, rfl, rfl⟩))))
    | 2 | 3 | 5 | _ + 7 => exact .inl ⟨s.readLog, rfl⟩
  | wrb i b =>
    by_cases hcap : beyond s.params.capIn (i + 1) = true
    · exact .inl ⟨s.readLog, if_pos hcap⟩
    · exact .inr (.inr (.inr (.inr (.inr ⟨i, b, rfl, Bool.eq_false_iff.mpr hcap, if_neg hcap⟩))))

theorem hostTurn_next {a : HostAccess} {s t : State} (h : hostTurn a s = .next t) : t = s.access a := by
  unfold hostTurn at h
  split at h
  · cases h
  · cases h; rfl

/-- The sequencer's turn (R106, R108): it passes in an idle block, runs the latched command, or reports IllegalCommand. -/
theorem sequencerTurn_cases {s t : State} (h : sequencerTurn s = .next t) :
    t = s ∨ (s.busy = true ∧ ∃ i, decodeCommand s.latch = .ok i ∧ exec i s = .next t) ∨
    t = s.raiseError .illegalCommand := by
  unfold sequencerTurn at h
  split at h
  · next hbusy =>
    cases hdec : decodeCommand s.latch with
    | ok i => rw [hdec] at h; exact .inr (.inl ⟨hbusy, i, rfl, h⟩)
    | error r => rw [hdec] at h; cases h; exact .inr (.inr rfl)
  · cases h; exact .inl rfl

/-- One step (R100): the host's access, the sequencer's turn or a reset, with `rest` the turns left. -/
theorem step_cases {s t : State} (h : step s = .next t) :
    ∃ rest, (∃ a, s.pending = .host a :: rest ∧ t = State.access { s with pending := rest } a) ∨
      sequencerTurn { s with pending := rest } = .next t ∨
      (s.pending = .reset :: rest ∧ t = State.toReset { s with pending := rest }) := by
  unfold step at h
  split at h
  · exact ⟨s.pending, .inr (.inl h)⟩
  · next turn rest hpending =>
    refine ⟨rest, ?_⟩
    cases turn with
    | host a => exact .inl ⟨a, hpending, hostTurn_next h⟩
    | sequencer => exact .inr (.inl h)
    | reset => cases h; exact .inr (.inr ⟨hpending, rfl⟩)

/-- The induction step of every invariant: what the list of turns, the host's accesses, the commands, the report of an illegal
word and reset each keep, every step keeps. -/
theorem step_keeps {P : State → Prop} (hturns : ∀ s rest, P s → P { s with pending := rest })
    (haccess : ∀ s a, P s → P (s.access a)) (hexec : ∀ i s t, P s → exec i s = .next t → P t)
    (hillegal : ∀ s, P s → P (s.raiseError .illegalCommand)) (hreset : ∀ s, P s → P s.toReset)
    (s t : State) (hs : P s) (h : step s = .next t) : P t := by
  obtain ⟨rest, ⟨a, -, rfl⟩ | hseq | ⟨-, rfl⟩⟩ := step_cases h
  · exact haccess _ a (hturns s rest hs)
  · rcases sequencerTurn_cases hseq with rfl | ⟨-, i, -, hrun⟩ | rfl
    · exact hturns s rest hs
    · exact hexec i _ t (hturns s rest hs) hrun
    · exact hillegal _ (hturns s rest hs)
  · exact hreset _ (hturns s rest hs)

/-! ### The working state has no influence (R39) -/

/-- What the end of a command can show of the state its phases left: all that is visible but PHASE, which the end writes. -/
def State.endView (s : State) : State := { s.visible with phase := .idle }

theorem visible_raiseError (s : State) (e : ErrKind) : (s.raiseError e).visible = s.endView.raiseError e := rfl

theorem visible_finish (s : State) (out : ByteString) (ovf : Bool) :
    (s.finish out ovf).visible = s.endView.finish out ovf := apply_ite State.visible _ _ _

theorem endView_congr {s u : State} (hshell : shellOf s = shellOf u) (hvalue : s.value = u.value) :
    s.endView = u.endView := by
  cases s; cases u
  simp_all [shellOf, State.endView, State.visible]

/-- Two commands' phases that end alike in states of one shell make two ends that look the same. -/
theorem conclude_visible_of_alike {c d : Ctl} (h : Alike c d) {a} (hc : c.Keeps shellOf a) (hd : d.Keeps shellOf a) :
    ∃ t v, conclude c = .next t ∧ conclude d = .next v ∧ t.visible = v.visible := by
  rcases h with ⟨s, u, out, ovf, rfl, rfl, hvalue⟩ | ⟨s, u, e, rfl, rfl, hvalue⟩
  · refine ⟨_, _, rfl, rfl, ?_⟩
    rw [visible_finish, visible_finish, endView_congr (hc.trans hd.symm) hvalue]
  · refine ⟨_, _, rfl, rfl, ?_⟩
    rw [visible_raiseError, visible_raiseError, endView_congr (hc.trans hd.symm) hvalue]

/-- Settles O55: the two runs' phases end alike (`ctlOf_alike`), and a command's end shows nothing else. -/
theorem workingStateUnobservable : Obligations.WorkingStateUnobservable := by
  unfold Obligations.WorkingStateUnobservable
  intro i s u h
  have same {α : Type} (f : State → α) : f s.visible = f u.visible := congrArg f h
  have hshell : shellOf s = shellOf u := same shellOf
  have halike : Alike (ctlOf i s) (ctlOf i u) :=
    ctlOf_alike i s u (same State.cfg) (same State.params) (same State.input) (same State.value) (same State.inLen)
  rw [exec_eq, exec_eq]
  exact conclude_visible_of_alike halike (hshell ▸ ctlOf_keeps_shell i s) (ctlOf_keeps_shell i u)

/-! ### The interface invariant (R43) -/

/-- A block that shows no command yet and holds no byte meets the interface invariant. -/
theorem inv_of_cleared {s : State} (hstatus : s.status = 0#4) (hphase : s.phase = .idle) (herr : s.errCode = 0#3)
    (hlen : s.outLen = 0#64) (hin : s.inBuf = []) (hout : s.outBuf = []) : s.Inv where
  status := by simp [hstatus]
  busyPhase := by simp [State.busy, hstatus]
  idlePhase _ := hphase
  errCode := by simp [State.err, hstatus, herr]
  errRange := by simp [herr]
  noOutput _ := hlen
  outLen := by simp [State.outputFits, hlen]
  outStored := by simp [hlen]
  inWf := hin ▸ .nil
  outWf := hout ▸ .nil
  inWithin := by simp [hin]
  outWithin := by simp [hout]

/-- A command's start keeps the interface invariant (40_command_interface.md R105). -/
theorem inv_start {s : State} (hs : s.Inv) (v : Word) : (s.start v).Inv :=
  { hs with
    status := by simp [packStatus]
    busyPhase := fun _ => rfl
    idlePhase := by simp [State.busy]
    errCode := ⟨fun _ => packStatus_err true false false false, fun _ => rfl⟩
    errRange := Nat.zero_le _
    noOutput := fun _ => rfl
    outLen := fun _ _ => Nat.zero_le _
    outStored := by simp }

theorem inv_access {s : State} (hs : s.Inv) (a : HostAccess) : (s.access a).Inv := by
  rcases s.access_cases a with ⟨_, e⟩ | ⟨_, -, e⟩ | ⟨v, -, e⟩ | ⟨_, -, e⟩ | ⟨_, -, e⟩ | ⟨i, b, -, hcap, e⟩ <;> rw [e]
  · exact { hs with }
  · exact { hs with }
  · exact inv_start hs v
  · exact { hs with }
  · exact { hs with }
  · exact { hs with
      inWf := Memory.wf_write i b hs.inWf
      inWithin := Memory.within_write i b hs.inWithin (beyond_eq_false.mp hcap) }

theorem inv_exec {i : Instr} {s t : State} (hs : s.Inv) (h : exec i s = .next t) : t.Inv := by
  rcases exec_cases h with ⟨s', out, ovf, -, rfl, hshell⟩ | ⟨s', e, -, rfl, hshell, -⟩
  · exact inv_finish hs hshell out ovf
  · exact inv_raiseError hs hshell e

/-- Settles O59, by what each kind of step keeps. -/
theorem interfaceInvariantKept : Obligations.InterfaceInvariantKept := by
  unfold Obligations.InterfaceInvariantKept
  exact step_keeps (fun _ _ hs => { hs with }) (fun _ a hs => inv_access hs a) (fun _ _ _ => inv_exec)
    (fun _ hs => inv_raiseError hs rfl _) (fun _ _ => inv_of_cleared rfl rfl rfl rfl rfl rfl)

/-! ### The dictionaries' invariant (R37, R38) -/

theorem dictInv_congr {s t : State} (hs : s.DictInv) (h : t.lzw = s.lzw) : t.DictInv :=
  ⟨h ▸ hs.dict, h ▸ hs.dictPrefixClosed, h ▸ hs.inv⟩

theorem dictInv_of_seed {s : State} (hdict : s.lzw.dict = dictOf seedStrings) (hinv : s.lzw.inv = invOf seedStrings) :
    s.DictInv where
  dict := by rw [hdict]; exact (dictWf_dictOf parseInv_seed).1
  dictPrefixClosed := by rw [hdict]; exact (dictWf_dictOf parseInv_seed).2
  inv := by rw [hinv]; exact invWf_invOf parseInv_seed.seed parseInv_seed.nonempty

theorem access_lzw (s : State) (a : HostAccess) : (s.access a).lzw = s.lzw := by
  rcases s.access_cases a with ⟨_, e⟩ | ⟨_, -, e⟩ | ⟨_, -, e⟩ | ⟨_, -, e⟩ | ⟨_, -, e⟩ | ⟨_, _, -, -, e⟩ <;> rw [e]
  exact State.start_lzw s _

/-- Where a command's phases ended, each dictionary is what it was or what an LZW command built from the seed (`ctlOf_dicts`); the
end itself, normal or not, leaves them. -/
theorem dictInv_exec {i : Instr} {s t : State} (hs : s.DictInv) (h : exec i s = .next t) : t.DictInv := by
  have hdicts := ctlOf_dicts i s
  rcases exec_cases h with ⟨s', out, ovf, hctl, rfl, -⟩ | ⟨s', e, hctl, rfl, -⟩
  · rw [hctl] at hdicts
    obtain ⟨-, -, hlzw, -⟩ := finish_other s' out ovf
    exact dictInv_congr (dictInv_of_dicts hs hdicts.1 hdicts.2) hlzw
  · rw [hctl] at hdicts
    exact dictInv_congr (dictInv_of_dicts hs hdicts.1 hdicts.2) (State.raiseError_lzw s' e)

/-- Settles O60, by what each kind of step keeps. -/
theorem dictionariesKept : Obligations.DictionariesKept := by
  unfold Obligations.DictionariesKept
  exact step_keeps (fun _ _ hs => { hs with }) (fun s a hs => dictInv_congr hs (access_lzw s a)) (fun _ _ _ => dictInv_exec)
    (fun _ hs => { hs with }) (fun _ _ => dictInv_of_seed seedDict_eq seedInv_eq)

/-! ### Who changes the host's registers (R21) -/

/-- No command's phases write VALUE but those of IWC.DES and IWC.WIDTH (R28). -/
theorem ctlOf_keeps_value {i : Instr} (hdes : i ≠ .iwcDes) (hwidth : i ≠ .iwcWidth) (s : State) :
    (ctlOf i s).Keeps State.value s.value := by
  cases i with
  | iwcSer => rfl
  | iwcDes => exact absurd rfl hdes
  | iwcWidth => exact absurd rfl hwidth
  | hufEnc => exact (ctlOf_hufEnc_keeps s).map fun k => k.1.2.2.2.2.2.1
  | hufDec => exact (ctlOf_hufDec_keeps s).map fun k => k.1.2.2.2.2.2.1
  | lzwEnc => exact (ctlOf_lzwEnc_keeps s).map fun k => k.1.1.2.2.2.2.2.1
  | lzwDec => exact (ctlOf_lzwDec_keeps s).map fun k => k.1.1.2.2.2.2.2.1

theorem exec_value_ne {i : Instr} {s t : State} (h : exec i s = .next t) (hne : t.value ≠ s.value) :
    i = .iwcDes ∨ i = .iwcWidth := by
  by_contra hi
  rw [not_or] at hi
  have hkeep := ctlOf_keeps_value hi.1 hi.2 s
  rcases exec_cases h with ⟨s', out, ovf, hctl, rfl, -⟩ | ⟨s', e, hctl, rfl, -⟩ <;> rw [hctl] at hkeep
  · exact hne ((finish_other s' out ovf).1.trans hkeep)
  · exact hne hkeep

/-- Settles O54: the access, the command or the reset a step is changes no other of these fields. -/
theorem whoChangesHostRegisters : Obligations.WhoChangesHostRegisters := by
  unfold Obligations.WhoChangesHostRegisters
  intro s t h
  obtain ⟨rest, ⟨a, hpending, rfl⟩ | hseq | ⟨hpending, rfl⟩⟩ := step_cases h
  · rcases State.access_cases { s with pending := rest } a with
      ⟨_, e⟩ | ⟨v, rfl, e⟩ | ⟨_, -, e⟩ | ⟨v, rfl, e⟩ | ⟨v, rfl, e⟩ | ⟨i, b, rfl, -, e⟩ <;> rw [e]
    · exact ⟨rfl, absurd rfl, absurd rfl, absurd rfl, absurd rfl⟩
    · exact ⟨rfl, fun _ => .inl ⟨v, rest, hpending⟩, absurd rfl, absurd rfl, absurd rfl⟩
    · exact ⟨rfl, absurd rfl, absurd rfl, absurd rfl, absurd rfl⟩
    · exact ⟨rfl, absurd rfl, fun _ => .inl ⟨v, rest, hpending⟩, absurd rfl, absurd rfl⟩
    · exact ⟨rfl, absurd rfl, absurd rfl, absurd rfl, fun _ => .inl ⟨v, rest, hpending⟩⟩
    · exact ⟨rfl, absurd rfl, absurd rfl, fun _ => .inl ⟨i, b, rest, hpending⟩, absurd rfl⟩
  · rcases sequencerTurn_cases hseq with rfl | ⟨hbusy, i, hdecode, hrun⟩ | rfl
    · exact ⟨rfl, absurd rfl, absurd rfl, absurd rfl, absurd rfl⟩
    · have hshell := sameShell_exec hrun
      refine ⟨hshell.params, absurd hshell.cfg, absurd hshell.inLen, absurd hshell.inBuf, fun hne => .inr (.inr ⟨hbusy, ?_⟩)⟩
      exact (exec_value_ne hrun hne).imp (by rintro rfl; exact hdecode) (by rintro rfl; exact hdecode)
    · exact ⟨rfl, absurd rfl, absurd rfl, absurd rfl, absurd rfl⟩
  · exact ⟨rfl, fun _ => .inr ⟨rest, hpending⟩, fun _ => .inr ⟨rest, hpending⟩, fun _ => .inr ⟨rest, hpending⟩,
      fun _ => .inr (.inl ⟨rest, hpending⟩)⟩

/-! ### The state after reset (R42) -/

theorem lookup_seedDict (b : Byte) : seedDict.lookup [b] = some b.toNat := by
  rw [seedDict_eq, dictOf_lookup nodup_seedStrings (mem_seedStrings b), idxOf_seedStrings]

theorem lookup_seedInv (b : Byte) : seedInv.lookup b.toNat = some [b] := by
  rw [seedInv_eq, invOf_lookup, getElem?_seedStrings b.isLt, BitVec.ofNat_toNat, BitVec.setWidth_eq]

theorem reset_freqOf (b : Byte) : State.reset.freqOf b = 0 := Vector.getElem_replicate _

theorem reset_codeOf (b : Byte) : State.reset.codeOf b = none := Vector.getElem_replicate _

/-- Settles O13, row by row of R42. -/
theorem resetStateValues : Obligations.ResetStateValues := by
  unfold Obligations.ResetStateValues
  have hdictLen : seedDict.length = 256 := by rw [seedDict_eq, length_dictOf, length_seedStrings]
  have hinvLen : seedInv.length = 256 := by rw [seedInv_eq, length_invOf, length_seedStrings]
  exact ⟨rfl, rfl, rfl, rfl, rfl, rfl, rfl, rfl, rfl, reset_freqOf, rfl, rfl, rfl, reset_codeOf, rfl, rfl, rfl, rfl, rfl,
    lookup_seedDict, hdictLen, lookup_seedInv, hinvLen, rfl, rfl, rfl, rfl, rfl⟩

/-- Settles O58: the reset block is cleared, and both dictionaries are the seed. -/
theorem invariantsAtReset : Obligations.InvariantsAtReset := by
  unfold Obligations.InvariantsAtReset
  exact ⟨inv_of_cleared rfl rfl rfl rfl rfl rfl, dictInv_of_seed seedDict_eq seedInv_eq, .nil, .nil⟩

end Sys2Proof.Machine
end

section
/-! SUPPORT. Proofs of the statements of 30_encoding.md: the decoder against the encoder on every value written to CMD (R70, R71,
R90), the serialized widths (R72) and the hexadecimal digits (R75, R76). -/

namespace Sys2Proof

/-! ### Command words (R70, R71, R90) -/

@[simp] theorem Instr.wellFormed_eq_true (i : Instr) : i.wellFormed = true := by cases i <;> rfl

/-- The law of `Laws.CommandWordLegal` for every command. -/
theorem commandWordLegal : ∀ i, Laws.CommandWordLegal.Statement i
  | .iwcSer => Laws.CommandWordLegal.iwcSer
  | .iwcDes => Laws.CommandWordLegal.iwcDes
  | .iwcWidth => Laws.CommandWordLegal.iwcWidth
  | .hufEnc => Laws.CommandWordLegal.hufEnc
  | .hufDec => Laws.CommandWordLegal.hufDec
  | .lzwEnc => Laws.CommandWordLegal.lzwEnc
  | .lzwDec => Laws.CommandWordLegal.lzwDec

@[simp] theorem decodeCommand_encodeWrite (i : Instr) : decodeCommand (encodeWrite i) = .ok i := by
  cases i <;> rfl

theorem decodeCommand_zero {v : Word} (h : v.toNat = 0) : decodeCommand v = .error .opZero := by
  obtain rfl : v = 0#64 := BitVec.eq_of_toNat_eq h
  rfl

/-- The opcode map has no hole: each of the values 1 to 7 is some command's word (R71). -/
theorem exists_eq_encodeWrite {v : Word} (hpos : 1 ≤ v.toNat) (hle : v.toNat ≤ 7) : ∃ i, v = encodeWrite i := by
  have hvalues : v.toNat = 1 ∨ v.toNat = 2 ∨ v.toNat = 3 ∨ v.toNat = 4 ∨ v.toNat = 5 ∨ v.toNat = 6 ∨ v.toNat = 7 := by omega
  rcases hvalues with h | h | h | h | h | h | h
  · exact ⟨.iwcSer, BitVec.eq_of_toNat_eq h⟩
  · exact ⟨.iwcDes, BitVec.eq_of_toNat_eq h⟩
  · exact ⟨.iwcWidth, BitVec.eq_of_toNat_eq h⟩
  · exact ⟨.hufEnc, BitVec.eq_of_toNat_eq h⟩
  · exact ⟨.hufDec, BitVec.eq_of_toNat_eq h⟩
  · exact ⟨.lzwEnc, BitVec.eq_of_toNat_eq h⟩
  · exact ⟨.lzwDec, BitVec.eq_of_toNat_eq h⟩

/-- Every value written to CMD is a command's word or is rejected, by the four ranges of R90. -/
theorem eq_encodeWrite_or_rejected (v : Word) : (∃ i, v = encodeWrite i) ∨ ∃ r, decodeCommand v = .error r := by
  by_cases hwide : 256 ≤ v.toNat
  · exact .inr ⟨_, decodeCommand_wide v hwide⟩
  by_cases hreserved : 8 ≤ v.toNat
  · exact .inr ⟨_, decodeCommand_reserved v (by omega) hreserved⟩
  by_cases hzero : v.toNat = 0
  · exact .inr ⟨_, decodeCommand_zero hzero⟩
  · exact .inl (exists_eq_encodeWrite (by omega) (by omega))

/-- Settles O2: a value that decodes is some command's word, and each word decodes to its own command. -/
theorem decodeInvertsEncodeOnAllWords : Obligations.DecodeInvertsEncodeOnAllWords := by
  unfold Obligations.DecodeInvertsEncodeOnAllWords
  intro v i
  constructor
  · intro h
    rcases eq_encodeWrite_or_rejected v with ⟨j, rfl⟩ | ⟨r, hr⟩
    · rw [decodeCommand_encodeWrite] at h
      cases h
      exact ⟨i.wellFormed_eq_true, rfl⟩
    · rw [hr] at h
      cases h
  · rintro ⟨-, rfl⟩
    exact decodeCommand_encodeWrite i

/-- Settles O3, range by range. -/
theorem illegalWordsRejectedByName : Obligations.IllegalWordsRejectedByName := by
  unfold Obligations.IllegalWordsRejectedByName
  intro v
  refine ⟨decodeCommand_wide v, decodeCommand_reserved v, decodeCommand_zero, fun hpos hle => ?_⟩
  obtain ⟨i, rfl⟩ := exists_eq_encodeWrite hpos hle
  exact ⟨(commandWordLegal i).1, i, decodeCommand_encodeWrite i⟩

/-! ### Words of the opcode table (R71) -/

theorem decodeTableWord_encode (i : Instr) : decodeTableWord 8 (encode i).toNat = some i := by
  cases i <;> rfl

theorem toNat_tableLatch_eight {w : Nat} (h : w < 256) : (tableLatch 8 w).toNat = w := by
  rw [tableLatch, BitVec.toNat_ofNat]
  omega

theorem decodeTableWord_eq_none {nbits w : Nat} {r : Decode.Reject} (h : decodeCommand (tableLatch nbits w) = .error r) :
    decodeTableWord nbits w = none := by
  rw [decodeTableWord, h]

/-- Settles O1: the seven words are the encoder's, and the decoder rejects the latched value of every other. -/
theorem opcodeMapDecodes : Obligations.OpcodeMapDecodes := by
  unfold Obligations.OpcodeMapDecodes
  refine ⟨decodeTableWord_encode .iwcSer, decodeTableWord_encode .iwcDes, decodeTableWord_encode .iwcWidth,
    decodeTableWord_encode .hufEnc, decodeTableWord_encode .hufDec, decodeTableWord_encode .lzwEnc,
    decodeTableWord_encode .lzwDec, fun w hw hillegal => ?_⟩
  have hlatch := toNat_tableLatch_eight hw
  rcases hillegal with hzero | hreserved
  · exact decodeTableWord_eq_none (decodeCommand_zero (hlatch.trans hzero))
  · exact decodeTableWord_eq_none (decodeCommand_reserved _ (by omega) (by omega))

end Sys2Proof

namespace Sys2Proof.Machine

/-! ### Serialized widths (R72) -/

/-- Settles O17, row by row of R72. -/
theorem serializedWidthTable : Obligations.SerializedWidthTable := by
  unfold Obligations.SerializedWidthTable
  exact ⟨⟨rfl, rfl, rfl⟩, ⟨rfl, rfl, rfl⟩, ⟨rfl, rfl, rfl⟩, ⟨rfl, rfl, rfl⟩, ⟨rfl, rfl, rfl⟩, ⟨rfl, rfl, rfl⟩, ⟨rfl, rfl, rfl⟩,
    ⟨rfl, rfl, rfl⟩⟩

/-! ### Hexadecimal digits (R75, R76) -/

theorem hexDigit_decimal (upper : Bool) {n : Nat} (h : n ≤ 9) : hexDigit upper n = BitVec.ofNat 8 (0x30 + n) := if_pos h

theorem hexDigit_lower (k : Nat) : hexDigit false (k + 10) = BitVec.ofNat 8 (0x61 + k) := by simp [hexDigit]

theorem hexDigit_upper (k : Nat) : hexDigit true (k + 10) = BitVec.ofNat 8 (0x41 + k) := by simp [hexDigit]

/-- A byte in a range of the digit table stands at the range's start plus its offset. -/
theorem eq_ofNat_add_sub {c : Byte} {start : Nat} (h : start ≤ c.toNat) : c = BitVec.ofNat 8 (start + (c.toNat - start)) := by
  rw [Nat.add_sub_cancel' h, BitVec.ofNat_toNat, BitVec.setWidth_eq]

/-- `HexVal` reads the digits alone: each of its three ranges is a run of digits. -/
theorem eq_hexDigit_of_hexVal {c : Byte} {n : Nat} (h : hexVal c = some n) : c = hexDigit false n ∨ c = hexDigit true n := by
  simp only [hexVal] at h
  split at h
  · next hdecimal =>
    cases h
    exact .inl ((eq_ofNat_add_sub hdecimal.1).trans (hexDigit_decimal false (by omega)).symm)
  split at h
  · next hlower =>
    cases h
    exact .inl ((eq_ofNat_add_sub hlower.1).trans (hexDigit_lower _).symm)
  split at h
  · next hupper =>
    cases h
    exact .inr ((eq_ofNat_add_sub hupper.1).trans (hexDigit_upper _).symm)
  · cases h

/-- Settles O18: the two lists are finite, `HexVal` answers on digits alone (`eq_hexDigit_of_hexVal`) and reads each digit back
(`hexVal_hexDigit`). -/
theorem hexDigitAlphabet : Obligations.HexDigitAlphabet := by
  unfold Obligations.HexDigitAlphabet
  refine ⟨by decide, by decide, fun c n => ⟨fun h => ⟨hexVal_lt h, eq_hexDigit_of_hexVal h⟩, ?_⟩⟩
  rintro ⟨hn, rfl | rfl⟩
  · exact hexVal_hexDigit false hn
  · exact hexVal_hexDigit true hn

end Sys2Proof.Machine
end

section
/-! SUPPORT. Proofs of the statements of 40_command_interface.md: the host's accesses and the turns of a step (R100 to R106, R108, R113),
the normal end of a command (R107), and what every command ends with and leaves alone (R109 to R111). -/

namespace Sys2Proof.Machine

/-! ### The host's turn (R113) -/

theorem HostAccess.allowedWhileBusy_iff (a : HostAccess) : a.allowedWhileBusy = true ↔ a = .rd 2 := by
  cases a <;> simp [HostAccess.allowedWhileBusy]

theorem hostTurn_of_idle {s : State} (hidle : s.busy = false) (a : HostAccess) : hostTurn a s = .next (s.access a) := by
  simp [hostTurn, hidle]

theorem hostTurn_readStatus (s : State) : hostTurn (.rd 2) s = .next (s.readReg 2) := by
  simp [hostTurn, HostAccess.allowedWhileBusy, State.access]

theorem hostTurn_of_busy {s : State} (hbusy : s.busy = true) {a : HostAccess} (ha : a ≠ .rd 2) :
    hostTurn a s = .refused .hostAccessWhileBusy := by
  have hrefused : a.allowedWhileBusy = false := Bool.eq_false_iff.mpr fun h => ha (a.allowedWhileBusy_iff.mp h)
  simp [hostTurn, hbusy, hrefused]

/-- Of the five values the invariant allows STATUS, one has BUSY set. -/
theorem State.Inv.status_of_busy {s : State} (hs : s.Inv) (hbusy : s.busy = true) : s.status = 1#4 := by
  have only : ∀ x ∈ [0#4, 1#4, 2#4, 6#4, 10#4], x.getLsbD 0 = true → x = 1#4 := by decide
  exact only s.status hs.status hbusy

/-- Settles O12: `RD 2` is the one access allowed, and it returns the invariant's one busy STATUS. -/
theorem busyAccessesRefused : Obligations.BusyAccessesRefused := by
  unfold Obligations.BusyAccessesRefused
  intro s hs hbusy
  refine ⟨fun a ha => hostTurn_of_busy hbusy ha, ?_⟩
  have hvalue : s.regValue 2 = 1#64 := congrArg (BitVec.setWidth 64) (hs.status_of_busy hbusy)
  rw [hostTurn_readStatus, State.readReg, hvalue]

/-! ### Register accesses (R101, R102, R105) -/

theorem State.regValue_of_seven_le (s : State) {n : Nat} (h : 7 ≤ n) : s.regValue n = 0#64 := by
  obtain ⟨k, rfl⟩ := Nat.exists_eq_add_of_le' h
  rfl

theorem State.writeReg_of_unwritable (s : State) {n : Nat} (v : Word) (h0 : n ≠ 0) (h1 : n ≠ 1) (h4 : n ≠ 4) (h6 : n ≠ 6) :
    s.writeReg n v = s := by
  match n with
  | 0 | 1 | 4 | 6 => contradiction
  | 2 | 3 | 5 | _ + 7 => rfl

/-- Settles O9, register by register. -/
theorem registerReadValues : Obligations.RegisterReadValues := by
  unfold Obligations.RegisterReadValues
  refine ⟨fun s n hallowed => ⟨s.regValue n, ?_, ?_, ?_, ?_, ?_, ?_, ?_, ?_, s.regValue_of_seven_le⟩, ?_, ?_⟩
  · rcases hallowed with hidle | rfl
    · exact hostTurn_of_idle hidle _
    · exact hostTurn_readStatus s
  · rintro rfl; exact BitVec.toNat_setWidth_of_le (by decide)
  · rintro rfl; rfl
  · rintro rfl; exact BitVec.toNat_setWidth_of_le (by decide)
  · rintro rfl; exact BitVec.toNat_setWidth_of_le (by decide)
  · rintro rfl; rfl
  · rintro rfl; rfl
  · rintro rfl; rfl
  · exact fun s n hbusy hn => hostTurn_of_busy hbusy (by simpa using hn)
  · exact hostTurn_of_idle rfl _

/-- Settles O8, register by register. -/
theorem registerWriteEffects : Obligations.RegisterWriteEffects := by
  unfold Obligations.RegisterWriteEffects
  intro s n v hidle
  refine ⟨s.writeReg n v, hostTurn_of_idle hidle _, ?_, ?_, ?_, ?_, s.writeReg_of_unwritable v⟩
  · rintro rfl; rfl
  · rintro rfl; exact ⟨rfl, rfl, fun hwide => ⟨_, decodeCommand_wide v hwide⟩⟩
  · rintro rfl; rfl
  · rintro rfl; rfl

/-- Settles O7: register 1's write is `State.start`, whose fields are as R105 says. -/
theorem commandStartWrites : Obligations.CommandStartWrites := by
  unfold Obligations.CommandStartWrites
  intro s v hidle
  exact ⟨s.start v, hostTurn_of_idle hidle _, rfl, packStatus_busy .., packStatus_done .., packStatus_err .., packStatus_ovf ..,
    rfl, rfl, rfl, rfl, rfl, rfl, rfl, rfl, rfl, rfl, rfl, rfl⟩

/-! ### Byte accesses (R103, R104) -/

theorem State.writeIn_of_beyond {s : State} {i : Nat} (h : beyond s.params.capIn (i + 1) = true) (b : Byte) :
    s.writeIn i b = s := if_pos h

theorem State.writeIn_of_fits {s : State} {i : Nat} (h : beyond s.params.capIn (i + 1) = false) (b : Byte) :
    s.writeIn i b = { s with inBuf := Memory.write s.inBuf i b } := by
  simp [State.writeIn, h]

theorem State.inByte_write (s : State) (i : Nat) (b : Byte) (j : Nat) :
    State.inByte { s with inBuf := Memory.write s.inBuf i b } j = if j = i then b else s.inByte j := by
  by_cases h : j = i <;> simp [State.inByte, Memory.read_write, h]

/-- Below OUT_LEN a stored byte is the byte read. -/
theorem State.outByte_of_stored {s : State} {i : Nat} {c : Byte} (hi : i < s.outLen.toNat) (hc : Memory.read s.outBuf i = some c) :
    s.outByte i = c := by
  rw [State.outByte, if_pos hi, hc]

/-- Settles O10: below CAP_IN the write is one of the byte memory, elsewhere it does nothing. -/
theorem inputByteWriteEffect : Obligations.InputByteWriteEffect := by
  unfold Obligations.InputByteWriteEffect
  intro s i b hidle
  refine ⟨s.writeIn i b, hostTurn_of_idle hidle _, ?_, fun hfits => ?_, ?_⟩
  · unfold State.writeIn
    split <;> rfl
  · rw [State.writeIn_of_fits (beyond_eq_false.mpr hfits)]
    exact ⟨(s.inByte_write i b i).trans (if_pos rfl), fun j hj => (s.inByte_write i b j).trans (if_neg hj)⟩
  · rintro ⟨c, hc, hle⟩
    refine State.writeIn_of_beyond ?_ b
    rw [Option.mem_def.mp hc, beyond_some]
    omega

/-- Settles O11: the byte read is `State.outByte`. -/
theorem outputByteReadValue : Obligations.OutputByteReadValue := by
  unfold Obligations.OutputByteReadValue
  intro s i hidle
  exact ⟨s.outByte i, hostTurn_of_idle hidle _, fun _ hi hc => State.outByte_of_stored hi hc, fun _ _ hend => hend.bytes i⟩

/-! ### The sequencer's turn (R106, R108) -/

theorem sequencerTurn_of_decoded {s : State} {i : Instr} (hbusy : s.busy = true) (hdecode : decodeCommand s.latch = .ok i) :
    sequencerTurn s = exec i s := by
  rw [sequencerTurn, if_pos hbusy, hdecode]

theorem sequencerTurn_of_rejected {s : State} {r : Decode.Reject} (hbusy : s.busy = true)
    (hdecode : decodeCommand s.latch = .error r) : sequencerTurn s = .next (s.raiseError .illegalCommand) := by
  rw [sequencerTurn, if_pos hbusy, hdecode]

theorem sequencerTurn_of_idle {s : State} (hidle : s.busy = false) : sequencerTurn s = .next s := by
  simp [sequencerTurn, hidle]

theorem State.start_busy (s : State) (v : Word) : (s.start v).busy = true := packStatus_busy ..

theorem decodeCommand_rejects {v : Word} (h : v.toNat = 0 ∨ 8 ≤ v.toNat) : ∃ r, decodeCommand v = .error r := by
  rcases h with hzero | hreserved
  · exact ⟨_, decodeCommand_zero hzero⟩
  · by_cases hwide : 256 ≤ v.toNat
    · exact ⟨_, decodeCommand_wide v hwide⟩
    · exact ⟨_, decodeCommand_reserved v (by omega) hreserved⟩

/-- Settles O6: the decoder rejects the latched value, and the error exit writes the report alone. -/
theorem illegalCommandReported : Obligations.IllegalCommandReported := by
  unfold Obligations.IllegalCommandReported
  intro s v hidle hillegal
  obtain ⟨r, hdecode⟩ := decodeCommand_rejects hillegal
  exact ⟨hostTurn_of_idle hidle _, _, sequencerTurn_of_rejected (s.start_busy v) hdecode,
    rfl, rfl, rfl, rfl, rfl, rfl, rfl, rfl, rfl, rfl⟩

/-! ### The turns of a step (R100) -/

theorem step_of_no_turn {s : State} (h : s.pending = []) : step s = sequencerTurn s := by
  rw [step, h]

theorem step_of_turn {s : State} {turn : Turn} {rest : List Turn} (h : s.pending = turn :: rest) :
    step s = takeTurn turn { s with pending := rest } := by
  rw [step, h]

theorem decodeCommand_of_decodeTableWord {nbits w : Nat} {i : Instr} (h : decodeTableWord nbits w = some i) :
    decodeCommand (tableLatch nbits w) = .ok i := by
  cases hdecode : decodeCommand (tableLatch nbits w) with
  | ok j => rw [decodeTableWord, hdecode] at h; exact congrArg Except.ok (Option.some.inj h)
  | error r => rw [decodeTableWord_eq_none hdecode] at h; cases h

/-- Settles O4: the step is the sequencer's turn, pending or not, and that runs the latched command or passes. -/
theorem stepRunsLatchedCommand : Obligations.StepRunsLatchedCommand := by
  unfold Obligations.StepRunsLatchedCommand
  refine ⟨fun s i hbusy hdecode => ⟨fun h => ?_, fun rest h => ?_⟩, fun s w i hword => ?_,
    fun s hidle => ⟨fun h => ?_, fun rest h => ?_⟩⟩
  · exact (step_of_no_turn h).trans (sequencerTurn_of_decoded hbusy hdecode)
  · exact (step_of_turn h).trans (sequencerTurn_of_decoded hbusy hdecode)
  · have hturn : step (s.withFetchWord 8 w) = sequencerTurn (s.start (tableLatch 8 w)) :=
      step_of_turn (s := s.withFetchWord 8 w) (rest := s.pending) rfl
    exact hturn.trans (sequencerTurn_of_decoded (s.start_busy _) (decodeCommand_of_decodeTableWord hword))
  · exact (step_of_no_turn h).trans (sequencerTurn_of_idle hidle)
  · exact (step_of_turn h).trans (sequencerTurn_of_idle hidle)

/-- Settles O5, turn by turn. -/
theorem stepTakesHostTurnOrReset : Obligations.StepTakesHostTurnOrReset := by
  unfold Obligations.StepTakesHostTurnOrReset
  exact fun s rest => ⟨fun a h => step_of_turn h, fun h => step_of_turn h⟩

/-! ### The normal end of a command (R107) -/

theorem State.outBuf_finish_of_not_fits {s : State} {out : ByteString} (h : ¬s.outputFits out.length) (ovf : Bool) :
    (s.finish out ovf).outBuf = s.outBuf := by
  rw [State.finish, if_pos (not_outputFits_iff.mp h), State.raiseError_outBuf]

theorem State.read_finish_beyond {s : State} {out : ByteString} (h : s.outputFits out.length) (ovf : Bool) {a : Nat}
    (ha : out.length ≤ a) : Memory.read (s.finish out ovf).outBuf a = Memory.read s.outBuf a := by
  rw [State.finish_of_fits (outputFits_iff.mp h), State.complete_outBuf, Memory.read_writeBytes, if_neg (by omega)]

/-- Settles O15: the two ends of `Finish` (`finish_ends`), the bytes of OUT beside the output, and the frame. -/
theorem finishWritesOutput : Obligations.FinishWritesOutput := by
  unfold Obligations.FinishWritesOutput
  intro s out ovf
  obtain ⟨hends, hfails⟩ := finish_ends s out ovf
  refine ⟨fun hfits => ?_, fun hover => ⟨hfails hover, State.outBuf_finish_of_not_fits hover ovf⟩,
    sameShell_finish s out ovf, finish_other s out ovf⟩
  obtain ⟨hdone, hbusy, herr, hovf⟩ := (hends hfits).flags
  exact ⟨hends hfits, hdone, hbusy, herr, hovf, fun _ ha => State.read_finish_beyond hfits ovf ha⟩

/-! ### How a command ends (R110) -/

theorem EndedWith.not_err {t : State} {out : ByteString} {ovf : Bool} (h : EndedWith t out ovf) : t.err = false := by
  obtain ⟨-, -, herr, -⟩ := h.flags
  exact herr

theorem FailedWith.err {t : State} {e : ErrKind} (h : FailedWith t e) : t.err = true := by
  obtain ⟨-, -, herr, -⟩ := h.flags
  exact herr

theorem exec_answers_next (i : Instr) (s : State) : ∃ t, exec i s = .next t := by
  obtain ⟨t, ht, -⟩ := conclude_next (ctlOf_ends i s)
  exact ⟨t, (exec_eq i s).trans ht⟩

/-- Settles O47: the phases' end is `Finish` or `raise`, and both leave DONE and the sequencer idle. -/
theorem everyCommandEnds : Obligations.EveryCommandEnds := by
  unfold Obligations.EveryCommandEnds
  intro i s
  obtain ⟨t, h⟩ := exec_answers_next i s
  refine ⟨t, h, ?_⟩
  rcases exec_ended_or_failed h with ⟨out, ovf, hend⟩ | ⟨e, hfail⟩
  · obtain ⟨hdone, hbusy, -⟩ := hend.flags
    exact ⟨hdone, hbusy, hend.phase, .inl ⟨out, ovf, hend⟩⟩
  · obtain ⟨hdone, hbusy, -⟩ := hfail.flags
    exact ⟨hdone, hbusy, hfail.phase, .inr ⟨e, hfail⟩⟩

/-- What the end of a command does to OUT (R107, 60_exceptions.md R236): an error leaves it, a normal end stores its output and leaves
what lies beyond. -/
theorem exec_out_cases {i : Instr} {s t : State} (h : exec i s = .next t) :
    (∃ e, FailedWith t e ∧ t.outBuf = s.outBuf) ∨
    ∃ out ovf, EndedWith t out ovf ∧ ∀ a, out.length ≤ a → Memory.read t.outBuf a = Memory.read s.outBuf a := by
  rcases exec_cases h with ⟨s', out, ovf, -, rfl, hshell⟩ | ⟨s', e, -, rfl, hshell, -⟩
  · obtain ⟨hends, hfails⟩ := finish_ends s' out ovf
    rw [← shellOf_outBuf hshell]
    by_cases hfits : s'.outputFits out.length
    · exact .inr ⟨out, ovf, hends hfits, fun _ ha => State.read_finish_beyond hfits ovf ha⟩
    · exact .inl ⟨_, hfails hfits, State.outBuf_finish_of_not_fits hfits ovf⟩
  · exact .inl ⟨e, failedWith_raiseError s' e, (State.raiseError_outBuf s' e).trans (shellOf_outBuf hshell)⟩

theorem exec_out_of_err {i : Instr} {s t : State} (h : exec i s = .next t) (herr : t.err = true) :
    t.outLen = 0#64 ∧ t.outBuf = s.outBuf := by
  rcases exec_out_cases h with ⟨e, hfail, hout⟩ | ⟨out, ovf, hend, -⟩
  · exact ⟨hfail.outLen, hout⟩
  · exact absurd (hend.not_err.symm.trans herr) Bool.false_ne_true

theorem exec_out_of_no_err {i : Instr} {s t : State} (h : exec i s = .next t) (herr : t.err = false) :
    ∃ out, EndedWith t out t.ovf ∧ ∀ a, out.length ≤ a → Memory.read t.outBuf a = Memory.read s.outBuf a := by
  rcases exec_out_cases h with ⟨e, hfail, -⟩ | ⟨out, ovf, hend, hbeyond⟩
  · exact absurd (herr.symm.trans hfail.err) Bool.false_ne_true
  · obtain ⟨-, -, -, rfl⟩ := hend.flags
    exact ⟨out, hend, hbeyond⟩

/-- Settles O53, by the two ends of a command. -/
theorem memoryFrame : Obligations.MemoryFrame := by
  unfold Obligations.MemoryFrame
  intro i s t h
  refine ⟨fun a => by rw [(sameShell_exec h).inBuf], fun herr a => by rw [(exec_out_of_err h herr).2], fun herr => ?_⟩
  obtain ⟨out, hend, hbeyond⟩ := exec_out_of_no_err h herr
  exact ⟨out, hend, hend.stored, hbeyond⟩

/-! ### What a command leaves alone (R111) -/

/-- The working state of R31 to R38: what the phases work on and the end of a command leaves alone. -/
def State.work (s : State) : HufState × LzwState × ByteString := (s.huf, s.lzw, s.outAcc)

theorem work_finish (s : State) (out : ByteString) (ovf : Bool) : (s.finish out ovf).work = s.work := by
  obtain ⟨-, hhuf, hlzw, hacc, -⟩ := finish_other s out ovf
  rw [State.work, State.work, hhuf, hlzw, hacc]

/-- What a command's phases keep of the working state, the command keeps. -/
theorem exec_keeps_work {i : Instr} {s t : State} {α : Type} (f : HufState × LzwState × ByteString → α)
    (hkeep : (ctlOf i s).Keeps (fun u => f u.work) (f s.work)) (h : exec i s = .next t) : f t.work = f s.work := by
  rcases exec_cases h with ⟨s', out, ovf, hctl, rfl, -⟩ | ⟨s', e, hctl, rfl, -⟩ <;> rw [hctl] at hkeep
  · rw [work_finish]
    exact hkeep
  · exact hkeep

theorem exec_iwc_work {i : Instr} {s t : State} (hi : i = .iwcSer ∨ i = .iwcDes ∨ i = .iwcWidth) (h : exec i s = .next t) :
    t.huf = s.huf ∧ t.lzw = s.lzw ∧ t.outAcc = s.outAcc := by
  have hwork := exec_keeps_work id ((ctlOf_iwc_keeps i hi s).map Prod.snd) h
  simpa [State.work] using hwork

/-- HUF.ENC works on FREQ, PQ, MERGES, TREE, CODETAB, TBUF and TREELEN (R31 to R35). -/
theorem exec_hufEnc_work {s t : State} (h : exec .hufEnc s = .next t) :
    t.lzw = s.lzw ∧ t.outAcc = s.outAcc ∧ t.huf.bits = s.huf.bits ∧ t.huf.nodePtr = s.huf.nodePtr := by
  have hwork := exec_keeps_work (fun (huf, lzw, acc) => (lzw, acc, huf.bits, huf.nodePtr))
    ((ctlOf_hufEnc_keeps s).map fun (_, (_, work), _) => work) h
  simpa [State.work] using hwork

/-- HUF.DEC works on TREE, TBUF, TREELEN, BITS, NODEPTR and OUTACC (43_huffman_decoder.md R184). -/
theorem exec_hufDec_work {s t : State} (h : exec .hufDec s = .next t) :
    t.lzw = s.lzw ∧ t.huf.freq = s.huf.freq ∧ t.huf.pq = s.huf.pq ∧ t.huf.merges = s.huf.merges ∧
      t.huf.codeTab = s.huf.codeTab := by
  have hwork := exec_keeps_work (fun (huf, lzw, _) => (lzw, huf.freq, huf.pq, huf.merges, huf.codeTab))
    ((ctlOf_hufDec_keeps s).map fun (_, (_, work), _) => work) h
  simpa [State.work] using hwork

/-- LZW.ENC works on DICT, NEXTCODE, CURRENT and CODES (44_lzw.md R218). -/
theorem exec_lzwEnc_work {s t : State} (h : exec .lzwEnc s = .next t) :
    t.huf = s.huf ∧ t.outAcc = s.outAcc ∧ t.lzw.inv = s.lzw.inv := by
  have hwork := exec_keeps_work (fun (huf, lzw, acc) => (huf, acc, lzw.inv))
    ((ctlOf_lzwEnc_keeps s).map fun ((_, _, huf, _), inv, acc) => (huf, acc, inv)) h
  simpa [State.work] using hwork

/-- LZW.DEC works on INV, NEXTCODE, CURRENT, CODES and OUTACC (44_lzw.md R218). -/
theorem exec_lzwDec_work {s t : State} (h : exec .lzwDec s = .next t) : t.huf = s.huf ∧ t.lzw.dict = s.lzw.dict := by
  have hwork := exec_keeps_work (fun (huf, lzw, _) => (huf, lzw.dict))
    ((ctlOf_lzwDec_keeps s).map fun ((_, _, huf, _), dict) => (huf, dict)) h
  simpa [State.work] using hwork

/-- IWC.DES finishes with the empty output, or raises its error before it writes VALUE (41_integer_word_codec.md R125). -/
theorem ctlOf_iwcDes_sat (s : State) :
    (ctlOf .iwcDes s).Sat (fun _ => False) (fun _ out _ => out = []) (fun u _ => u.value = s.value) := by
  refine guarded_sat (fun _ => ?_) fun _ => rfl
  rw [iwcDesPhases_eq]
  split
  · rfl
  · split <;> rfl

theorem exec_iwcDes_value {s t : State} (h : exec .iwcDes s = .next t) (hne : t.value ≠ s.value) : t.err = false := by
  have hsat := ctlOf_iwcDes_sat s
  rcases exec_cases h with ⟨s', out, ovf, hctl, rfl, -⟩ | ⟨s', e, hctl, rfl, -⟩ <;> rw [hctl] at hsat
  · obtain rfl : out = [] := hsat
    rw [State.finish_of_fits (beyond_zero _)]
    exact (endedWith_complete s' [] ovf).not_err
  · exact absurd hsat hne

/-- Settles O52: the shell, VALUE, the two ends, and each command's working state. -/
theorem commandFrame : Obligations.CommandFrame := by
  unfold Obligations.CommandFrame
  intro i s t h
  refine ⟨sameShell_exec h, fun hne => ?_, fun herr => (exec_out_of_err h herr).1, fun herr => ?_, fun hi => exec_iwc_work hi h,
    ?_, ?_, ?_, ?_⟩
  · rcases exec_value_ne h hne with rfl | rfl
    · exact .inl ⟨rfl, exec_iwcDes_value h hne⟩
    · exact .inr rfl
  · obtain ⟨out, hend, -⟩ := exec_out_of_no_err h herr
    exact ⟨out, hend⟩
  · rintro rfl; exact exec_hufEnc_work h
  · rintro rfl; exact exec_hufDec_work h
  · rintro rfl; exact exec_lzwEnc_work h
  · rintro rfl; exact exec_lzwDec_work h

/-! ### Phases (R109) -/

/-- Settles O57: the phase lists are written in R109's order. -/
theorem phaseOrder : Obligations.PhaseOrder := by
  unfold Obligations.PhaseOrder
  exact fun _ => ⟨rfl, rfl, rfl, rfl⟩

end Sys2Proof.Machine
end

section
/-! SUPPORT. Proofs of the statements of 41_integer_word_codec.md: `Ser` and `Des` byte by byte (R121, R122), the laws of the serialized
word (R127), and the three commands of IWC (R124 to R126). -/

namespace Sys2Proof.Machine

/-! ### Widths -/

theorem eight_dvd_of_width {w : Nat} (hw : w = 8 ∨ w = 16 ∨ w = 32 ∨ w = 64) : 8 ∣ w := by
  rcases hw with rfl | rfl | rfl | rfl <;> decide

theorem pow_serWidth_raw {w : Nat} (hw : 8 ∣ w) : 256 ^ serWidth w .raw = 2 ^ w := by
  rw [serWidth, show 256 = 2 ^ 8 from rfl, ← pow_mul, Nat.mul_div_cancel' hw]

theorem pow_serWidth_hex {w : Nat} (hw : 8 ∣ w) : 16 ^ serWidth w .hex = 2 ^ w := by
  rw [serWidth, show 16 = 2 ^ 4 from rfl, ← pow_mul, Nat.mul_div_cancel' (Nat.dvd_trans (by decide) hw)]

/-! ### The bytes of `Ser` (R121) -/

theorem getElem?_ser_raw (upper : Bool) (w v : Nat) {i : Nat} (hi : i < serWidth w .raw) :
    (ser upper w .raw v)[i]? = some (BitVec.ofNat 8 (v / 2 ^ (8 * (w / 8 - 1 - i)) % 256)) := by
  rw [ser, List.getElem?_map, getElem?_digits 256 _ v i hi, pow_mul]
  rfl

theorem getElem?_ser_hex (upper : Bool) (w v : Nat) {i : Nat} (hi : i < serWidth w .hex) :
    (ser upper w .hex v)[i]? = some (hexDigit upper (v / 2 ^ (4 * (w / 4 - 1 - i)) % 16)) := by
  rw [ser, List.getElem?_map, getElem?_digits 16 _ v i hi, pow_mul]
  rfl

/-- Settles O19, mode by mode. -/
theorem serializedDigits : Obligations.SerializedDigits := by
  unfold Obligations.SerializedDigits
  intro upper w m v _ _
  refine ⟨length_ser upper w m v, fun i hi => ?_⟩
  cases m with
  | raw => exact getElem?_ser_raw upper w v hi
  | hex => exact getElem?_ser_hex upper w v hi

/-! ### The value of `Des` (R122) -/

theorem des_of_length_ne {w : Nat} {m : Mode} {s : ByteString} (h : s.length ≠ serWidth w m) :
    des w m s = .error .lengthMismatch := if_pos h

theorem des_of_length {w : Nat} {m : Mode} {s : ByteString} (h : s.length = serWidth w m) : des w m s = desDigits m s :=
  if_neg (not_not.mpr h)

theorem des_eq_ok {w : Nat} {m : Mode} {s : ByteString} {v : Nat} :
    des w m s = .ok v ↔ s.length = serWidth w m ∧ desDigits m s = .ok v := by
  by_cases h : s.length = serWidth w m
  · simp [des_of_length h, h]
  · simp [des_of_length_ne h, h]

theorem des_hex_of_bad_digit {w : Nat} {s : ByteString} (hlen : s.length = serWidth w .hex) (hbad : ∃ c ∈ s, hexVal c = none) :
    des w .hex s = .error .malformedInput := by
  rw [des_of_length hlen, desDigits, hexVals_eq_none.mpr hbad]

/-- The value of a byte as a hexadecimal digit, 0 where it is none. -/
def digitValue (c : Byte) : Nat := (hexVal c).getD 0

theorem hexVal_eq_digitValue {c : Byte} (h : (hexVal c).isSome) : hexVal c = some (digitValue c) := by
  obtain ⟨n, hn⟩ := Option.isSome_iff_exists.mp h
  simp [digitValue, hn]

/-- A string of digits is read byte by byte. -/
theorem hexVals_of_digits {s : ByteString} (h : ∀ c ∈ s, (hexVal c).isSome) : hexVals s = some (s.map digitValue) := by
  rw [hexVals_eq_some, List.map_map]
  exact List.map_congr_left fun c hc => hexVal_eq_digitValue (h c hc)

theorem desDigits_hex {s : ByteString} (h : ∀ c ∈ s, (hexVal c).isSome) :
    desDigits .hex s = .ok (undigits 16 (s.map digitValue)) := by
  rw [desDigits, hexVals_of_digits h]

/-- `Des` succeeds on strings of digits only. -/
theorem digits_of_desDigits_hex {s : ByteString} {v : Nat} (h : desDigits .hex s = .ok v) : ∀ c ∈ s, (hexVal c).isSome := by
  intro c hc
  by_contra hnone
  have hbad : hexVals s = none := hexVals_eq_none.mpr ⟨c, hc, by simpa using hnone⟩
  rw [desDigits, hbad] at h
  cases h

/-- The value of a byte string, each byte giving one digit, as R122 writes it. -/
theorem undigits_map (base : Nat) {f : Byte → Nat} (hf : f 0#8 = 0) (s : ByteString) :
    undigits base (s.map f) = ((List.range s.length).map fun i => f (s.getD i 0#8) * base ^ (s.length - 1 - i)).sum := by
  have hget (i : Nat) : (s.map f).getD i 0 = f (s.getD i 0#8) := by rw [← s.getD_map 0#8 f, hf]
  simp only [undigits_eq_sum base (s.map f), List.length_map, hget]

theorem des_raw_eq_sum {w : Nat} {s : ByteString} (hlen : s.length = serWidth w .raw) :
    des w .raw s = .ok ((List.range (w / 8)).map fun i => (s.getD i 0#8).toNat * 2 ^ (8 * (w / 8 - 1 - i))).sum := by
  have hlen' : s.length = w / 8 := hlen
  simp only [des_of_length hlen, desDigits, undigits_map 256 (f := BitVec.toNat) rfl, hlen', pow_mul 2 8, show 2 ^ 8 = 256 from rfl]

theorem des_hex_eq_sum {w : Nat} {s : ByteString} (hlen : s.length = serWidth w .hex) (h : ∀ c ∈ s, (hexVal c).isSome) :
    des w .hex s = .ok ((List.range (w / 4)).map fun i => digitValue (s.getD i 0#8) * 16 ^ (w / 4 - 1 - i)).sum := by
  have hlen' : s.length = w / 4 := hlen
  rw [des_of_length hlen, desDigits_hex h, undigits_map 16 (f := digitValue) rfl, hlen']

/-- Settles O20, check by check. -/
theorem deserializedValue : Obligations.DeserializedValue := by
  unfold Obligations.DeserializedValue
  intro w m s hw
  refine ⟨des_of_length_ne, ?_, ?_, ?_, fun v => des_lt (eight_dvd_of_width hw)⟩
  · rintro hlen rfl
    exact des_raw_eq_sum hlen
  · rintro hlen rfl hbad
    exact des_hex_of_bad_digit hlen hbad
  · rintro hlen rfl hdigits
    exact des_hex_eq_sum hlen hdigits

/-! ### The laws of the serialized word (R127) -/

/-- A raw string is the digits of its value in base 256. -/
theorem ser_raw_of_des {upper : Bool} {w v : Nat} {s : ByteString} (h : des w .raw s = .ok v) : ser upper w .raw v = s := by
  obtain ⟨hlen, hval⟩ := des_eq_ok.mp h
  cases hval
  have hlt : ∀ d ∈ s.map BitVec.toNat, d < 256 := by simpa using fun (b : Byte) _ => b.isLt
  have hread := digits_undigits (by decide) hlt
  rw [List.length_map, hlen] at hread
  rw [ser, hread, List.map_map]
  exact (List.map_congr_left fun b _ => by simp).trans s.map_id

/-- A hexadecimal string is the digits of its value in base 16, up to the case of its letters. -/
theorem ser_hex_of_des {w v : Nat} {s : ByteString} (h : des w .hex s = .ok v) : ser false w .hex v = s.map lowerDigit := by
  obtain ⟨hlen, hval⟩ := des_eq_ok.mp h
  have hdigits := digits_of_desDigits_hex hval
  rw [desDigits_hex hdigits] at hval
  cases hval
  have hlt : ∀ d ∈ s.map digitValue, d < 16 := by
    simpa using fun c hc => hexVal_lt (hexVal_eq_digitValue (hdigits c hc))
  have hread := digits_undigits (by decide) hlt
  rw [List.length_map, hlen] at hread
  rw [ser, hread, List.map_map]
  exact List.map_congr_left fun c hc => hexDigit_lowerDigit c _ (hexVal_eq_digitValue (hdigits c hc))

/-- `Ser` is injective on words, since `Des` reads each back. -/
theorem ser_inj {upper : Bool} {w : Nat} (hw : 8 ∣ w) {m : Mode} {v u : Nat} (hv : v < 2 ^ w) (hu : u < 2 ^ w)
    (h : ser upper w m v = ser upper w m u) : v = u := by
  have hread := des_ser upper hw m hv
  rw [h, des_ser upper hw m hu] at hread
  exact (Except.ok.inj hread).symm

/-- Settles O21, law by law. -/
theorem wordSerializerLaws : Obligations.WordSerializerLaws := by
  unfold Obligations.WordSerializerLaws
  intro w hw m
  have hdvd := eight_dvd_of_width hw
  refine ⟨fun v hv => ⟨length_ser .., des_ser false hdvd m hv⟩, fun s v h => ⟨?_, ?_⟩, fun v u => ser_inj hdvd⟩
  · rintro rfl; exact ser_raw_of_des h
  · rintro rfl; exact ser_hex_of_des h

/-! ### The all-zero and the all-one word -/

theorem digits_zero (base n : Nat) : digits base n 0 = List.replicate n 0 := by
  induction n with
  | zero => rfl
  | succ n ih => simp [digits, ih, List.replicate_succ]

theorem undigits_replicate_pred {base : Nat} (hb : 0 < base) (n : Nat) :
    undigits base (List.replicate n (base - 1)) = base ^ n - 1 := by
  have hsum : undigits base (List.replicate n (base - 1)) + 1 = base ^ n := by
    induction n with
    | zero => rfl
    | succ n ih =>
      rw [List.replicate_succ, undigits, List.length_replicate, Nat.add_assoc, ih, ← Nat.succ_mul, Nat.succ_eq_add_one,
        Nat.sub_add_cancel hb, Nat.pow_succ']
  omega

theorem digits_pow_pred {base : Nat} (hb : 0 < base) (n : Nat) :
    digits base n (base ^ n - 1) = List.replicate n (base - 1) := by
  have hlt : ∀ d ∈ List.replicate n (base - 1), d < base := fun d hd => by
    have := List.eq_of_mem_replicate hd
    omega
  simpa [undigits_replicate_pred hb] using digits_undigits hb hlt

theorem ser_raw_zero (upper : Bool) (w : Nat) : ser upper w .raw 0 = List.replicate (w / 8) 0x00#8 := by
  rw [ser, digits_zero, List.map_replicate]
  rfl

theorem ser_hex_zero (upper : Bool) (w : Nat) : ser upper w .hex 0 = List.replicate (w / 4) chZero := by
  rw [ser, digits_zero, List.map_replicate]
  rfl

theorem ser_raw_ones (upper : Bool) {w : Nat} (hw : 8 ∣ w) : ser upper w .raw (2 ^ w - 1) = List.replicate (w / 8) 0xFF#8 := by
  rw [ser, ← pow_serWidth_raw hw, digits_pow_pred (by decide), List.map_replicate]
  rfl

theorem hexDigit_fifteen (upper : Bool) : hexDigit upper 15 = if upper then 0x46#8 else 0x66#8 := by
  cases upper <;> rfl

theorem ser_hex_ones (upper : Bool) {w : Nat} (hw : 8 ∣ w) :
    ser upper w .hex (2 ^ w - 1) = List.replicate (w / 4) (if upper then 0x46#8 else 0x66#8) := by
  rw [ser, ← pow_serWidth_hex hw, digits_pow_pred (by decide), List.map_replicate, hexDigit_fifteen]
  rfl

/-! ### IWC.SER (R124) -/

theorem exec_iwcSer (s : State) :
    exec .iwcSer s = .next ((s.enter .sSer).finish (s.serWord s.value.toNat) (s.serOverflows s.value.toNat)) := rfl

theorem EndedWith.toNat_outLen {t : State} {out : ByteString} {ovf : Bool} (h : EndedWith t out ovf) (hlt : out.length < 2 ^ 64) :
    t.outLen.toNat = out.length := by
  rw [h.outLen hlt, BitVec.toNat_ofNat, Nat.mod_eq_of_lt hlt]

theorem EndedWith.outLen_nil {t : State} {ovf : Bool} (h : EndedWith t [] ovf) : t.outLen = 0#64 := h.outLen (by decide)

/-- A serialized word fits OUT_LEN's 64 bits: it is 16 bytes at most (R120). -/
theorem State.length_serWord_lt (s : State) (v : Nat) : (s.serWord v).length < 2 ^ 64 := by
  have := s.sw_le
  rw [State.length_serWord]
  omega

/-- Settles O22: the command is one `Finish` of the serialized word, whose two ends `finish_ends` gives. -/
theorem iwcSerResult : Obligations.IwcSerResult := by
  unfold Obligations.IwcSerResult
  refine ⟨fun s => ?_, fun upper w hw => ?_⟩
  · have hexec := exec_iwcSer s
    obtain ⟨hends, hfails⟩ := finish_ends (s.enter .sSer) (s.serWord s.value.toNat) (s.serOverflows s.value.toNat)
    obtain ⟨hvalue, hwork⟩ := finish_other (s.enter .sSer) (s.serWord s.value.toNat) (s.serOverflows s.value.toNat)
    rw [State.length_serWord] at hends hfails
    refine ⟨_, hexec, fun hfits => ⟨hends hfits, ?_⟩, hfails, sameShell_exec hexec, hvalue, exec_iwc_work (.inl rfl) hexec⟩
    rw [(hends hfits).toNat_outLen (s.length_serWord_lt _), State.length_serWord]
  · have hdvd := eight_dvd_of_width hw
    exact ⟨ser_raw_zero upper w, ser_hex_zero upper w, ser_raw_ones upper hdvd, ser_hex_ones upper hdvd⟩

/-! ### IWC.DES (R125) -/

theorem ctlOf_iwcDes_of_fits {s : State} (hfits : s.inputFits) :
    ctlOf .iwcDes s = runPhases [(.sLen, iwcCheckLength s.input), (.sDigits, iwcDigits s.input)] s := guarded_of_fits hfits _

/-- The phases end as `Des` does: by its error, VALUE unwritten. -/
theorem ctlOf_iwcDes_of_error {s : State} (hfits : s.inputFits) {e : ErrKind} (h : des s.wordBits s.mode s.input = .error e) :
    ∃ u, ctlOf .iwcDes s = .raise u e ∧ u.value = s.value := by
  rw [ctlOf_iwcDes_of_fits hfits, iwcDesPhases_eq]
  by_cases hlen : s.input.length = s.sw
  · rw [des_of_length hlen] at h
    rw [if_neg (not_not.mpr hlen), h]
    exact ⟨_, rfl, rfl⟩
  · rw [des_of_length_ne hlen] at h
    cases h
    rw [if_pos hlen]
    exact ⟨_, rfl, rfl⟩

/-- The phases end as `Des` does: normally, with its value in VALUE and no output. -/
theorem ctlOf_iwcDes_of_ok {s : State} (hfits : s.inputFits) {v : Nat} (h : des s.wordBits s.mode s.input = .ok v) :
    ∃ u, ctlOf .iwcDes s = .finish u [] false ∧ u.value = BitVec.ofNat 64 v := by
  obtain ⟨hlen, hval⟩ : s.input.length = s.sw ∧ _ := des_eq_ok.mp h
  rw [ctlOf_iwcDes_of_fits hfits, iwcDesPhases_eq, if_neg (not_not.mpr hlen), hval]
  exact ⟨_, rfl, rfl⟩

theorem endedWith_finish_nil (s : State) (ovf : Bool) : EndedWith (s.finish [] ovf) [] ovf := by
  rw [State.finish_of_fits (beyond_zero _)]
  exact endedWith_complete s [] ovf

theorem exec_iwcDes_of_error {s t : State} (hfits : s.inputFits) (hexec : exec .iwcDes s = .next t) {e : ErrKind}
    (h : des s.wordBits s.mode s.input = .error e) : FailedWith t e ∧ t.value = s.value := by
  obtain ⟨u, hctl, hvalue⟩ := ctlOf_iwcDes_of_error hfits h
  rw [exec_eq, hctl] at hexec
  cases hexec
  exact ⟨failedWith_raiseError u e, hvalue⟩

theorem exec_iwcDes_of_ok {s t : State} (hfits : s.inputFits) (hexec : exec .iwcDes s = .next t) {v : Nat}
    (h : des s.wordBits s.mode s.input = .ok v) : EndedWith t [] false ∧ t.value = BitVec.ofNat 64 v := by
  obtain ⟨u, hctl, hvalue⟩ := ctlOf_iwcDes_of_ok hfits h
  rw [exec_eq, hctl] at hexec
  cases hexec
  exact ⟨endedWith_finish_nil u false, (finish_other u [] false).1.trans hvalue⟩

theorem exists_des_eq_ok {w : Nat} {m : Mode} {s : ByteString} (hlen : s.length = serWidth w m)
    (h : m = .raw ∨ ∀ c ∈ s, (hexVal c).isSome) : ∃ v, des w m s = .ok v := by
  rw [des_of_length hlen]
  cases m with
  | raw => exact ⟨_, rfl⟩
  | hex => exact ⟨_, desDigits_hex (h.resolve_left (by decide))⟩

/-- The value of `Des` fits VALUE: the width is 64 bits at most. -/
theorem State.des_lt_two_pow_64 {s : State} {x : ByteString} {v : Nat} (h : des s.wordBits s.mode x = .ok v) : v < 2 ^ 64 := by
  refine (des_lt (eight_dvd_widthOf s.cfg) h).trans_le (Nat.pow_le_pow_right (by decide) ?_)
  rcases widthOf_cases s.cfg with hw | hw | hw | hw <;> omega

/-- Settles O23: the command ends as `Des` of its input does (`exec_iwcDes_of_ok`, `exec_iwcDes_of_error`). -/
theorem iwcDesResult : Obligations.IwcDesResult := by
  unfold Obligations.IwcDesResult
  intro s hfits
  obtain ⟨t, hexec⟩ := exec_answers_next .iwcDes s
  refine ⟨t, hexec, ?_, ?_, ?_, sameShell_exec hexec, exec_iwc_work (.inr (.inl rfl)) hexec⟩
  · intro hlen hdigits
    obtain ⟨v, hv⟩ := exists_des_eq_ok (s.length_input.trans hlen) hdigits
    obtain ⟨hend, hvalue⟩ := exec_iwcDes_of_ok hfits hexec hv
    refine ⟨hend, hend.outLen_nil, ?_⟩
    rw [hv, hvalue, BitVec.toNat_ofNat, Nat.mod_eq_of_lt (State.des_lt_two_pow_64 hv)]
  · intro hlen
    exact exec_iwcDes_of_error hfits hexec (des_of_length_ne (s.length_input ▸ hlen))
  · intro hlen hmode hbad
    have hlen' : s.input.length = serWidth s.wordBits s.mode := s.length_input.trans hlen
    refine exec_iwcDes_of_error hfits hexec ?_
    rw [hmode] at hlen' ⊢
    exact des_hex_of_bad_digit hlen' hbad

/-! ### IWC.WIDTH (R126) -/

theorem exec_iwcWidth (s : State) :
    exec .iwcWidth s = .next (State.finish { s.enter .sWidth with value := BitVec.ofNat 64 s.sw } [] false) := rfl

theorem State.sw_of_cfg {s : State} {c : BitVec 3} (h : s.cfg = c) : s.sw = serWidth (widthOf c) (modeOf c) := h ▸ rfl

/-- Settles O24: the command is one `Finish` of the empty output, which always fits. -/
theorem iwcWidthResult : Obligations.IwcWidthResult := by
  unfold Obligations.IwcWidthResult
  intro s
  have hexec := exec_iwcWidth s
  have hend := endedWith_finish_nil { s.enter .sWidth with value := BitVec.ofNat 64 s.sw } false
  obtain ⟨hvalue, -⟩ := finish_other { s.enter .sWidth with value := BitVec.ofNat 64 s.sw } [] false
  refine ⟨_, hexec, hend, hend.outLen_nil, ?_, fun hcfg => ?_, fun hcfg => ?_, sameShell_exec hexec,
    exec_iwc_work (.inr (.inr rfl)) hexec⟩
  · have := s.sw_le
    rw [hvalue, BitVec.toNat_ofNat, Nat.mod_eq_of_lt (by omega)]
    rfl
  · rw [hvalue, State.sw_of_cfg hcfg]
    rfl
  · rw [hvalue, State.sw_of_cfg hcfg]
    rfl

end Sys2Proof.Machine
end

section
/-! SUPPORT. Proofs of the statements of 42_huffman_encoder.md: equal inputs end alike (R154); the empty input (R141); and, on a
non-empty input, what HUF.ENC's counts, tree, codes, tree text and frame are (R142 to R151), each read off what the command has
built (`HencText`). -/

namespace Sys2Proof.Machine

/-! ### Equal inputs end alike (R154) -/

theorem inLen_eq_of_input_eq {s u : State} (h : s.input = u.input) : s.inLen = u.inLen :=
  BitVec.eq_of_toNat_eq (by rw [← s.length_input, h, u.length_input])

/-- Two runs that finish with one output under one CAP_OUT end alike: the output fits in both or in neither (R107). -/
theorem finish_alike {s u : State} (hparams : s.params = u.params) (out : ByteString) (ovf : Bool) :
    (EndedWith (s.finish out ovf) out ovf ∧ EndedWith (u.finish out ovf) out ovf) ∨
      FailedWith (s.finish out ovf) .capacityExceeded ∧ FailedWith (u.finish out ovf) .capacityExceeded := by
  obtain ⟨hends, hfails⟩ := finish_ends s out ovf
  obtain ⟨uends, ufails⟩ := finish_ends u out ovf
  have hiff : s.outputFits out.length ↔ u.outputFits out.length := by rw [State.outputFits, State.outputFits, hparams]
  by_cases hfits : s.outputFits out.length
  · exact .inl ⟨hends hfits, uends (hiff.mp hfits)⟩
  · exact .inr ⟨hfails hfits, ufails (mt hiff.mpr hfits)⟩

/-- Settles O56: the two runs' phases end alike (`ctlOf_alike`), and so do `Finish` and `raise` after them. -/
theorem equalInputsEndAlike : Obligations.EqualInputsEndAlike := by
  unfold Obligations.EqualInputsEndAlike
  intro i s u hcfg hparams hinput hvalue
  have hs := ctlOf_keeps_shell i s
  have hu := ctlOf_keeps_shell i u
  have halike := ctlOf_alike i s u hcfg hparams hinput hvalue (inLen_eq_of_input_eq hinput)
  rw [exec_eq, exec_eq]
  rcases halike with ⟨s', u', out, ovf, hcs, hcu, hval⟩ | ⟨s', u', e, hcs, hcu, -⟩
  · rw [hcs] at hs ⊢
    rw [hcu] at hu ⊢
    have hparams' : s'.params = u'.params := by
      rw [(sameShell_of_shellOf hs).params, (sameShell_of_shellOf hu).params, hparams]
    refine ⟨_, _, rfl, rfl, ?_⟩
    rcases finish_alike hparams' out ovf with ⟨hend, uend⟩ | hfail
    · refine .inl ⟨out, ovf, hend, uend, fun _ => ?_⟩
      rw [(finish_other s' out ovf).1, (finish_other u' out ovf).1, hval]
    · exact .inr ⟨_, hfail⟩
  · rw [hcs, hcu]
    exact ⟨_, _, rfl, rfl, .inr ⟨e, failedWith_raiseError s' e, failedWith_raiseError u' e⟩⟩

/-! ### The empty input (R141) -/

theorem inputFits_of_inLen_zero {s : State} (h : s.inLen = 0#64) : s.inputFits := fun c _ => by simp [h]

theorem ctlOf_hufEnc_empty {s : State} (h : s.inLen = 0#64) : ctlOf .hufEnc s = .finish (s.enter .h1Empty) [] false := by
  show guarded s _ = _
  rw [guarded_of_fits (inputFits_of_inLen_zero h), State.input_eq_nil.mpr h]
  rfl

theorem ctlOf_hufDec_empty {s : State} (h : s.inLen = 0#64) : ctlOf .hufDec s = .finish (s.enter .d0Empty) [] false := by
  show guarded s _ = _
  rw [guarded_of_fits (inputFits_of_inLen_zero h), State.input_eq_nil.mpr h]
  rfl

/-- On the empty input a codec command finishes in its first phase, with the empty output (R141, 43_huffman_decoder.md R171, 44_lzw.md
R202, R207). -/
theorem ctlOf_codec_empty {i : Instr} {s : State} (hi : i = .hufEnc ∨ i = .hufDec ∨ i = .lzwEnc ∨ i = .lzwDec)
    (h : s.inLen = 0#64) : ∃ ph, ctlOf i s = .finish (s.enter ph) [] false := by
  rcases hi with rfl | rfl | rfl | rfl
  · exact ⟨_, ctlOf_hufEnc_empty h⟩
  · exact ⟨_, ctlOf_hufDec_empty h⟩
  · exact ⟨_, ctlOf_lzwEnc_empty (inputFits_of_inLen_zero h) h⟩
  · exact ⟨_, ctlOf_lzwDec_empty (inputFits_of_inLen_zero h) h⟩

theorem State.outBuf_finish_nil (s : State) (ovf : Bool) : (s.finish [] ovf).outBuf = s.outBuf := by
  rw [State.finish_of_fits (beyond_zero _), State.complete_outBuf, Memory.writeBytes]

/-- Settles O25: the command is one `Finish` of the empty output, in the first phase (`ctlOf_codec_empty`). -/
theorem emptyInputGivesEmptyOutput : Obligations.EmptyInputGivesEmptyOutput := by
  unfold Obligations.EmptyInputGivesEmptyOutput
  intro i s hi h
  obtain ⟨ph, hctl⟩ := ctlOf_codec_empty hi h
  have hexec : exec i s = .next ((s.enter ph).finish [] false) := by rw [exec_eq, hctl]; rfl
  have hend := endedWith_finish_nil (s.enter ph) false
  obtain ⟨hvalue, hhuf, hlzw, hacc, -⟩ := finish_other (s.enter ph) [] false
  exact ⟨_, hexec, hend, hend.outLen_nil, hend.errCode, hend.status.trans rfl, sameShell_exec hexec, hvalue, hhuf, hlzw, hacc,
    State.outBuf_finish_nil (s.enter ph) false⟩

/-! ### The frame (R149) -/

/-- How HUF.ENC ends, said of the state after it: it holds what the command has built, and the output is the frame of the tree text
and the codes, where it fits. -/
theorem hufEnc_ends {s t : State} (hfits : s.inputFits) (hlimit : s.params.noTableLimit) (hne : s.inLen ≠ 0#64)
    (hexec : exec .hufEnc s = .next t) {out : ByteString}
    (hout : out = frameOf (s.serWord t.huf.treeLen) t.huf.tbuf (t.bitsOf s.input)) :
    (s.outputFits out.length → EndedWith t out (s.serOverflows t.huf.treeLen)) ∧
      (¬s.outputFits out.length → FailedWith t .capacityExceeded) := by
  obtain ⟨s', hctl, -, hshell⟩ := ctlOf_hufEnc hfits hlimit hne
  rw [exec_eq, hctl] at hexec
  cases hexec
  obtain ⟨-, hhuf, -⟩ := finish_other s' (frameOf (s.serWord s'.huf.treeLen) s'.huf.tbuf (s'.bitsOf s.input))
    (s.serOverflows s'.huf.treeLen)
  rw [hhuf, State.bitsOf_congr hhuf] at hout
  rw [hhuf, hout, ← outputFits_of_shell hshell]
  exact finish_ends s' _ _

/-- Settles O26: `hufEnc_ends`, and every counted symbol has a leaf and so a code. -/
theorem hufEncWritesFrame : Obligations.HufEncWritesFrame := by
  unfold Obligations.HufEncWritesFrame
  intro s hfits hlimit hne
  obtain ⟨t, hexec⟩ := exec_answers_next .hufEnc s
  have hbuilt := hufEnc_built hfits hlimit hne hexec
  refine ⟨t, _, hexec, rfl, fun b hb => ?_, hufEnc_ends hfits hlimit hne hexec rfl⟩
  obtain ⟨c, -, hcode⟩ := hbuilt.codeOf_mem hb
  rw [hcode, Option.isSome_some]

/-! ### The counts and the tree (R142 to R145) -/

/-- Settles O27, from the counts `HencTree.freq`. -/
theorem hufEncCountsSymbols : Obligations.HufEncCountsSymbols := by
  unfold Obligations.HufEncCountsSymbols
  intro s t hfits hlimit hne hexec
  have hfreq := (hufEnc_built hfits hlimit hne hexec).freq
  rw [← s.length_input]
  refine ⟨hfreq, ?_, ?_, symbolsOf_length_pos (input_ne_nil hne), le_min (length_symbolsOf_le _) symbolsOf_length_le⟩
  · rw [funext hfreq]
    exact sum_count_allBytes s.input
  · refine List.filter_congr fun b _ => ?_
    rw [hfreq b, decide_eq_decide, List.count_pos_iff]

/-- One distinct symbol: the tree is its leaf (R145). -/
theorem HencTree.tree_eq_leaf {x : ByteString} {t : State} {b : Byte} (h : HencTree x t) (hb : symbolsOf x = [b]) :
    t.huf.tree = .leaf b := by
  have hmerged := h.merged
  rw [hb] at hmerged
  exact hmerged.eq_leaf

/-- Settles O28, from what the merge has built (`HencTree`). -/
theorem hufEncMergesTwoLeast : Obligations.HufEncMergesTwoLeast := by
  unfold Obligations.HufEncMergesTwoLeast
  intro s t hfits hlimit hne hexec
  have hbuilt := hufEnc_built hfits hlimit hne hexec
  refine ⟨hbuilt.merged, ?_, ?_, fun b => hbuilt.tree_eq_leaf⟩
  · rw [← hbuilt.merges, Nat.add_sub_cancel]
  · rw [← s.length_input]
    exact hbuilt.queue

/-! ### The codes (R146, R147) -/

theorem HencTree.length_leaves {x : ByteString} {t : State} (h : HencTree x t) :
    t.huf.tree.leaves.length = (symbolsOf x).length := h.leaves.length_eq

/-- CODETAB holds the tree's codes and nothing else (R146). -/
theorem HencText.codeOf_eq_some_iff {x : ByteString} {t : State} (h : HencText x t) {b : Byte} {c : ByteString} :
    t.codeOf b = some c ↔ (b, c) ∈ codesOf t.huf.tree := ⟨h.mem_codesOf, h.code (b, c)⟩

theorem HencCodes.codeOf_leaf {x : ByteString} {t : State} {b : Byte} (h : HencCodes x t) (hb : t.huf.tree = .leaf b) :
    t.codeOf b = some [chZero] := h.code (b, [chZero]) (by simp [hb, codesOf])

/-- For two symbols or more the codes are the paths (R146). -/
theorem HencTree.codesOf_eq_leafCodes {x : ByteString} {t : State} (h : HencTree x t) (h2 : 2 ≤ (symbolsOf x).length) :
    codesOf t.huf.tree = leafCodes t.huf.tree [] := by
  obtain ⟨l, r, htree⟩ := Tree.exists_node h.full (h.length_leaves ▸ h2)
  rw [htree, codesOf]

/-- Settles O29: the codes are the paths of `leafCodes`, and a path to a leaf is its code. -/
theorem hufEncCodesArePaths : Obligations.HufEncCodesArePaths := by
  unfold Obligations.HufEncCodesArePaths
  intro s t hfits hlimit hne hexec
  have hbuilt := hufEnc_built hfits hlimit hne hexec
  refine ⟨fun h2 b c => ?_, hbuilt.noCode⟩
  rw [hbuilt.codeOf_eq_some_iff, hbuilt.codesOf_eq_leafCodes h2]
  exact ⟨fun h => ⟨leafCodes_bits (p := []) (by simp [IsBits]) h, symbolAt_of_leafCodes (p := []) h⟩,
    fun ⟨hbits, hpath⟩ => leafCodes_of_symbolAt (p := []) hbits hpath⟩

theorem HencText.codeOf_ne_nil {x : ByteString} {t : State} (h : HencText x t) {b : Byte} {c : ByteString}
    (hc : t.codeOf b = some c) : c ≠ [] := (codesOf_entries t.huf.tree).nonempty (b, c) (h.mem_codesOf hc)

/-- Settles O30: one symbol's tree is its leaf, and a leaf's code is `"0"`. -/
theorem hufEncSingleSymbolCode : Obligations.HufEncSingleSymbolCode := by
  unfold Obligations.HufEncSingleSymbolCode
  intro s t hfits hlimit hne hexec
  have hbuilt := hufEnc_built hfits hlimit hne hexec
  refine ⟨fun b hall => ?_, fun b => hbuilt.codeOf_leaf, fun x c => hbuilt.codeOf_ne_nil⟩
  have hleaf := hbuilt.tree_eq_leaf (symbolsOf_single (input_ne_nil hne) hall)
  exact ⟨hleaf, hbuilt.codeOf_leaf hleaf⟩

/-! ### The tree text (R148) -/

/-- In pre-order the symbols' codes ascend (R148). -/
theorem HencCodes.leaves_sorted {x : ByteString} {t : State} (h : HencCodes x t) :
    t.huf.tree.leaves.Pairwise fun a b => (t.codeOf a).getD [] < (t.codeOf b).getD [] := by
  rw [← codesOf_fst, List.pairwise_map]
  refine (codesOf_sorted t.huf.tree).imp_of_mem fun ha hb hlt => ?_
  rwa [h.code _ ha, h.code _ hb]

/-- Settles O31, from `HencText.tbuf`: the text of the tree's codes in pre-order. -/
theorem hufEncTreeText : Obligations.HufEncTreeText := by
  unfold Obligations.HufEncTreeText
  intro s t hfits hlimit hne hexec
  have hbuilt := hufEnc_built hfits hlimit hne hexec
  refine ⟨?_, hbuilt.treeLen, hbuilt.leaves_sorted, fun b hb => ?_⟩
  · rw [hbuilt.tbuf, entriesText_eq_flatMap hbuilt.code, codesOf_fst]
  · rw [hbuilt.tbuf, hbuilt.tree_eq_leaf hb]
    rfl

/-! ### The properties of the tree and the codes (R151) -/

theorem incomparable_symm (c d : ByteString) : Incomparable c d → Incomparable d c := And.symm

/-- The codes of two symbols are incomparable (R151 c). -/
theorem HencText.incomparable {x : ByteString} {t : State} (h : HencText x t) {a b : Byte} {c d : ByteString} (hne : a ≠ b)
    (hc : t.codeOf a = some c) (hd : t.codeOf b = some d) : Incomparable c d :=
  pairwise_of_mem (codesOf_entries t.huf.tree).prefixFree (fun e f => incomparable_symm e.2 f.2) (h.mem_codesOf hc)
    (h.mem_codesOf hd) fun he => hne (congrArg Prod.fst he)

/-- The code of two symbols or more is complete (R151 d). -/
theorem HencText.kraft {x : ByteString} {t : State} (h : HencText x t) (h2 : 2 ≤ (symbolsOf x).length) :
    ((symbolsOf x).map fun b => (1 / 2 : ℚ) ^ ((t.codeOf b).getD []).length).sum = 1 := by
  rw [h.sum_symbols fun _ c => (1 / 2 : ℚ) ^ c.length, h.codesOf_eq_leafCodes h2, leafCodes_kraft h.full]
  simp

/-- A code of one symbol is one bit (R147). -/
theorem HencText.length_code_of_single {x : ByteString} {t : State} (h : HencText x t) (h1 : (symbolsOf x).length = 1) {b : Byte}
    {c : ByteString} (hc : t.codeOf b = some c) : c.length = 1 := by
  obtain ⟨a, ha⟩ := List.length_eq_one_iff.mp h1
  have hmem := h.mem_codesOf hc
  rw [h.tree_eq_leaf ha, codesOf, List.mem_singleton] at hmem
  cases hmem
  rfl

/-- A code of `n` symbols is at most `n - 1` bits (R151 e). -/
theorem HencText.length_code_lt {x : ByteString} {t : State} (h : HencText x t) (h2 : 2 ≤ (symbolsOf x).length) {b : Byte}
    {c : ByteString} (hc : t.codeOf b = some c) : c.length + 1 ≤ (symbolsOf x).length := by
  have hmem := h.mem_codesOf hc
  rw [h.codesOf_eq_leafCodes h2] at hmem
  simpa [h.length_leaves] using leafCodes_length_le h.full hmem

/-- Settles O32, clause by clause. -/
theorem hufEncTreeAndCodes : Obligations.HufEncTreeAndCodes := by
  unfold Obligations.HufEncTreeAndCodes
  intro s t hfits hlimit hne hexec
  have hbuilt := hufEnc_built hfits hlimit hne hexec
  refine ⟨hbuilt.full, hbuilt.leaves, hbuilt.nodup, fun b c => hbuilt.codeOf_ne_nil, ?_, hbuilt.kraft, ?_, ?_, hbuilt.merged⟩
  · intro a b c d hab hc hd
    exact (hbuilt.incomparable hab hc hd).1
  · intro b c h1
    exact hbuilt.length_code_of_single h1
  · intro b c h2 hc
    have hlt := hbuilt.length_code_lt h2 hc
    have hle := length_symbolsOf_le s.input
    omega

/-! ### The sizes of a frame (R150) -/

/-- No code is longer than 255 bits (R151 e). -/
theorem HencText.length_code_le {x : ByteString} {t : State} (h : HencText x t) (hx : x ≠ []) (b : Byte) :
    ((t.codeOf b).getD []).length ≤ 255 := by
  cases hc : t.codeOf b with
  | none => exact Nat.zero_le _
  | some c =>
    show c.length ≤ 255
    have hpos := symbolsOf_length_pos hx
    have hle := length_symbolsOf_le x
    by_cases h1 : (symbolsOf x).length = 1
    · have := h.length_code_of_single h1 hc
      omega
    · have := h.length_code_lt (by omega) hc
      omega

/-- `TREELEN = 2 * n + sum of the code lengths` (R150). -/
theorem HencText.treeLen_eq {x : ByteString} {t : State} (h : HencText x t) :
    t.huf.treeLen = 2 * (symbolsOf x).length + ((symbolsOf x).map fun b => ((t.codeOf b).getD []).length).sum := by
  rw [h.treeLen, h.tbuf, length_entriesText, length_codesOf, h.length_leaves, h.sum_symbols fun _ c => c.length, codeLengths]

/-- `len(B)` is the sum of count times code length (R150). -/
theorem State.length_bitsOf_eq_sum (t : State) (x : ByteString) :
    (t.bitsOf x).length = ((symbolsOf x).map fun b => x.count b * ((t.codeOf b).getD []).length).sum := by
  rw [State.length_bitsOf]
  exact sum_map_eq_sum_counts _ x _ (nodup_symbolsOf x) fun b => mem_symbolsOf.mpr

theorem HencText.length_bitsOf_le {x : ByteString} {t : State} (h : HencText x t) (hx : x ≠ []) :
    (t.bitsOf x).length ≤ 255 * x.length := by
  have hcodes : ∀ n ∈ x.map fun b => ((t.codeOf b).getD []).length, n ≤ 255 :=
    List.forall_mem_map.mpr fun b _ => h.length_code_le hx b
  have hsum := List.sum_le_card_nsmul _ 255 hcodes
  rwa [← State.length_bitsOf, List.length_map, smul_eq_mul, Nat.mul_comm] at hsum

/-- The frame of one symbol (R150): three bytes of tree text, one bit a symbol. -/
theorem HencText.sizes_of_single {x : ByteString} {t : State} (h : HencText x t) (h1 : (symbolsOf x).length = 1) :
    t.huf.treeLen = 3 ∧ (t.bitsOf x).length = x.length := by
  obtain ⟨b, hb⟩ := List.length_eq_one_iff.mp h1
  have hcode := h.codeOf_leaf (h.tree_eq_leaf hb)
  rw [h.treeLen_eq, State.length_bitsOf_eq_sum, ← sum_count_symbols x, hb]
  simp [hcode]

theorem State.serOverflows_iff (s : State) (v : Nat) : s.serOverflows v = true ↔ 2 ^ s.wordBits ≤ v := decide_eq_true_iff

/-- A tree text overflows no word of 16 bits or more (30_encoding.md R82). -/
theorem State.serOverflows_of_le {s : State} {n : Nat} (hn : n ≤ 33407) (hw : 16 ≤ s.wordBits) : s.serOverflows n = false := by
  have hpow : 2 ^ 16 ≤ 2 ^ s.wordBits := Nat.pow_le_pow_right (by decide) hw
  rw [← Bool.not_eq_true, State.serOverflows_iff]
  omega

theorem State.wordBits_of_serOverflows {s : State} {n : Nat} (hn : n ≤ 33407) (h : s.serOverflows n = true) :
    s.wordBits = 8 ∧ 256 ≤ n := by
  have hw : s.wordBits = 8 := by
    have hcases : s.wordBits = 8 ∨ s.wordBits = 16 ∨ s.wordBits = 32 ∨ s.wordBits = 64 := widthOf_cases s.cfg
    by_contra h8
    rw [State.serOverflows_of_le hn (by omega)] at h
    cases h
  rw [State.serOverflows_iff, hw] at h
  exact ⟨hw, h⟩

/-- Settles O33, size by size; the output is the frame of `hufEnc_ends`. -/
theorem hufEncSizes : Obligations.HufEncSizes := by
  unfold Obligations.HufEncSizes
  intro s t hfits hlimit hne hexec
  have hbuilt := hufEnc_built hfits hlimit hne hexec
  obtain ⟨hends, -⟩ := hufEnc_ends hfits hlimit hne hexec rfl
  rw [← s.length_input]
  refine ⟨hbuilt.treeLen_eq, t.length_bitsOf_eq_sum s.input,
    ⟨_, ?_, hends, fun hout hlt => (hends hout).toNat_outLen hlt⟩, fun h2 => ?_, hbuilt.treeLen_le,
    State.serOverflows_of_le hbuilt.treeLen_le, State.wordBits_of_serOverflows hbuilt.treeLen_le,
    hbuilt.length_bitsOf_le (input_ne_nil hne), hbuilt.sizes_of_single⟩
  · rw [length_frameOf, State.length_serWord, ← hbuilt.treeLen]
  · rw [hbuilt.sum_symbols fun _ c => c.length]
    exact hbuilt.codeLengths_le h2

end Sys2Proof.Machine
end

section
/-! SUPPORT. Proofs of the statements of 43_huffman_decoder.md: HUF.DEC ends as its phases do (`ctlOf_hufDec`), so it accepts
exactly the frames (R170 to R178). A frame has one reading, so a cause of rejection in its tree text or bit string says that it has
none. The round trip (R183) reads HUF.ENC's frame as a frame of the encoder's own codes. -/

namespace Sys2Proof.Machine

/-! ### From the end of the phases to the end of the command (R106) -/

theorem exec_of_finish {i : Instr} {s u : State} {out : ByteString} {ovf : Bool} (h : ctlOf i s = .finish u out ovf) :
    exec i s = .next (u.finish out ovf) := by
  rw [exec_eq, h]
  rfl

theorem exec_of_raise {i : Instr} {s u : State} {e : ErrKind} (h : ctlOf i s = .raise u e) :
    ∃ t, exec i s = .next t ∧ FailedWith t e :=
  ⟨u.raiseError e, by rw [exec_eq, h]; rfl, failedWith_raiseError u e⟩

/-- The two ends of `Finish`, by the capacity of the state the command started in (R107). -/
theorem finish_ends_of_shell {s u : State} (h : shellOf u = shellOf s) (out : ByteString) (ovf : Bool) :
    (s.outputFits out.length → EndedWith (u.finish out ovf) out ovf) ∧
      (¬s.outputFits out.length → FailedWith (u.finish out ovf) .capacityExceeded) := by
  rw [← outputFits_of_shell h]
  exact finish_ends u out ovf

/-! ### Exactly the frames are accepted (R170, R172 to R178) -/

/-- Settles O35: the phases finish on the frames and raise MalformedInput on everything else (`ctlOf_hufDec`). -/
theorem hufDecAcceptsExactlyFrames : Obligations.HufDecAcceptsExactlyFrames := by
  unfold Obligations.HufDecAcceptsExactlyFrames
  intro s hfits hlimit hne
  rcases ctlOf_hufDec hfits hlimit hne with ⟨u, out, lenWord, es, w, hctl, hdecoded, hshell⟩ | ⟨hnoFrame, u, hctl, -⟩
  · exact ⟨_, exec_of_finish hctl, .inl ⟨out, hdecoded.isFrame, finish_ends_of_shell hshell out false⟩⟩
  · obtain ⟨t, hexec, hfailed⟩ := exec_of_raise hctl
    exact ⟨t, hexec, .inr ⟨hnoFrame, hfailed⟩⟩

/-! ### What HUF.DEC holds after a frame (R170, R174 to R179, R184) -/

/-- A tree whose leaves are the entries of a table is no single leaf: no code is empty (R174). -/
theorem ne_leaf_of_codeEntries {t : Tree} {es : List (Byte × ByteString)} (hes : CodeEntries es)
    (htree : ∀ c b, IsBits c → (t.symbolAt c = some b ↔ (b, c) ∈ es)) (b : Byte) : t ≠ .leaf b := by
  rintro rfl
  have hmem : (b, []) ∈ es := (htree [] b (by simp [IsBits])).mp rfl
  exact hes.nonempty _ hmem rfl

/-- Settles O34, from how the phases end on a frame (`ctlOf_hufDec_frame`); `Finish` leaves the working state. -/
theorem hufDecDecodesFrames : Obligations.HufDecDecodesFrames := by
  unfold Obligations.HufDecDecodesFrames
  intro s lenWord es w hfits hlimit hout hlen hdes hes hw hinput
  obtain ⟨u, hctl, hshell, hacc, htreeLen, htbuf, hbits, htree⟩ := ctlOf_hufDec_frame hfits hlimit hlen hdes hes hw hinput
  obtain ⟨-, hhuf, -, haccFinish, -⟩ := finish_other u (w.map Prod.fst) false
  have hend := (finish_ends_of_shell hshell (w.map Prod.fst) false).1 (by rwa [List.length_map])
  refine ⟨_, exec_of_finish hctl, hend, ?_⟩
  rw [hhuf, haccFinish]
  exact ⟨htreeLen, htbuf, hbits, hacc, ne_leaf_of_codeEntries hes htree, htree⟩

/-! ### The framing checks (R172, R173) -/

theorem hufDec_rejects_of_not_framingOk {s : State} (hfits : s.inputFits) (hne : s.inLen ≠ 0#64) (h : ¬FramingOk s s.input) :
    ∃ t, exec .hufDec s = .next t ∧ FailedWith t .malformedInput := by
  have hctl : ctlOf .hufDec s = runPhases (hdecPhases s.input) s := guarded_of_fits hfits _
  have hends := hdecPhases_bad_framing (input_ne_nil hne) s h
  rw [exec_eq, hctl]
  obtain ⟨t, hnext, ⟨_, _, _, hfalse, -⟩ | ⟨u, e, rfl, rfl⟩⟩ := conclude_next hends
  · exact hfalse.elim
  · exact ⟨_, hnext, failedWith_raiseError u .malformedInput⟩

/-- Settles O36: each cause contradicts one check of `FramingOk`. -/
theorem hufDecRejectsBadFraming : Obligations.HufDecRejectsBadFraming := by
  unfold Obligations.HufDecRejectsBadFraming
  intro s hfits hne hcause
  refine hufDec_rejects_of_not_framingOk hfits hne ?_
  rintro ⟨hprefix, n, hdes, hfirst, hlength, hsecond, hlast⟩
  rw [s.length_input] at hprefix hlength hlast
  rcases hcause with hshort | ⟨e, herror⟩ | hnofirst | ⟨m, hm, hbad⟩ | hnolast
  · omega
  · rw [hdes] at herror
    cases herror
  · exact hnofirst hfirst
  · rw [hdes] at hm
    cases hm
    rcases hbad with hshort | hnosecond
    · omega
    · exact hnosecond hsecond
  · exact hnolast hlast

/-! ### A frame that stands for nothing (R174 to R178) -/

theorem inLen_ne_zero_of_frame {s : State} {lenWord text bits : ByteString} (h : s.input = frameOf lenWord text bits) :
    s.inLen ≠ 0#64 := by
  intro h0
  have hlength := congrArg List.length h
  rw [State.input_eq_nil.mpr h0, length_frameOf, List.length_nil] at hlength
  omega

/-- A frame is rejected where its tree text and its bit string cannot both be read: the one reading HUF.DEC could have accepted
would be of this very text and these bits (`Decoded.eq_of_frame`). -/
theorem hufDec_rejects_frame {s : State} {lenWord text bits : ByteString} (hfits : s.inputFits) (hlimit : s.params.noTableLimit)
    (hlen : lenWord.length = s.sw) (hdes : des s.wordBits s.mode lenWord = .ok text.length)
    (hinput : s.input = frameOf lenWord text bits)
    (hbad : ∀ es w : List (Byte × ByteString), CodeEntries es → (∀ e ∈ w, e ∈ es) → text = entriesText es →
      bits ≠ w.flatMap Prod.snd) :
    ∃ t, exec .hufDec s = .next t ∧ FailedWith t .malformedInput := by
  rcases ctlOf_hufDec hfits hlimit (inLen_ne_zero_of_frame hinput) with
    ⟨u, out, lenWord', es, w, -, hdecoded, -⟩ | ⟨-, u, hctl, -⟩
  · obtain ⟨htext, hbits⟩ := hdecoded.eq_of_frame hlen hdes hinput
    exact absurd hbits (hbad es w hdecoded.entries hdecoded.mem htext)
  · exact exec_of_raise hctl

/-! ### The tree text (R174, R175) -/

/-- Where a tree text goes on after the entries `es`, what follows the next symbol begins with a code up to a space: a non-empty bit
string, incomparable with every code before it. -/
theorem nextCode_of_entriesText {es fs : List (Byte × ByteString)} {b : Byte} {more : ByteString} (hes : CodeEntries es)
    (hfs : CodeEntries fs) (h : entriesText es ++ b :: more = entriesText fs) :
    ∃ c rest, more = c ++ chSpace :: rest ∧ IsBits c ∧ c ≠ [] ∧ ∀ e ∈ es, Incomparable e.2 c := by
  obtain ⟨gs, rfl, hgs⟩ := entriesText_append_eq hes.bits hfs.bits h
  cases gs with
  | nil => cases hgs
  | cons g gs =>
    have hmem : g ∈ es ++ g :: gs := by simp
    obtain ⟨-, -, hcross⟩ := List.pairwise_append.mp hfs.prefixFree
    rw [entriesText_cons, treeEntry, List.cons_append, List.cons.injEq, List.append_assoc, List.singleton_append] at hgs
    exact ⟨g.2, entriesText gs, hgs.2, hfs.bits g hmem, hfs.nonempty g hmem, fun e he => hcross e he g (by simp)⟩

/-- Settles O37: each cause contradicts what a readable tree text goes on with (`nextCode_of_entriesText`). -/
theorem hufDecRejectsBadTreeText : Obligations.HufDecRejectsBadTreeText := by
  unfold Obligations.HufDecRejectsBadTreeText
  intro s lenWord bits es b more hfits hlimit hlen hdes hes hinput hcause
  refine hufDec_rejects_frame hfits hlimit hlen hdes hinput fun fs w hfs _ htext _ => ?_
  obtain ⟨c, rest, rfl, hc, hnil, hfree⟩ := nextCode_of_entriesText hes hfs htext
  rcases hcause with hnospace | ⟨rest', hempty⟩ | ⟨d, x, rest', hd, hx0, hx1, hxspace, hmore⟩ |
    ⟨d, rest', hd, hmore, e, he, htaken⟩
  · simp at hnospace
  · exact hnil (append_space_inj (d := []) (space_not_bit hc) List.not_mem_nil hempty).1
  · exact hxspace (bits_stop_inj hc hd (by decide) ⟨hx0, hx1⟩ hmore).symm
  · obtain ⟨rfl, -⟩ := append_space_inj (space_not_bit hc) (space_not_bit hd) hmore
    exact htaken (hfree e he)

/-! ### The bit string (R177, R178) -/

/-- Settles O38: the tree text has one reading, and no list of its entries has these bits. -/
theorem hufDecRejectsBadBits : Obligations.HufDecRejectsBadBits := by
  unfold Obligations.HufDecRejectsBadBits
  intro s lenWord bits es hfits hlimit hlen hdes hes hinput hbad
  refine hufDec_rejects_frame hfits hlimit hlen hdes hinput fun fs w hfs hw htext hbits => ?_
  obtain rfl := entriesText_inj hes.bits hfs.bits htext
  exact hbad ⟨w, hw, hbits⟩

/-! ### The round trip (R183) -/

/-- An input as the entries HUF.DEC reads from its bit string: each symbol with its code. -/
def State.codedInput (t : State) (x : ByteString) : List (Byte × ByteString) := x.map fun b => (b, (t.codeOf b).getD [])

theorem State.codedInput_symbols (t : State) (x : ByteString) : (t.codedInput x).map Prod.fst = x := by
  simp [State.codedInput, Function.comp_def]

theorem State.codedInput_bits (t : State) (x : ByteString) : (t.codedInput x).flatMap Prod.snd = t.bitsOf x := by
  rw [State.codedInput, List.flatMap_map, State.bitsOf]

/-- Every symbol of the input is coded by an entry of the encoder's tree (R146). -/
theorem HencText.codedInput_mem {x : ByteString} {t : State} (h : HencText x t) :
    ∀ e ∈ t.codedInput x, e ∈ codesOf t.huf.tree := by
  refine List.forall_mem_map.mpr fun b hb => ?_
  obtain ⟨c, hmem, hcode⟩ := h.codeOf_mem hb
  rwa [hcode]

/-- HUF.DEC reads back the frame of what HUF.ENC has built for `x`, where the tree length kept its high bits (R183). -/
theorem hufDec_of_hencText {x : ByteString} {s t u : State} (hbuilt : HencText x t) (hovf : s.serOverflows t.huf.treeLen = false)
    (hcfg : u.cfg = s.cfg) (hfits : u.inputFits) (hlimit : u.params.noTableLimit) (hout : u.outputFits x.length)
    (hinput : u.input = frameOf (s.serWord t.huf.treeLen) t.huf.tbuf (t.bitsOf x)) :
    ∃ v, exec .hufDec u = .next v ∧ EndedWith v x false := by
  have hlen : (s.serWord t.huf.treeLen).length = u.sw := by
    rw [State.length_serWord, State.sw_of_cfg hcfg]
    rfl
  have hdes : des u.wordBits u.mode (s.serWord t.huf.treeLen) = .ok (entriesText (codesOf t.huf.tree)).length := by
    rw [← hbuilt.tbuf, ← hbuilt.treeLen, State.wordBits, State.mode, hcfg]
    exact s.des_serWord hovf
  have hout' : u.outputFits (t.codedInput x).length := by rwa [State.codedInput, List.length_map]
  rw [hbuilt.tbuf, ← t.codedInput_bits] at hinput
  obtain ⟨v, hexec, hend, -⟩ := hufDecDecodesFrames u _ _ _ hfits hlimit hout' hlen hdes (codesOf_entries _)
    hbuilt.codedInput_mem hinput
  rw [t.codedInput_symbols] at hend
  exact ⟨v, hexec, hend⟩

/-- A non-empty input: HUF.ENC's end without error is the frame of what it has built, its OVF that of the tree length (R149). -/
theorem hufEnc_endedWith_frame {s t : State} (hfits : s.inputFits) (hlimit : s.params.noTableLimit) (hne : s.inLen ≠ 0#64)
    (hexec : exec .hufEnc s = .next t) (herr : t.err = false) :
    EndedWith t (frameOf (s.serWord t.huf.treeLen) t.huf.tbuf (t.bitsOf s.input)) (s.serOverflows t.huf.treeLen) := by
  obtain ⟨hends, hfails⟩ := hufEnc_ends hfits hlimit hne hexec rfl
  refine hends (by_contra fun hover => ?_)
  rw [(hfails hover).err] at herr
  cases herr

/-- Settles O39: the empty input on both sides (R171), and otherwise the frame HUF.ENC wrote, read back (`hufDec_of_hencText`). -/
theorem hufRoundTrip : Obligations.HufRoundTrip := by
  unfold Obligations.HufRoundTrip
  intro s t hfits hlimit hexec herr hovf
  by_cases hzero : s.inLen = 0#64
  · obtain ⟨t', hexec', hend, -⟩ := emptyInputGivesEmptyOutput .hufEnc s (.inl rfl) hzero
    rw [hexec] at hexec'
    cases hexec'
    refine ⟨[], hend, fun u _ _ _ _ hinput => ?_⟩
    obtain ⟨v, hexec, hend, -⟩ := emptyInputGivesEmptyOutput .hufDec u (.inr (.inl rfl)) (State.input_eq_nil.mp hinput)
    exact ⟨v, hexec, by rwa [State.input_eq_nil.mpr hzero]⟩
  · have hend := hufEnc_endedWith_frame hfits hlimit hzero hexec herr
    obtain ⟨-, -, -, hflag⟩ := hend.flags
    have hkept : s.serOverflows t.huf.treeLen = false := hflag.symm.trans hovf
    rw [hkept] at hend
    refine ⟨_, hend, fun u hcfg hufits hulimit huout hinput => ?_⟩
    rw [← s.length_input] at huout
    exact hufDec_of_hencText (hufEnc_built hfits hlimit hzero hexec) hkept hcfg hufits hulimit huout hinput

end Sys2Proof.Machine
end

section
/-! SUPPORT. Proofs of the statements of 44_lzw.md. LZW.ENC's scan is the parse `lzwParse`, whose invariants (R212) and lock-step with
the decoder (R213) are stated of lists of strings; LZW.DEC ends as the codes its chunks deserialize to stand for something or not
(R207 to R211), and the codes of an input stand for the input (R214). -/

namespace Sys2Proof.Machine

/-! ### The encoder's invariants (R212) -/

/-- Scanning `x` from the seed leaves the working state of the parse of `x` (R202, R203). -/
theorem lzw_of_scan {s s0 t : State} {x : ByteString} (hseed : lzwEncSeed s = .go s0) (hscan : lzwScan x s0 = .go t) :
    t.lzw = encState s.lzw (lzwParse seedStrings [] x).1 (lzwParse seedStrings [] x).2.1 (lzwParse seedStrings [] x).2.2 := by
  have hstart : s0.lzw = encState s.lzw seedStrings [] [] := by
    unfold lzwEncSeed at hseed
    split at hseed
    · cases hseed
    · cases hseed
      rw [encState, ← seedDict_eq, length_seedStrings]
  have hsat := lzwScan_sat x s0 s.lzw seedStrings [] [] hstart parseInv_seed
  rw [hscan] at hsat
  exact hsat

/-- Every non-empty string that begins one of the dictionary is in it too (R212 b). -/
theorem ParseInv.mem_of_prefix {d : List ByteString} {cur p e : ByteString} (h : ParseInv d cur) (he : e ∈ d) (hp : p <+: e)
    (hne : p ≠ []) : p ∈ d := by
  induction e using List.reverseRecOn with
  | nil => exact absurd (List.prefix_nil.mp hp) hne
  | append_singleton e c ih =>
    rcases List.prefix_concat_iff.mp hp with rfl | hshort
    · exact he
    · have hnonempty : e ≠ [] := fun hnil => hne (List.prefix_nil.mp (hnil ▸ hshort))
      have hclosed := h.closed _ he
      rw [List.dropLast_concat] at hclosed
      exact ih (hclosed hnonempty) hshort

theorem mem_of_mem_dictOf {d : List ByteString} {e : ByteString × Nat} (h : e ∈ dictOf d) : e.1 ∈ d :=
  dictOf_fst d ▸ List.mem_map_of_mem h

/-- The string at a code's place in DICT. -/
theorem getElem?_dictOf_fst (d : List ByteString) (k : Nat) : ((dictOf d)[k]?).map Prod.fst = d[k]? := by
  rw [← List.getElem?_map, dictOf_fst]

theorem length_lzwParse_seed (x : ByteString) :
    (lzwParse seedStrings [] x).1.length = 256 + (lzwParse seedStrings [] x).2.2.length := by
  rw [lzwParse_length, length_seedStrings]

/-- Settles O41: the scan is the parse (`lzw_of_scan`), of which each invariant holds. -/
theorem lzwEncoderInvariants : Obligations.LzwEncoderInvariants := by
  unfold Obligations.LzwEncoderInvariants
  intro s s0 t x hseed hscan
  have hinv := lzwParse_inv (x := x) parseInv_seed
  obtain ⟨hwf, -⟩ := dictWf_dictOf hinv
  have hcodes := hwf.codes
  rw [length_dictOf] at hcodes
  rw [lzw_of_scan hseed hscan]
  refine ⟨⟨hcodes, hwf.keysNodup, hwf.keysNonempty⟩, fun e he p hp hne => ?_, ?_, length_lzwParse_seed x, ?_, fun j k hk => ?_⟩
  · rw [encState, dictOf_fst]
    exact hinv.mem_of_prefix (mem_of_mem_dictOf he) hp hne
  · rw [encState, dictOf_fst]
    by_cases hx : x = []
    · exact .inl ⟨by rw [hx]; rfl, hx⟩
    · exact .inr (hinv.current.resolve_left (lzwParse_current_ne_nil (.inr hx)))
  · simp only [encState, getElem?_dictOf_fst]
    exact lzwParse_strings parseInv_seed
  · have hlt := lzwParse_code_lt parseInv_seed hk
    rw [length_seedStrings] at hlt
    omega

/-! ### The lock-step (R213) -/

/-- A non-empty input has one code more than the scan emits: the flush (R204). -/
theorem length_lzwCodesOf {x : ByteString} (hx : x ≠ []) :
    (lzwCodesOf x).length = (lzwParse seedStrings [] x).2.2.length + 1 := by
  rw [lzwCodesOf, List.length_append, lzwFlush, if_neg (lzwParse_current_ne_nil (.inr hx)), List.length_singleton]

theorem ne_nil_of_code {x : ByteString} {j k : Nat} (h : (lzwCodesOf x)[j]? = some k) : x ≠ [] := by
  rintro rfl
  rw [lzwCodesOf_nil] at h
  cases h

/-- The codes emitted in a part of an input, the flush after the whole: there is a next code. -/
theorem lzwParse_codes_lt {y z : ByteString} (h : y ++ z ≠ []) :
    (lzwParse seedStrings [] y).2.2.length < (lzwCodesOf (y ++ z)).length := by
  rw [length_lzwCodesOf h, lzwParse_append, List.length_append]
  omega

/-- The encoder's dictionary after a part of an input is the first strings of its last dictionary (R213). -/
theorem take_lzwParse (y z : ByteString) :
    (lzwParse seedStrings [] (y ++ z)).1.take (256 + (lzwParse seedStrings [] y).2.2.length) = (lzwParse seedStrings [] y).1 := by
  have hgrows := lzwParse_grows z (lzwParse seedStrings [] y).1 (lzwParse seedStrings [] y).2.1
  rw [lzwParse_append, ← length_lzwParse_seed]
  exact (List.prefix_iff_eq_take.mp hgrows).symm

/-- In a dictionary without doubles, a string's code is the place where it stands. -/
theorem dictOf_lookup_of_getElem? {d : List ByteString} (hd : d.Nodup) {k : Nat} {e : ByteString} (h : d[k]? = some e) :
    (dictOf d).lookup e = some k := by
  obtain ⟨hlt, rfl⟩ := List.getElem?_eq_some_iff.mp h
  rw [dictOf_lookup hd (List.getElem_mem hlt), hd.idxOf_getElem k hlt]

/-- After its step 4 the decoder holds the seed inverted, and CURRENT (R208). -/
theorem decState_of_first {l : LzwState} (hinv : l.inv = seedInv) (hnext : l.nextCode = 256) :
    l = decState l seedStrings l.current := by
  rw [decState, ← seedInv_eq, length_seedStrings, ← hinv, ← hnext]

/-- Settles O45: the decoder's loop holds what feeding it the codes gives (`lzwStep_feed`), and that is the encoder's dictionary
(`lzwFeed_codes`). -/
theorem lzwLockstep : Obligations.LzwLockstep := by
  unfold Obligations.LzwLockstep
  intro y z e e0 ey s c0 hseed hscan hc0 hlimit hinv hnext hfirst
  have hne := ne_nil_of_code hc0
  obtain ⟨w, u, hw, hwne, hfeed, c, hc, hu⟩ := lzwFeed_codes hc0 (lzwParse_codes_lt hne)
  rw [seedInv_eq, invOf_lookup, hw, Option.some.injEq] at hfirst
  subst hfirst
  rw [take_lzwParse] at hfeed
  obtain ⟨t, hstep, ht⟩ := lzwStep_feed hlimit (decState_of_first hinv hnext) hwne parseInv_seed.nonempty hfeed
  obtain ⟨-, -, hbound⟩ := lzwCodesOf_bounds hne
  have hle := hbound _ _ hc
  have hget : (lzwParse seedStrings [] y).1[c]? = some u := by
    rw [← take_lzwParse y z, List.getElem?_take_of_lt (by omega), hu]
  have hnodup := (lzwParse_inv (x := y) parseInv_seed).nodup
  rw [lzw_of_scan hseed hscan]
  refine ⟨t, hstep, ?_⟩
  rw [ht]
  exact ⟨rfl, length_lzwParse_seed y, rfl, c, hc, hle, dictOf_lookup_of_getElem? hnodup hget,
    (invOf_lookup _ _).trans hget⟩

/-! ### LZW.ENC's output (R205) -/

/-- Settles O40: the command finishes with the words of the codes (`ctlOf_lzwEnc_any`), and the codes are bounded. -/
theorem lzwEncWritesCodes : Obligations.LzwEncWritesCodes := by
  unfold Obligations.LzwEncWritesCodes
  intro s hfits hlimit
  obtain ⟨u, hctl, hshell, hbuilt⟩ := ctlOf_lzwEnc_any hfits hlimit
  obtain ⟨hends, hfails⟩ := finish_ends_of_shell hshell ((lzwCodesOf s.input).flatMap s.serWord)
    ((lzwCodesOf s.input).any s.serOverflows)
  rw [length_flatMap_serWord] at hends hfails
  refine ⟨_, exec_of_finish hctl, hends, hfails, fun hzero => ?_⟩
  have hne := input_ne_nil hzero
  obtain ⟨hone, hmany, -⟩ := lzwCodesOf_bounds hne
  have hbound := lzwCodesOf_le hne
  rw [s.length_input] at hmany hbound
  obtain ⟨-, -, hlzw, -⟩ := finish_other u ((lzwCodesOf s.input).flatMap s.serWord) ((lzwCodesOf s.input).any s.serOverflows)
  rw [hlzw, hbuilt hzero]
  refine ⟨hone, hmany, hbound, fun hwide => ?_, rfl, ?_⟩
  · refine List.any_eq_false.mpr fun k hk => ?_
    have := hbound k hk
    rw [decide_eq_true_eq]
    omega
  · refine (length_lzwParse_seed s.input).trans ?_
    rw [length_lzwCodesOf hne]
    omega

/-! ### What LZW.DEC reads (R207 to R211) -/

/-- The input is whole chunks, which deserialize to the codes `ks` (R207). -/
def ReadsCodes (s : State) (ks : List Nat) : Prop :=
  ∃ chunks, ChunksOf s s.input chunks ∧ chunks.map (des s.wordBits s.mode) = ks.map .ok

theorem ReadsCodes.unique {s : State} {ks ms : List Nat} (hk : ReadsCodes s ks) (hm : ReadsCodes s ms) : ks = ms := by
  obtain ⟨chunks, hchunks, hdes⟩ := hk
  obtain ⟨chunks', hchunks', hdes'⟩ := hm
  obtain rfl := chunksOf_unique hchunks hchunks'
  exact map_ok_inj (hdes.symm.trans hdes')

theorem ReadsCodes.length_mod {s : State} {ks : List Nat} (h : ReadsCodes s ks) : s.input.length % s.sw = 0 := by
  obtain ⟨chunks, hchunks, -⟩ := h
  exact chunksOf_mod hchunks

theorem ReadsCodes.no_bad_chunk {s : State} {ks : List Nat} (h : ReadsCodes s ks) {chunks : List ByteString}
    (hchunks : ChunksOf s s.input chunks) {c : ByteString} (hc : c ∈ chunks) {e : ErrKind} :
    des s.wordBits s.mode c ≠ .error e := by
  intro herror
  obtain ⟨chunks', hchunks', hdes⟩ := h
  obtain rfl := chunksOf_unique hchunks hchunks'
  have hmem : des s.wordBits s.mode c ∈ ks.map .ok := hdes ▸ List.mem_map_of_mem hc
  rw [herror] at hmem
  simp at hmem

/-- LZW.DEC finishes with what its codes stand for, or it reads no codes that stand for anything and raises MalformedInput (R206). -/
theorem ctlOf_lzwDec_reads {s : State} (hfits : s.inputFits) (hlimit : s.params.noTableLimit) (hzero : s.inLen ≠ 0#64) :
    (∃ u out, ctlOf .lzwDec s = .finish u out false ∧ ReadsCodes s u.lzw.codes ∧ lzwBytesOf u.lzw.codes = some out ∧
      u.outAcc = out ∧ u.lzw.nextCode = 255 + u.lzw.codes.length ∧ shellOf u = shellOf s) ∨
    ((∀ ks, ReadsCodes s ks → lzwBytesOf ks = none) ∧ ∃ u, ctlOf .lzwDec s = .raise u .malformedInput) := by
  rcases ctlOf_lzwDec hfits hlimit hzero with
    ⟨u, out, hctl, ⟨chunks, _, hchunks, hdes, hbytes, rfl, hnext⟩, hacc, hshell⟩ | ⟨hcause, u, hctl, -⟩
  · exact .inl ⟨u, out, hctl, ⟨chunks, hchunks, hdes⟩, hbytes, hacc, hnext, hshell⟩
  · refine .inr ⟨fun ks hks => ?_, u, hctl⟩
    rcases hcause with hlength | ⟨chunks, hchunks, ⟨c, hc, e, herror⟩ | ⟨ms, hdes, hnone⟩⟩
    · exact absurd hks.length_mod hlength
    · exact absurd herror (hks.no_bad_chunk hchunks hc)
    · rwa [hks.unique ⟨chunks, hchunks, hdes⟩]

/-- Settles O42: the codes read are the only ones (`ReadsCodes.unique`), and they stand for something where none is above the next
one to be inserted (`lzwBytesOf_isSome`). -/
theorem lzwDecReadsCodes : Obligations.LzwDecReadsCodes := by
  unfold Obligations.LzwDecReadsCodes
  intro s hfits hlimit hzero
  rcases ctlOf_lzwDec_reads hfits hlimit hzero with ⟨u, out, hctl, hreads, hbytes, hacc, hnext, hshell⟩ | ⟨hnone, u, hctl⟩
  · obtain ⟨-, -, hlzw, haccFinish, -⟩ := finish_other u out false
    refine ⟨_, exec_of_finish hctl, fun chunks ks hchunks hdes _ => ?_, fun hbad => ?_⟩
    · obtain rfl := hreads.unique ⟨chunks, hchunks, hdes⟩
      rw [hlzw, haccFinish]
      exact ⟨out, hbytes, rfl, hacc, hnext, finish_ends_of_shell hshell out false⟩
    · obtain ⟨chunks, hchunks, hdes⟩ := hreads
      exact absurd ⟨chunks, _, hchunks, hdes, lzwBytesOf_isSome.mp (Option.isSome_of_eq_some hbytes)⟩ hbad
  · obtain ⟨t, hexec, hfailed⟩ := exec_of_raise hctl
    refine ⟨t, hexec, fun chunks ks hchunks hdes hle => ?_, fun _ => hfailed⟩
    have hsome := lzwBytesOf_isSome.mpr hle
    rw [hnone ks ⟨chunks, hchunks, hdes⟩] at hsome
    cases hsome

/-- Settles O43: each cause contradicts a reading of codes that stand for something, and without one LZW.DEC rejects (O42). -/
theorem lzwDecRejects : Obligations.LzwDecRejects := by
  unfold Obligations.LzwDecRejects
  intro s hfits hlimit hzero hcause
  obtain ⟨t, hexec, -, hrejects⟩ := lzwDecReadsCodes s hfits hlimit hzero
  refine ⟨t, hexec, hrejects ?_⟩
  rintro ⟨chunks, ks, hchunks, hdes, hle⟩
  have hreads : ReadsCodes s ks := ⟨chunks, hchunks, hdes⟩
  rcases hcause with hlength | ⟨chunks', hchunks', c, hc, e, herror⟩ | ⟨chunks', ms, hchunks', hdes', j, k, hk, hlt⟩
  · exact hlength (s.length_input ▸ hreads.length_mod)
  · exact hreads.no_bad_chunk hchunks' hc herror
  · obtain rfl := hreads.unique ⟨chunks', hchunks', hdes'⟩
    have := hle j k hk
    omega

/-! ### The self-reference (R210) -/

/-- What one code with the entry `e0 :: es` does to the decoder (R209): the entry is appended to the output and becomes CURRENT, and
INV learns CURRENT with the entry's first byte at NEXTCODE. -/
def State.afterEntry (s : State) (e0 : Byte) (es : ByteString) : State :=
  { s with
    outAcc := s.outAcc ++ (e0 :: es)
    lzw :=
      { s.lzw with
        inv := s.lzw.inv ++ [(s.lzw.nextCode, s.lzw.current ++ [e0])]
        nextCode := s.lzw.nextCode + 1
        current := e0 :: es } }

theorem dictBeyond_of_noTableLimit {p : Params} (h : p.noTableLimit) (n : Nat) : dictBeyond p n = false :=
  Bool.eq_false_iff.mpr fun hbeyond => dictBeyond_limit hbeyond h

theorem lzwStep_entry {s : State} {k : Nat} {e0 : Byte} {es : ByteString} (hlimit : s.params.noTableLimit)
    (h : lzwEntryOf s.lzw k = .entry (e0 :: es)) (ks : List Nat) : lzwStep (k :: ks) s = lzwStep ks (s.afterEntry e0 es) := by
  conv_lhs => unfold lzwStep
  simp only [h, dictBeyond_of_noTableLimit hlimit, Bool.false_eq_true, if_false]
  rfl

theorem lzwEntryOf_self {l : LzwState} {c : Byte} {cs : ByteString} (habsent : l.inv.lookup l.nextCode = none)
    (hcurrent : l.current = c :: cs) : lzwEntryOf l l.nextCode = .entry (c :: (cs ++ [c])) := by
  rw [lzwEntryOf, habsent, hcurrent]
  exact if_pos rfl

/-- Settles O44: the entry is CURRENT and its first byte, which is what INV learns at that code. -/
theorem lzwSelfReference : Obligations.LzwSelfReference := by
  unfold Obligations.LzwSelfReference
  intro s c cs hlimit habsent hcurrent
  refine ⟨s.afterEntry c (cs ++ [c]), lzwStep_entry hlimit (lzwEntryOf_self habsent hcurrent) [], rfl, rfl, ?_, rfl⟩
  rw [State.afterEntry, List.lookup_append, habsent, hcurrent]
  simp

/-! ### The round trip (R214) -/

/-- The words of an input's codes, none truncated, are chunks that deserialize to these codes under the same CFG (R123, R127). -/
theorem readsCodes_of_words {s u : State} {ks : List Nat} (hcfg : u.cfg = s.cfg) (hovf : ks.any s.serOverflows = false)
    (hinput : u.input = ks.flatMap s.serWord) : ReadsCodes u ks := by
  refine ⟨ks.map s.serWord, ⟨?_, ?_⟩, ?_⟩
  · rw [hinput, List.flatMap_def]
  · refine List.forall_mem_map.mpr fun k _ => ?_
    rw [State.length_serWord, State.sw_of_cfg hcfg]
    rfl
  · rw [List.map_map, State.wordBits, State.mode, hcfg]
    exact List.map_congr_left fun k hk => s.des_serWord (by simpa using List.any_eq_false.mp hovf k hk)

theorem lzwCodesOf_eq_nil {x : ByteString} : lzwCodesOf x = [] ↔ x = [] := by
  constructor
  · intro h
    have hbytes := lzwBytesOf_lzwCodesOf x
    rw [h, lzwBytesOf, Option.some.injEq] at hbytes
    exact hbytes.symm
  · rintro rfl
    exact lzwCodesOf_nil

/-- LZW.DEC reads back an input from its codes (R214): on the empty input it takes its empty step (R207), else O42 applies, and the
codes stand for the input (`lzwBytesOf_lzwCodesOf`). -/
theorem lzwDec_of_codes {u : State} {x : ByteString} (hfits : u.inputFits) (hlimit : u.params.noTableLimit)
    (hout : u.outputFits x.length) (hreads : ReadsCodes u (lzwCodesOf x)) :
    ∃ v, exec .lzwDec u = .next v ∧ EndedWith v x false := by
  obtain ⟨chunks, hchunks, hdes⟩ := hreads
  by_cases hzero : u.inLen = 0#64
  · obtain ⟨v, hexec, hend, -⟩ := emptyInputGivesEmptyOutput .lzwDec u (.inr (.inr (.inr rfl))) hzero
    have hnil : chunks = [] := chunksOf_unique hchunks (by rw [State.input_eq_nil.mpr hzero]; exact ⟨rfl, by simp⟩)
    rw [hnil, List.map_nil, eq_comm, List.map_eq_nil_iff, lzwCodesOf_eq_nil] at hdes
    exact ⟨v, hexec, hdes ▸ hend⟩
  · obtain ⟨v, hexec, haccepts, -⟩ := lzwDecReadsCodes u hfits hlimit hzero
    have hbytes := lzwBytesOf_lzwCodesOf x
    obtain ⟨out, hout', -, -, -, hends, -⟩ :=
      haccepts chunks _ hchunks hdes (lzwBytesOf_isSome.mp (Option.isSome_of_eq_some hbytes))
    rw [hbytes, Option.some.injEq] at hout'
    exact ⟨v, hexec, hout' ▸ hends (hout' ▸ hout)⟩

/-- Settles O46: the words LZW.ENC wrote deserialize to its codes, which LZW.DEC reads back (`lzwDec_of_codes`). -/
theorem lzwRoundTrip : Obligations.LzwRoundTrip := by
  unfold Obligations.LzwRoundTrip
  intro s t hfits hlimit hexec herr hovf
  obtain ⟨t', hexec', hends, hfails, -⟩ := lzwEncWritesCodes s hfits hlimit
  rw [hexec] at hexec'
  cases hexec'
  have hfit : s.outputFits (s.sw * (lzwCodesOf s.input).length) := by
    by_contra hover
    rw [(hfails hover).err] at herr
    cases herr
  have hend : EndedWith t ((lzwCodesOf s.input).flatMap s.serWord) ((lzwCodesOf s.input).any s.serOverflows) := hends hfit
  obtain ⟨-, -, -, hflag⟩ := hend.flags
  have hkept : (lzwCodesOf s.input).any s.serOverflows = false := hflag.symm.trans hovf
  rw [hkept] at hend
  refine ⟨_, hend, fun u hcfg hufits hulimit huout hinput => ?_⟩
  rw [← s.length_input] at huout
  exact lzwDec_of_codes hufits hulimit huout (readsCodes_of_words hcfg hkept hinput)

end Sys2Proof.Machine
end

section
/-! SUPPORT. Proofs of the statements of 60_exceptions.md: the error exit (R236); an input beyond CAP_IN (R238); and which errors each
command reports (R231, R233, R235), read off the errors its phases can raise (`CommandError`) and the one `Finish` can. -/

namespace Sys2Proof.Machine

/-! ### The error exit (R236) -/

/-- Settles O16: the flags are those of an error's STATUS, and the exit writes no fifth field. -/
theorem errorExitWritesReport : Obligations.ErrorExitWritesReport := by
  unfold Obligations.ErrorExitWritesReport
  intro s e
  have hfail := failedWith_raiseError s e
  obtain ⟨hdone, hbusy, herr, hovf⟩ := hfail.flags
  exact ⟨hfail, hdone, hbusy, herr, hovf, rfl⟩

/-! ### An input beyond CAP_IN (R238) -/

/-- A command that reads IN judges the capacity before its first phase (R106). -/
theorem ctlOf_of_not_fits {i : Instr} {s : State} (hreads : readsInput i = true) (h : ¬s.inputFits) :
    ctlOf i s = .raise s .capacityExceeded := by
  cases i with
  | iwcSer | iwcWidth => cases hreads
  | iwcDes | hufEnc | hufDec | lzwEnc | lzwDec => exact guarded_of_not_fits h _

theorem finish_withInLen (s : State) (v : Word) (out : ByteString) (ovf : Bool) :
    State.finish { s with inLen := v } out ovf = { s.finish out ovf with inLen := v } := by
  unfold State.finish
  split <;> rfl

/-- Settles O51: the capacity check comes first where IN is read; IWC.SER and IWC.WIDTH are one `Finish` of what IN_LEN is no part
of. -/
theorem inputCapacityJudgedFirst : Obligations.InputCapacityJudgedFirst := by
  unfold Obligations.InputCapacityJudgedFirst
  refine fun i s hover => ⟨fun hreads => ?_, fun hreads v => ?_⟩
  · rw [exec_eq, ctlOf_of_not_fits hreads hover]
    rfl
  · cases i with
    | iwcSer => exact ⟨_, _, exec_iwcSer s, exec_iwcSer _, finish_withInLen (s.enter .sSer) v _ _⟩
    | iwcWidth =>
      exact ⟨_, _, exec_iwcWidth s, exec_iwcWidth _,
        finish_withInLen { s.enter .sWidth with value := BitVec.ofNat 64 s.sw } v _ _⟩
    | iwcDes | hufEnc | hufDec | lzwEnc | lzwDec => cases hreads

/-! ### The errors of each command (R231, R233, R235) -/

theorem ErrKind.code_ne_zero (e : ErrKind) : e.code ≠ 0#3 := by cases e <;> decide

/-- ERRCODE names an error the command's phases can raise, or the one `Finish` raises on an output beyond CAP_OUT (R107). -/
theorem commandError_of_errCode {i : Instr} {s t : State} {e : ErrKind} (h : exec i s = .next t) (hcode : t.errCode = e.code) :
    CommandError i s e ∨ (e = .capacityExceeded ∧ ∃ n, ¬s.outputFits n) := by
  rcases exec_cases h with ⟨s', out, ovf, -, rfl, hshell⟩ | ⟨s', e', -, rfl, -, herror⟩
  · obtain ⟨hends, hfails⟩ := finish_ends_of_shell hshell out ovf
    by_cases hfits : s.outputFits out.length
    · exact absurd (hcode.symm.trans (hends hfits).errCode) e.code_ne_zero
    · exact .inr ⟨ErrKind.code_inj (hcode.symm.trans (hfails hfits).errCode), _, hfits⟩
  · obtain rfl : e' = e := ErrKind.code_inj hcode
    exact .inl herror

/-- LengthMismatch is IWC.DES's alone, and IN_LEN is its cause (R231). -/
theorem CommandError.of_lengthMismatch {i : Instr} {s : State} (h : CommandError i s .lengthMismatch) :
    i = .iwcDes ∧ s.inLen.toNat ≠ s.sw := by
  cases i with
  | iwcDes => exact ⟨rfl, by simpa [CommandError] using h⟩
  | iwcSer | iwcWidth | hufEnc | hufDec | lzwEnc | lzwDec => simp [CommandError] at h

/-- The two commands that do not read IN and the two encoders raise no error but CapacityExceeded (R235). -/
theorem CommandError.of_encode {i : Instr} {s : State} {e : ErrKind} (hi : i = .iwcSer ∨ i = .iwcWidth ∨ i = .hufEnc ∨ i = .lzwEnc)
    (h : CommandError i s e) : e = .capacityExceeded := by
  rcases hi with rfl | rfl | rfl | rfl
  · exact h.elim
  · exact h.elim
  · exact h.1
  · exact h.1

theorem not_commandError_illegalCommand (i : Instr) (s : State) : ¬CommandError i s .illegalCommand := by
  cases i <;> simp [CommandError]

/-- CapacityExceeded raised in the phases is for the input or for a table (R233). -/
theorem CommandError.of_capacityExceeded {i : Instr} {s : State} (h : CommandError i s .capacityExceeded) :
    ¬s.inputFits ∨ ¬s.params.noTableLimit := by
  cases i with
  | iwcSer | iwcWidth => exact h.elim
  | iwcDes => exact .inl (by simpa [CommandError] using h)
  | hufEnc | lzwEnc => exact h.2
  | hufDec | lzwDec => simpa [CommandError] using h

/-- Settles O49: the kinds `CommandError` allows each command, and `Finish` adds CapacityExceeded alone. -/
theorem errorKindsByCommand : Obligations.ErrorKindsByCommand := by
  unfold Obligations.ErrorKindsByCommand
  intro i s t h
  have raised {e : ErrKind} (hne : e ≠ .capacityExceeded) (hcode : t.errCode = e.code) : CommandError i s e :=
    (commandError_of_errCode h hcode).resolve_right fun hcap => hne hcap.1
  refine ⟨fun hcode => (raised (by decide) hcode).of_lengthMismatch, ?_, fun hi => ⟨fun hcode => ?_, fun hcode => ?_⟩,
    fun hcode => not_commandError_illegalCommand i s (raised (by decide) hcode)⟩
  · rintro rfl hfits hlen
    exact (exec_iwcDes_of_error hfits h (des_of_length_ne (s.length_input ▸ hlen))).1.errCode
  · cases (raised (by decide) hcode).of_encode hi
  · cases (raised (by decide) hcode).of_encode hi

/-- Settles O50: each of the three causes of CapacityExceeded is a limit the defaults do not set. -/
theorem noCapacityErrorByDefault : Obligations.NoCapacityErrorByDefault := by
  unfold Obligations.NoCapacityErrorByDefault
  rintro i s t ⟨hin, hout, htables⟩ h hcode
  have hinput : s.inputFits := by simp [State.inputFits, hin]
  have houtput (n : Nat) : s.outputFits n := by simp [State.outputFits, hout]
  rcases commandError_of_errCode h hcode with herror | ⟨-, n, hover⟩
  · rcases herror.of_capacityExceeded with hover | hlimit
    · exact hover hinput
    · exact hlimit htables
  · exact hover (houtput n)

end Sys2Proof.Machine
end

section
/-! SUPPORT. Proofs of the statements of 70_reset_and_hazards.md: a reset in any state (R260, R261), and the two steps that take a
started command to its end (R269). -/

namespace Sys2Proof.Machine

/-! ### Reset from any state (R260, R261) -/

theorem State.output_of_outLen_zero {s : State} (h : s.outLen = 0#64) : s.output = [] := by simp [State.output, h]

/-- Settles O14: the step is `State.toReset`, whose fields are the reset state's; with both lengths 0 neither buffer shows a byte. -/
theorem resetFromAnyState : Obligations.ResetFromAnyState := by
  unfold Obligations.ResetFromAnyState
  intro s rest hpending
  exact ⟨_, step_of_turn hpending, rfl, rfl, rfl, rfl, rfl, rfl, rfl, rfl, rfl, rfl, rfl, rfl,
    State.input_eq_nil.mpr rfl, State.output_of_outLen_zero rfl, fun i => ⟨Memory.read_nil i, Memory.read_nil i⟩,
    rfl, rfl, rfl⟩

/-! ### The end of a started command (R110, R269) -/

/-- A host's write to CMD in an idle block is the command's start (R102, R105), whatever the value. -/
theorem step_of_command_write {s : State} {v : Word} {rest : List Turn} (hidle : s.busy = false)
    (hpending : s.pending = .host (.wr 1 v) :: rest) : step s = .next (State.start { s with pending := rest } v) :=
  (step_of_turn hpending).trans (hostTurn_of_idle (s := { s with pending := rest }) hidle _)

/-- The sequencer's turn ends any started command: a legal one as every command ends (O47), an illegal one by the error exit. -/
theorem sequencerTurn_ends {s : State} (hbusy : s.busy = true) :
    ∃ t, sequencerTurn s = .next t ∧ t.busy = false ∧ t.done = true ∧ t.pending = s.pending := by
  cases hdecode : decodeCommand s.latch with
  | ok i =>
    obtain ⟨t, hrun, hdone, hidle, -⟩ := everyCommandEnds i s
    exact ⟨t, (sequencerTurn_of_decoded hbusy hdecode).trans hrun, hidle, hdone, (sameShell_exec hrun).pending⟩
  | error r =>
    obtain ⟨hdone, hidle, -⟩ := (failedWith_raiseError s .illegalCommand).flags
    exact ⟨_, sequencerTurn_of_rejected hbusy hdecode, hidle, hdone, s.raiseError_pending _⟩

/-- The step that takes the sequencer's turn, in a block where a command has started. -/
theorem step_sequencer_ends {s : State} {rest : List Turn} (hbusy : s.busy = true) (hpending : s.pending = .sequencer :: rest) :
    ∃ t, step s = .next t ∧ t.busy = false ∧ t.done = true ∧ t.pending = rest := by
  rw [step_of_turn hpending]
  exact sequencerTurn_ends (s := { s with pending := rest }) hbusy

/-- Settles O48: the write starts the command (`step_of_command_write`), and the sequencer's turn ends it (`step_sequencer_ends`). -/
theorem startedCommandEndsInTwoSteps : Obligations.StartedCommandEndsInTwoSteps := by
  unfold Obligations.StartedCommandEndsInTwoSteps
  intro s v rest hidle hpending
  have hbusy := State.start_busy { s with pending := .sequencer :: rest } v
  obtain ⟨u, hends⟩ := step_sequencer_ends hbusy (State.start_pending _ v)
  exact ⟨_, u, step_of_command_write hidle hpending, hbusy, packStatus_done .., hends⟩

end Sys2Proof.Machine
end
